-- ==== Sys2Proof/Word.lean ====
section
/-! DEFINITION. The words of the block (spec/00_scope.md R10, R14): registers are 32 bits, bytes 8, cell patterns 64. -/

namespace Sys2Proof

/-- A 32-bit register, bus data word or command word. -/
abbrev Word := BitVec 32

/-- A byte of a memory window, a character code or an attribute. -/
abbrev Byte := BitVec 8

/-- A 16-bit dimension or length register. -/
abbrev Half := BitVec 16

/-- An 8×8 cell pattern: bit 63 − (8·r + c) is the pixel at row r, column c; 1 is ink (R14, R16). -/
abbrev Pattern := BitVec 64

end Sys2Proof
end

