-- ==== Sys2Proof/Config.lean ====
section
/-! DEFINITION. What an instance of the block fixes (spec/00_scope.md R6, R7) and the free values
(spec/93_implementation_defined.md U3, U4, U5, U7). -/

namespace Sys2Proof

/-- The implementation parameters of one instance (R6, R7). They are constant registers of the machine (PARAM0 and
PARAM1), so State holds them and every statement over states holds for every configuration (log 9). -/
structure Config.Params where
  /-- GT_ENTRIES: entries in each glyph bank (R6). -/
  gtEntries : Nat
  /-- SRC_MAX_W: the widest raster the SRC memory holds (R7). -/
  srcMaxW : Nat
  /-- SRC_MAX_H: the highest raster the SRC memory holds (R7). -/
  srcMaxH : Nat
  deriving DecidableEq, Repr

/-- The ranges R6 and R7 give the parameters. -/
abbrev Config.Params.Ok (p : Config.Params) : Prop :=
  1 ≤ p.gtEntries ∧ p.gtEntries ≤ 65536 ∧ 256 ≤ p.srcMaxW ∧ p.srcMaxW ≤ 4096 ∧ 192 ≤ p.srcMaxH ∧
    p.srcMaxH ≤ 4096 ∧ p.srcMaxW * p.srcMaxH ≤ 4194304

/-- The reference configuration of R6 and R7: 1024 entries, 1024 × 1024 pixels. -/
def Config.Params.reference : Config.Params := ⟨1024, 1024, 1024⟩

/-- FREE VALUE (U3, U4, U5, U7; log 4): `freeByte d a` is byte `a` of the d-th draw. It has no body, so nothing can be
proved of its value; every use takes a draw number of its own from the counter `draws` of State. -/
opaque Config.freeByte : Nat → Nat → Byte

end Sys2Proof
end

