-- ==== Sys2Proof/Syntax.lean ====
section
/-! DEFINITION. The commands of the block, one constructor per row of the opcode map (spec/30_encoding.md R160). -/

namespace Sys2Proof

/-- A glyph bank: bank 0 is ModelA, bank 1 is ModelB (spec/10_state.md R47, R77; spec/30_encoding.md R159). -/
inductive Bank where
  | modelA
  | modelB
  deriving DecidableEq, Repr

/-- A command with its operands, each an unsigned integer (R159, R165). The field widths are checked by
`Instr.wellFormed`; range checks beyond them are the command's own (log 17). -/
inductive Instr where
  /-- NOP (R350) -/
  | nop
  /-- CALIBRATE (R266) -/
  | calibrate
  /-- BINARIZE (R293) -/
  | binarize
  /-- MATCH (R325) -/
  | matchAll
  /-- LAYOUT_ENC (R235) -/
  | layoutEnc
  /-- LAYOUT_DEC (R236) -/
  | layoutDec
  /-- CHARS_TO_CELLS (R353) -/
  | charsToCells
  /-- PAINT (R356) -/
  | paint
  /-- ENCODE (R352) -/
  | encode
  /-- DECODE_DF (R357) -/
  | decodeDf
  /-- DECODE_RAW (R358) -/
  | decodeRaw
  /-- SAMPLE x, y (R292) -/
  | sample (x y : Nat)
  /-- MATCH_CELL x, y (R324) -/
  | matchCell (x y : Nat)
  /-- CELL_ADDR row, subrow (R234) -/
  | cellAddr (row subrow : Nat)
  /-- GT_WRITE bank, index (R200) -/
  | gtWrite (bank : Bank) (index : Nat)
  /-- GT_INVAL bank, index (R201) -/
  | gtInval (bank : Bank) (index : Nat)
  /-- GT_CLEAR bank (R202) -/
  | gtClear (bank : Bank)
  /-- GT_LOOKUP bank (R203) -/
  | gtLookup (bank : Bank)
  /-- GT_REVERSE bank, code (R204) -/
  | gtReverse (bank : Bank) (code : Nat)
  deriving DecidableEq, Repr

end Sys2Proof
end

