-- ==== Sys2Proof/WellFormed.lean ====
section
/-! DEFINITION. Which commands can be written as a word: every operand fits its field (spec/30_encoding.md R154 to
R158; R165: "An operand wider than its field is an assembly error, never silently truncated"). -/

namespace Sys2Proof

/-- Every operand of the command fits the field its format gives it. -/
def Instr.wellFormed : Instr → Bool
  | .nop | .calibrate | .binarize | .matchAll | .layoutEnc | .layoutDec | .charsToCells | .paint | .encode
  | .decodeDf | .decodeRaw => true
  | .sample x y => decide (x < 4096) && decide (y < 4096)
  | .matchCell x y => decide (x < 4096) && decide (y < 4096)
  | .cellAddr row subrow => decide (row < 32) && decide (subrow < 8)
  | .gtWrite _ index => decide (index < 65536)
  | .gtInval _ index => decide (index < 65536)
  | .gtClear _ => true
  | .gtLookup _ => true
  | .gtReverse _ code => decide (code < 256)

end Sys2Proof
end

