-- ==== Sys2Proof/Decode.lean ====
section
/-! DEFINITION. The decoder and the encoder of command words (spec/30_encoding.md R152 to R165). -/

namespace Sys2Proof

/-- Why a word spells no command: either case completes with ILLEGAL_COMMAND (R401). -/
inductive DecodeError where
  /-- the opcode is not in the map of R160 (R161) -/
  | reservedOpcode
  /-- the opcode is defined and a reserved-zero bit of its format is 1 (R162) -/
  | reservedBits
  deriving DecidableEq, Repr

/-- Field `w[lo+len-1 : lo]` as an unsigned integer (R11, R159). -/
def field (w : Word) (lo len : Nat) : Nat := (w.extractLsb' lo len).toNat

/-- Bank 0 is ModelA and bank 1 is ModelB (R159). -/
def Bank.ofBit (b : Nat) : Bank := if b = 0 then .modelA else .modelB

/-- The number of a bank (R159). -/
def Bank.toNat : Bank → Nat
  | .modelA => 0
  | .modelB => 1

/-- The command `i`, provided the reserved field of its format is zero (R162). -/
def ifZero (reserved : Nat) (i : Instr) : Except DecodeError Instr :=
  if reserved = 0 then .ok i else .error .reservedBits

/-- The decode function of R164, total on all 2^32 words; it reads the word and nothing else (R163). -/
def decode (w : Word) : Except DecodeError Instr :=
  match field w 0 8 with
  | 0x00 => ifZero (field w 8 24) .nop
  | 0x01 => ifZero (field w 8 24) .calibrate
  | 0x02 => ifZero (field w 8 24) .binarize
  | 0x03 => ifZero (field w 8 24) .matchAll
  | 0x04 => ifZero (field w 8 24) .layoutEnc
  | 0x05 => ifZero (field w 8 24) .layoutDec
  | 0x06 => ifZero (field w 8 24) .charsToCells
  | 0x07 => ifZero (field w 8 24) .paint
  | 0x08 => ifZero (field w 8 24) .encode
  | 0x09 => ifZero (field w 8 24) .decodeDf
  | 0x0A => ifZero (field w 8 24) .decodeRaw
  | 0x10 => .ok (.sample (field w 8 12) (field w 20 12))
  | 0x11 => .ok (.matchCell (field w 8 12) (field w 20 12))
  | 0x12 => ifZero (field w 16 16) (.cellAddr (field w 8 5) (field w 13 3))
  | 0x20 => ifZero (field w 9 7) (.gtWrite (Bank.ofBit (field w 8 1)) (field w 16 16))
  | 0x21 => ifZero (field w 9 7) (.gtInval (Bank.ofBit (field w 8 1)) (field w 16 16))
  | 0x22 => ifZero (field w 9 23) (.gtClear (Bank.ofBit (field w 8 1)))
  | 0x23 => ifZero (field w 9 23) (.gtLookup (Bank.ofBit (field w 8 1)))
  | 0x24 => ifZero (field w 17 15) (.gtReverse (Bank.ofBit (field w 16 1)) (field w 8 8))
  | _ => .error .reservedOpcode

/-- The opcode of each command (R160). -/
def Instr.opcode : Instr → Byte
  | .nop => 0x00
  | .calibrate => 0x01
  | .binarize => 0x02
  | .matchAll => 0x03
  | .layoutEnc => 0x04
  | .layoutDec => 0x05
  | .charsToCells => 0x06
  | .paint => 0x07
  | .encode => 0x08
  | .decodeDf => 0x09
  | .decodeRaw => 0x0A
  | .sample _ _ => 0x10
  | .matchCell _ _ => 0x11
  | .cellAddr _ _ => 0x12
  | .gtWrite _ _ => 0x20
  | .gtInval _ _ => 0x21
  | .gtClear _ => 0x22
  | .gtLookup _ => 0x23
  | .gtReverse _ _ => 0x24

/-- The reserved-zero mask of each command's format (R160). -/
def Instr.reservedMask : Instr → Word
  | .nop | .calibrate | .binarize | .matchAll | .layoutEnc | .layoutDec | .charsToCells | .paint | .encode
  | .decodeDf | .decodeRaw => 0xFFFFFF00
  | .sample _ _ | .matchCell _ _ => 0x00000000
  | .cellAddr _ _ => 0xFFFF0000
  | .gtWrite _ _ | .gtInval _ _ => 0x0000FE00
  | .gtClear _ | .gtLookup _ => 0xFFFFFE00
  | .gtReverse _ _ => 0xFFFE0000

/-- The words of a well-formed command: the bit tables of R153 to R158, most significant field first. -/
def encode (i : Instr) : Word :=
  match i with
  | .sample x y | .matchCell x y => BitVec.ofNat 12 y ++ BitVec.ofNat 12 x ++ i.opcode
  | .cellAddr row subrow => 0#16 ++ BitVec.ofNat 3 subrow ++ BitVec.ofNat 5 row ++ i.opcode
  | .gtReverse bank code => 0#15 ++ BitVec.ofNat 1 bank.toNat ++ BitVec.ofNat 8 code ++ i.opcode
  | .gtClear bank | .gtLookup bank => 0#23 ++ BitVec.ofNat 1 bank.toNat ++ i.opcode
  | .gtWrite bank index | .gtInval bank index =>
    BitVec.ofNat 16 index ++ 0#7 ++ BitVec.ofNat 1 bank.toNat ++ i.opcode
  | .nop | .calibrate | .binarize | .matchAll | .layoutEnc | .layoutDec | .charsToCells | .paint | .encode
  | .decodeDf | .decodeRaw => 0#24 ++ i.opcode

/-- What the decoder reads from an instruction of `nbits` bits `w`, the bits above them zero. A command is one 32-bit
word (R152), so nothing is laid out in bytes. -/
def decodeTableWord (nbits w : Nat) : Option Instr :=
  match decode (BitVec.ofNat 32 (w % 2 ^ nbits)) with
  | .ok i => some i
  | .error _ => none

end Sys2Proof
end

