-- ==== Sys2Proof/Machine/State.lean ====
section
/-! DEFINITION. The state of the block as plain data (spec/10_state.md), what the host sends and gets (spec/20_memory.md
R101, spec/70_reset_and_hazards.md R472), the reasons a step can stop, and the state after reset (R90). -/

namespace Sys2Proof.Machine

/-- One entry of a glyph bank (R77). -/
structure GlyphEntry where
  /-- the entry takes part in lookups -/
  valid : Bool
  /-- its 8×8 pattern (R14) -/
  pattern : Pattern
  /-- its character code -/
  code : Byte
  deriving DecidableEq, Repr

/-- The memory: the bytes some writer has written since the last hardware reset, by their offset from BLOCK_BASE
(R105). An unlisted byte is one no writer has written (R91; log 5). -/
abbrev Memory := List Host.Cell

/-- The canonical form of the memory: offsets strictly rising. -/
abbrev Memory.wf (m : Memory) : Prop := m.Pairwise (fun c d => c.1 < d.1)

/-- A glyph bank: its entries by index. An unlisted index holds an invalid entry (R77, R92; log 13). -/
abbrev GlyphBank := List (Nat × GlyphEntry)

/-- The size of a host access, 1, 2 or 4 bytes (R101). -/
inductive Size where
  | byte
  | half
  | word
  deriving DecidableEq, Repr

/-- A host bus access (R101) at an offset from BLOCK_BASE; a write's data are the low bits of the word (log 16). -/
inductive Access where
  /-- MemRead(off, size) -/
  | read (off : Nat) (size : Size)
  /-- MemWrite(off, size, data) -/
  | write (off : Nat) (size : Size) (data : Word)
  deriving DecidableEq, Repr

/-- One event of the single stream of R123: a host access, the engine's turn to complete its command or primitive
step, or a hardware reset (R450, R472). -/
inductive Event where
  /-- a host transaction on the bus slave port (R101) -/
  | access (a : Access)
  /-- the engine's turn (R85, R123); an IDLE engine does nothing with it -/
  | engineTurn
  /-- rst asserted, then released (R451, R472) -/
  | hardwareReset
  deriving DecidableEq, Repr

/-- The one response of a transaction (R101). -/
inductive Response where
  /-- OKAY, with the data read, zero-extended -/
  | readOkay (data : Word)
  /-- OKAY to a write -/
  | writeOkay
  /-- ERROR to a read, with data the host must not use (R104, U5) -/
  | readError (data : Word)
  /-- ERROR to a write -/
  | writeError
  deriving DecidableEq, Repr

/-- The block (spec/10_state.md). A register field holds the register's live bits: reserved bits read 0 and ignore
writes (R106; log 14). ID, VERSION and PLACEHOLDER are constants and are answered by the register read. -/
structure State where
  /-- GT_ENTRIES, SRC_MAX_W and SRC_MAX_H, read in PARAM0 and PARAM1 (R6, R7, R58, R59) -/
  params : Config.Params
  /-- CTRL.GT_LOCK, the glyph lock (R33, R86) -/
  gtLock : Bool
  /-- STATUS.BUSY, the engine state (R34, R85) -/
  busy : Bool
  /-- STATUS.PARTIAL (R34, R329) -/
  partialMatch : Bool
  /-- STATUS.SCALED (R34, R261) -/
  scaled : Bool
  /-- STATUS.DEC_PARTIAL (R34, R353) -/
  decPartial : Bool
  /-- STATUS.CMD_OVERRUN (R34, R151) -/
  cmdOverrun : Bool
  /-- STATUS.BUSY_WRITE (R34, R460) -/
  busyWrite : Bool
  /-- CMD, the last accepted command word (R35, R85) -/
  cmd : Word
  /-- ERR_CAUSE.CODE (R36) -/
  errCause : Byte
  /-- INT_EN.DONE_EN (R37) -/
  doneEn : Bool
  /-- INT_EN.ERR_EN (R37) -/
  errEn : Bool
  /-- INT_STATUS.DONE (R38) -/
  intDone : Bool
  /-- INT_STATUS.ERR (R38) -/
  intErr : Bool
  /-- SRC_W (R39) -/
  srcW : Half
  /-- SRC_H (R40) -/
  srcH : Half
  /-- REQ_OFF_X, signed (R41) -/
  reqOffX : Word
  /-- REQ_OFF_Y, signed (R42) -/
  reqOffY : Word
  /-- USED_OFF_X, signed (R43) -/
  usedOffX : Word
  /-- USED_OFF_Y, signed (R44) -/
  usedOffY : Word
  /-- EFF_W (R45) -/
  effW : Half
  /-- EFF_H (R46) -/
  effH : Half
  /-- MODEL_SEL (R47) -/
  modelSel : Bank
  /-- ATTR_FILL (R48) -/
  attrFill : Byte
  /-- UNMATCHED_CNT (R50) -/
  unmatchedCnt : BitVec 10
  /-- DEC_MISS_CNT (R51) -/
  decMissCnt : BitVec 10
  /-- IN_LEN (R52) -/
  inLen : Half
  /-- RESULT (R53) -/
  result : Word
  /-- RESULT_PAT_LO (R54) -/
  resultPatLo : Word
  /-- RESULT_PAT_HI (R54) -/
  resultPatHi : Word
  /-- GT_PAT_LO (R55) -/
  gtPatLo : Word
  /-- GT_PAT_HI (R55) -/
  gtPatHi : Word
  /-- GT_CODE (R56) -/
  gtCode : Byte
  /-- GT_COUNT_A (R57, R81) -/
  gtCountA : BitVec 17
  /-- GT_COUNT_B (R57, R81) -/
  gtCountB : BitVec 17
  /-- GT[0], ModelA's bank (R77) -/
  gtA : GlyphBank
  /-- GT[1], ModelB's bank (R77) -/
  gtB : GlyphBank
  /-- the index of the primitive step a sequencing command is on (R85, R351) -/
  seqStep : Nat
  /-- SRC, CLEAN, CELLPAT, RAW, DF and MAP at their windows' offsets (R70 to R76, R105) -/
  mem : Memory
  /-- MODEL: the draw that gives the bytes no writer has written since the last hardware reset (R91, U4; log 5) -/
  memDraw : Nat
  /-- MODEL: the next draw number (log 4) -/
  draws : Nat
  /-- MODEL: what happens next, in order (R123, R472; log 1) -/
  events : List Event
  /-- MODEL: the responses given so far, newest first (R101; log 15) -/
  responses : List Response
  deriving DecidableEq, Repr

/-- Why the machine stops. -/
inductive Fault where
  /-- Raised by the step on a host access at an offset past 0x1FF_FFFF, which "are outside the block and are not decoded
  by it" (R106; log 11). Safe: the block itself would go on unchanged. -/
  | notDecoded (off : Nat)
  deriving DecidableEq, Repr

/-- Why an instruction has no meaning here. -/
inductive Refusal where
  /-- Raised by an arm of `exec` whose command has no meaning yet; no arm raises it now. Safe: the model stops. -/
  | notModelled (mnemonic : String)
  deriving DecidableEq, Repr

/-- The machine right after a hardware reset (R60, R90, R92, R451), in the reference configuration (R6, R7; log 9), with
memories whose bytes are free values (R91; log 5). -/
def State.reset : State where
  params := Config.Params.reference
  gtLock := false
  busy := false
  partialMatch := false
  scaled := false
  decPartial := false
  cmdOverrun := false
  busyWrite := false
  cmd := 0
  errCause := 0
  doneEn := false
  errEn := false
  intDone := false
  intErr := false
  srcW := 0
  srcH := 0
  reqOffX := 0xFFFFFFFF
  reqOffY := 0xFFFFFFFF
  usedOffX := 0
  usedOffY := 0
  effW := 0
  effH := 0
  modelSel := .modelA
  attrFill := 0x38
  unmatchedCnt := 0
  decMissCnt := 0
  inLen := 0
  result := 0
  resultPatLo := 0
  resultPatHi := 0
  gtPatLo := 0
  gtPatHi := 0
  gtCode := 0
  gtCountA := 0
  gtCountB := 0
  gtA := []
  gtB := []
  seqStep := 0
  mem := []
  memDraw := 0
  draws := 1
  events := []
  responses := []

end Sys2Proof.Machine
end

