-- ==== Sys2Proof/Machine/Ops.lean ====
section
/-! DEFINITION. The named operations over bits, memory and the engine: byte and pattern packing (spec/00_scope.md R14),
the canonical lists, the completion that records an error and its acknowledge (spec/60_exceptions.md R410, R422), and
the sequencing of primitives (spec/45_codec_sequences.md R351). -/

namespace Sys2Proof.Machine

/-! ### Bits, bytes and patterns -/

/-- The byte whose bit 7 − c is `f c`: the first bit is the most significant (R14, R72). -/
def byteMsb (f : Nat → Bool) : Byte :=
  BitVec.ofBool (f 0) ++ BitVec.ofBool (f 1) ++ BitVec.ofBool (f 2) ++ BitVec.ofBool (f 3) ++
    BitVec.ofBool (f 4) ++ BitVec.ofBool (f 5) ++ BitVec.ofBool (f 6) ++ BitVec.ofBool (f 7)

/-- The byte whose bit j is `f j`: the first bit is the least significant (R76). -/
def byteLsb (f : Nat → Bool) : Byte := byteMsb (fun c => f (7 - c))

/-- The pattern whose row byte r is `f r`: row 0 is the most significant byte (R14). -/
def packRows (f : Nat → Byte) : Pattern :=
  f 0 ++ f 1 ++ f 2 ++ f 3 ++ f 4 ++ f 5 ++ f 6 ++ f 7

/-- `rowbyte(P, r) = P[63 − 8r : 56 − 8r]` (R14). -/
def rowByte (p : Pattern) (r : Nat) : Byte := p.extractLsb' (56 - 8 * r) 8

/-- The bit of pattern `p` at row `r`, column `c`: `P[63 − (8r + c)]` (R14). -/
def patternBit (p : Pattern) (r c : Nat) : Bool := p.getLsbD (63 - (8 * r + c))

/-- Byte k of a little-endian data word: bits [8k+7 : 8k] (R102). -/
def dataByte (v : Word) (k : Nat) : Byte := v.extractLsb' (8 * k) 8

/-- The little-endian word of n bytes, zero-extended: byte k is bits [8k+7 : 8k] (R102). -/
def dataWord (n : Nat) (f : Nat → Byte) : Word :=
  let b := fun k => if k < n then f k else 0
  b 3 ++ b 2 ++ b 1 ++ b 0

/-- Free bits where the mask is 1, current bits elsewhere (R461, R453). -/
def mixBits {w : Nat} (mask cur free : BitVec w) : BitVec w :=
  if mask = 0 then cur else (cur &&& ~~~mask) ||| (free &&& mask)

/-! ### Sorted lists of keyed cells -/

/-- Writes one cell and keeps the keys strictly rising. -/
def cellsPut {β : Type} : List (Nat × β) → Nat → β → List (Nat × β)
  | [], a, v => [(a, v)]
  | (k, w) :: m, a, v =>
    if a < k then (a, v) :: (k, w) :: m else if a = k then (a, v) :: m else (k, w) :: cellsPut m a v

/-- Writes the `n` cells from `lo` on: cell `lo + k` becomes `f k`. Every other cell stays. -/
def cellsFill {β : Type} (m : List (Nat × β)) (lo n : Nat) (f : Nat → β) : List (Nat × β) :=
  m.filter (fun c => decide (c.1 < lo)) ++ (List.range n).map (fun k => (lo + k, f k)) ++
    m.filter (fun c => decide (lo + n ≤ c.1))

/-- The byte at an offset: what was last written, else the free value of a byte no writer has written (R91, U4). -/
def State.byteAt (s : State) (a : Nat) : Byte := (s.mem.lookup a).getD (Config.freeByte s.memDraw a)

/-- Writes one byte of memory. -/
def State.putByte (s : State) (a : Nat) (v : Byte) : State := { s with mem := cellsPut s.mem a v }

/-- Writes `n` bytes of memory from `lo` on. -/
def State.fillBytes (s : State) (lo n : Nat) (f : Nat → Byte) : State :=
  { s with mem := cellsFill s.mem lo n f }

/-! ### Errors and completion -/

/-- The causes of R400 but NONE. -/
inductive ErrorCode where
  | illegalCommand
  | badArg
  | badDimensions
  | badInputSize
  | scaleRequired
  | windowOob
  | gtLocked
  | gtDuplicate
  deriving DecidableEq, Repr

/-- The codes of R400. -/
def ErrorCode.code : ErrorCode → Byte
  | .illegalCommand => 0x01
  | .badArg => 0x02
  | .badDimensions => 0x03
  | .badInputSize => 0x04
  | .scaleRequired => 0x05
  | .windowOob => 0x06
  | .gtLocked => 0x07
  | .gtDuplicate => 0x08

/-- What a primitive command leaves before its completion: its effects, or an error and no effect at all (R411). -/
abbrev Effect := Except ErrorCode State

/-- TAKING AN EXCEPTION, and ending without one: the completion of R410 with code `e` (0x00 is success). It is the
complete record of an error (R425): there is no saved pc, no mode and no vector. The engine is IDLE again (R85). -/
def State.complete (s : State) (e : Byte) : State :=
  { s with
    errCause := e
    busy := false
    intDone := true
    intErr := s.intErr || decide (e ≠ 0)
    seqStep := 0 }

/-- The counterpart of a return (R422, R426): a write to INT_STATUS clears the bits written with 1. -/
def State.acknowledge (s : State) (v : Word) : State :=
  { s with intDone := s.intDone && !v.getLsbD 0, intErr := s.intErr && !v.getLsbD 1 }

/-- A primitive command's end: its effects and a completion with code 0, or a completion with the error's code and
nothing else (R410, R411). -/
def State.settle (s : State) (r : Effect) : State :=
  match r with
  | .ok t => t.complete 0
  | .error e => s.complete e.code

/-- A step of a sequence that is not its last: its effects and the next step's index, or, on an error, the sequence's
completion with the step's code, the earlier effects kept (R351). -/
def State.advance (s : State) (r : Effect) : State :=
  match r with
  | .ok t => { t with seqStep := s.seqStep + 1 }
  | .error e => s.complete e.code

/-- The primitive step a sequencing command is on (R85, R351). The index is always below the list's length while a
command runs; past its end no step is left and the sequence completes (log 18). -/
def State.runSequence (s : State) (steps : List (State → Effect)) : State :=
  match steps.drop s.seqStep with
  | [] => s.complete 0
  | [p] => s.settle (p s)
  | p :: _ :: _ => s.advance (p s)

/-- Acceptance of a CMD write (R150): the word is latched and the engine is BUSY on its first step. -/
def State.accept (s : State) (w : Word) : State := { s with cmd := w, busy := true, seqStep := 0 }

/-- The command the engine is running, if it is BUSY and the latched word spells one (R85, R164). -/
def State.running (s : State) : Option Instr :=
  if s.busy then
    match decode s.cmd with
    | .ok i => some i
    | .error _ => none
  else none

/-- Gives the response of a host transaction (R101). -/
def State.respond (s : State) (r : Response) : State := { s with responses := r :: s.responses }

end Sys2Proof.Machine
end

