-- ==== Sys2Proof/Machine/Operands.lean ====
section
/-! DEFINITION. Where operands come from: the address map and the windows' byte layouts (spec/20_memory.md R105 to R113),
pixels and cells (spec/00_scope.md R13 to R15), staged and signed registers, and the glyph lookups (spec/10_state.md
R78, R79). -/

namespace Sys2Proof.Machine

/-! ### The address map (R105) -/

/-- The first offset outside the block (R100). -/
@[simp] def blockSize : Nat := 0x2000000
/-- Base of the CELLPAT window. -/
@[simp] def cellpatBase : Nat := 0x10000
/-- Base of the RAW window. -/
@[simp] def rawBase : Nat := 0x20000
/-- Base of the DF window. -/
@[simp] def dfBase : Nat := 0x30000
/-- Base of the MAP window. -/
@[simp] def mapBase : Nat := 0x40000
/-- Base of the CLEAN window. -/
@[simp] def cleanBase : Nat := 0x80000
/-- Base of the SRC window. -/
@[simp] def srcBase : Nat := 0x1000000

/-- The live size of CLEAN: ⌈SRC_MAX_W·SRC_MAX_H / 8⌉ bytes (R72). -/
def cleanBytes (p : Config.Params) : Nat := (p.srcMaxW * p.srcMaxH + 7) / 8

/-- The live size of SRC: 4·SRC_MAX_W·SRC_MAX_H bytes (R71). -/
def srcBytes (p : Config.Params) : Nat := 4 * (p.srcMaxW * p.srcMaxH)

/-- What an offset of the block belongs to (R105, R106). -/
inductive Region where
  | registers
  | cellpat
  | raw
  | df
  | map
  | clean
  | src
  /-- reserved ranges and the part of a window past its live size (R106) -/
  | reserved
  deriving DecidableEq, Repr

/-- The region of an offset: a window is its live part only (R105, R106). -/
def regionOf (p : Config.Params) (a : Nat) : Region :=
  if a < 0x10000 then .registers
  else if cellpatBase ≤ a ∧ a < cellpatBase + 6144 then .cellpat
  else if rawBase ≤ a ∧ a < rawBase + 768 then .raw
  else if dfBase ≤ a ∧ a < dfBase + 6912 then .df
  else if mapBase ≤ a ∧ a < mapBase + 96 then .map
  else if cleanBase ≤ a ∧ a < cleanBase + cleanBytes p then .clean
  else if srcBase ≤ a ∧ a < srcBase + srcBytes p then .src
  else .reserved

/-- The offset is a byte of one of the six memories (R70, R105). -/
def liveByte (p : Config.Params) (a : Nat) : Bool :=
  match regionOf p a with
  | .registers | .reserved => false
  | .cellpat | .raw | .df | .map | .clean | .src => true

/-! ### Pixels (R13, R71) -/

/-- The offset of pixel (x, y)'s red byte in the SRC window (R13, R108). -/
def State.pixelOffset (s : State) (x y : Nat) : Nat := srcBase + 4 * (y * s.srcW.toNat + x)

/-- SRCPIX(x, y): red, green and blue (R13, R71). -/
def State.srcPix (s : State) (x y : Nat) : Byte × Byte × Byte :=
  (s.byteAt (s.pixelOffset x y), s.byteAt (s.pixelOffset x y + 1), s.byteAt (s.pixelOffset x y + 2))

/-- legalDims (R403). -/
abbrev State.legalDims (s : State) : Prop :=
  (1 ≤ s.srcW.toNat ∧ s.srcW.toNat ≤ s.params.srcMaxW) ∧ (1 ≤ s.srcH.toNat ∧ s.srcH.toNat ≤ s.params.srcMaxH)

/-! ### Cells (R15, R73, R233) -/

/-- CELLPAT[i]: row byte r at window byte 8i + r (R73, R110). -/
def State.cellPat (s : State) (i : Nat) : Pattern := packRows (fun r => s.byteAt (cellpatBase + 8 * i + r))

/-- RAW[i] (R74, R111). -/
def State.rawCode (s : State) (i : Nat) : Byte := s.byteAt (rawBase + i)

/-- DF[a] (R75, R112). -/
def State.dfByte (s : State) (a : Nat) : Byte := s.byteAt (dfBase + a)

/-- Writes all of CELLPAT (R73). -/
def State.writeCells (s : State) (f : Nat → Pattern) : State :=
  s.fillBytes cellpatBase 6144 (fun k => rowByte (f (k / 8)) (k % 8))

/-- The address function of R230: character row `line`, pixel row `subrow` within the cell. -/
def cellAddress (line subrow : Nat) : Nat :=
  ((line &&& 0b00011000) + subrow) * 256 + ((line <<< 5) &&& 0b11100000)

/-! ### Registers as operands -/

/-- The window origin MATCH uses, signed (R320). -/
def State.usedX (s : State) : Int := s.usedOffX.toInt
/-- The y counterpart of `State.usedX`. -/
def State.usedY (s : State) : Int := s.usedOffY.toInt

/-- The staging pattern: GT_PAT_HI in bits [63:32] (R55, R200). -/
def State.stagedPattern (s : State) : Pattern := s.gtPatHi ++ s.gtPatLo

/-! ### Glyph banks (R77 to R81) -/

/-- The entries of a bank. -/
def State.bank (s : State) (b : Bank) : GlyphBank :=
  match b with
  | .modelA => s.gtA
  | .modelB => s.gtB

/-- The number of valid entries of a bank (R81). -/
def validCount (g : GlyphBank) : Nat := g.countP (fun e => e.2.valid)

/-- Replaces a bank's entries and its count (R81, R200 to R202). -/
def State.setBank (s : State) (b : Bank) (g : GlyphBank) : State :=
  match b with
  | .modelA => { s with gtA := g, gtCountA := BitVec.ofNat 17 (validCount g) }
  | .modelB => { s with gtB := g, gtCountB := BitVec.ofNat 17 (validCount g) }

/-- `lookup(b, P)`: the code of the valid entry that holds the pattern (R78). -/
def lookupPattern (g : GlyphBank) (p : Pattern) : Option Byte :=
  (g.find? (fun e => e.2.valid && e.2.pattern == p)).map (fun e => e.2.code)

/-- `rev(b, c)`: the pattern of the valid entry of lowest index that holds the code (R79). -/
def lookupCode (g : GlyphBank) (c : Byte) : Option Pattern :=
  (g.find? (fun e => e.2.valid && e.2.code == c)).map (fun e => e.2.pattern)

/-- Another valid entry of the bank holds the pattern (R200). -/
def holdsElsewhere (g : GlyphBank) (index : Nat) (p : Pattern) : Bool :=
  g.any (fun e => e.1 != index && e.2.valid && e.2.pattern == p)

/-- Entry `index` with valid = 0, its other fields kept (R201). -/
def invalidateAt (g : GlyphBank) (index : Nat) : GlyphBank :=
  g.map (fun e => if e.1 = index then (e.1, { e.2 with valid := false }) else e)

/-- Every entry with valid = 0, the other fields kept (R92, R202). -/
def invalidateAll (g : GlyphBank) : GlyphBank := g.map (fun e => (e.1, { e.2 with valid := false }))

end Sys2Proof.Machine
end

