-- ==== Sys2Proof/Machine/Flags.lean ====
section
/-! DEFINITION. Every flag: the words of CTRL, STATUS, INT_EN and INT_STATUS (spec/10_state.md R33, R34, R37, R38), the
flags commands set (R329, R353), and the interrupt line (spec/60_exceptions.md R421). -/

namespace Sys2Proof.Machine

/-- A word whose bit k is `b`, the others 0. -/
def flagAt (b : Bool) (k : Nat) : Word := if b then 1 <<< k else 0

/-- CTRL as read: SOFT_RESET reads 0, GT_LOCK in bit 1 (R33). -/
def State.ctrlWord (s : State) : Word := flagAt s.gtLock 1

/-- STATUS as read (R34). -/
def State.statusWord (s : State) : Word :=
  flagAt s.busy 0 ||| flagAt s.partialMatch 1 ||| flagAt s.scaled 2 ||| flagAt s.decPartial 3 |||
    flagAt s.cmdOverrun 5 ||| flagAt s.busyWrite 6

/-- INT_EN as read (R37). -/
def State.intEnWord (s : State) : Word := flagAt s.doneEn 0 ||| flagAt s.errEn 1

/-- INT_STATUS as read (R38). -/
def State.intStatusWord (s : State) : Word := flagAt s.intDone 0 ||| flagAt s.intErr 1

/-- The interrupt output, a function of INT_STATUS and INT_EN (R87, R421). -/
def State.irq (s : State) : Bool := (s.intDone && s.doneEn) || (s.intErr && s.errEn)

/-- The write of INT_EN (R37). -/
def State.setIntEn (s : State) (v : Word) : State := { s with doneEn := v.getLsbD 0, errEn := v.getLsbD 1 }

/-- The write-1-to-clear of STATUS: bits 5 and 6 (R34). -/
def State.clearStatus (s : State) (v : Word) : State :=
  { s with cmdOverrun := s.cmdOverrun && !v.getLsbD 5, busyWrite := s.busyWrite && !v.getLsbD 6 }

/-- The count of unmatched cells and its flag, set from one MATCH alone (R325, R329). -/
def State.setUnmatched (s : State) (n : Nat) : State :=
  { s with unmatchedCnt := BitVec.ofNat 10 n, partialMatch := decide (n ≠ 0) }

/-- The count of codes not found and its flag, set from one CHARS_TO_CELLS alone (R353). -/
def State.setMissed (s : State) (n : Nat) : State :=
  { s with decMissCnt := BitVec.ofNat 10 n, decPartial := decide (n ≠ 0) }

end Sys2Proof.Machine
end

