-- ==== Sys2Proof/Machine/Registers.lean ====
section
/-! DEFINITION. The register map (spec/10_state.md R31 to R60): which register an offset names, what a read gives, and
what a host write does while the engine is IDLE. -/

namespace Sys2Proof.Machine

/-- The registers, in the order of the map (R60). -/
inductive Reg where
  | id
  | version
  | ctrl
  | status
  | cmd
  | errCause
  | intEn
  | intStatus
  | srcW
  | srcH
  | reqOffX
  | reqOffY
  | usedOffX
  | usedOffY
  | effW
  | effH
  | modelSel
  | attrFill
  | placeholder
  | unmatchedCnt
  | decMissCnt
  | inLen
  | result
  | resultPatLo
  | resultPatHi
  | gtPatLo
  | gtPatHi
  | gtCode
  | gtCountA
  | gtCountB
  | param0
  | param1
  deriving DecidableEq, Repr

/-- The registers at offsets 0x000, 0x004, …, 0x07C (R60). -/
def registerMap : List Reg :=
  [.id, .version, .ctrl, .status, .cmd, .errCause, .intEn, .intStatus] ++
    [.srcW, .srcH, .reqOffX, .reqOffY, .usedOffX, .usedOffY, .effW, .effH] ++
    [.modelSel, .attrFill, .placeholder, .unmatchedCnt, .decMissCnt, .inLen, .result, .resultPatLo] ++
    [.resultPatHi, .gtPatLo, .gtPatHi, .gtCode, .gtCountA, .gtCountB, .param0, .param1]

/-- The register at a word offset of the register region; none at a reserved offset (R60, R106). -/
def regAt (off : Nat) : Option Reg := registerMap[off / 4]?

/-- A register's current value; reserved bits read 0 (R31 to R59, R106). -/
def State.readReg (s : State) (r : Reg) : Word :=
  match r with
  | .id => 0x474D5045
  | .version => 0x00010000
  | .ctrl => s.ctrlWord
  | .status => s.statusWord
  | .cmd => s.cmd
  | .errCause => s.errCause.setWidth 32
  | .intEn => s.intEnWord
  | .intStatus => s.intStatusWord
  | .srcW => s.srcW.setWidth 32
  | .srcH => s.srcH.setWidth 32
  | .reqOffX => s.reqOffX
  | .reqOffY => s.reqOffY
  | .usedOffX => s.usedOffX
  | .usedOffY => s.usedOffY
  | .effW => s.effW.setWidth 32
  | .effH => s.effH.setWidth 32
  | .modelSel => BitVec.ofNat 32 s.modelSel.toNat
  | .attrFill => s.attrFill.setWidth 32
  | .placeholder => 0x0000003F
  | .unmatchedCnt => s.unmatchedCnt.setWidth 32
  | .decMissCnt => s.decMissCnt.setWidth 32
  | .inLen => s.inLen.setWidth 32
  | .result => s.result
  | .resultPatLo => s.resultPatLo
  | .resultPatHi => s.resultPatHi
  | .gtPatLo => s.gtPatLo
  | .gtPatHi => s.gtPatHi
  | .gtCode => s.gtCode.setWidth 32
  | .gtCountA => s.gtCountA.setWidth 32
  | .gtCountB => s.gtCountB.setWidth 32
  | .param0 => BitVec.ofNat 32 (s.params.gtEntries % 2 ^ 17)
  | .param1 => BitVec.ofNat 16 s.params.srcMaxH ++ BitVec.ofNat 16 s.params.srcMaxW

/-- A plain RW register: a write stores its live bits (R39 to R44, R47, R48, R52, R55, R56), and while BUSY it is
dropped (R460). -/
def Reg.isPlain : Reg → Bool
  | .srcW | .srcH | .reqOffX | .reqOffY | .usedOffX | .usedOffY | .modelSel | .attrFill | .inLen | .gtPatLo | .gtPatHi
  | .gtCode => true
  | .id | .version | .ctrl | .status | .cmd | .errCause | .intEn | .intStatus | .effW | .effH | .placeholder
  | .unmatchedCnt | .decMissCnt | .result | .resultPatLo | .resultPatHi | .gtCountA | .gtCountB | .param0
  | .param1 => false

/-- The write of a plain RW register; any other register keeps its value (R107). -/
def State.storeReg (s : State) (r : Reg) (v : Word) : State :=
  match r with
  | .srcW => { s with srcW := v.setWidth 16 }
  | .srcH => { s with srcH := v.setWidth 16 }
  | .reqOffX => { s with reqOffX := v }
  | .reqOffY => { s with reqOffY := v }
  | .usedOffX => { s with usedOffX := v }
  | .usedOffY => { s with usedOffY := v }
  | .modelSel => { s with modelSel := Bank.ofBit (v.extractLsb' 0 1).toNat }
  | .attrFill => { s with attrFill := v.setWidth 8 }
  | .inLen => { s with inLen := v.setWidth 16 }
  | .gtPatLo => { s with gtPatLo := v }
  | .gtPatHi => { s with gtPatHi := v }
  | .gtCode => { s with gtCode := v.setWidth 8 }
  | .id | .version | .ctrl | .status | .cmd | .errCause | .intEn | .intStatus | .effW | .effH | .placeholder
  | .unmatchedCnt | .decMissCnt | .result | .resultPatLo | .resultPatHi | .gtCountA | .gtCountB | .param0
  | .param1 => s

end Sys2Proof.Machine
end

