-- ==== Sys2Proof/Machine/Footprint.lean ====
section
/-! DEFINITION. What a command may write: the memory locations of spec/70_reset_and_hazards.md R453 and the registers of
R461. The host reads these as free values while the command runs, and an abort leaves the memories free. -/

namespace Sys2Proof.Machine

/-- The first `bits` bits of memory from byte `base`, most significant bit of each byte first. -/
structure Extent where
  base : Nat
  bits : Nat
  deriving DecidableEq, Repr

/-- The extent as whole bytes. -/
def Extent.bytes (x : Extent) : Nat := (x.bits + 7) / 8

/-- The upper `n` bits of a byte. -/
def upperBits (n : Nat) : Byte := if 8 ≤ n then 0xFF else 0xFF <<< (8 - n)

/-- The bits of the byte at `a` that lie in the extent. -/
def Extent.mask (x : Extent) (a : Nat) : Byte := if a < x.base then 0 else upperBits (x.bits - 8 * (a - x.base))

/-- The memory locations a command may write (R453). BINARIZE's set [0, SRC_W·SRC_H) stays inside CLEAN (log 8). -/
def State.memFootprint (s : State) (i : Instr) : List Extent :=
  let cellpat : Extent := ⟨cellpatBase, 8 * 6144⟩
  let src : Extent := ⟨srcBase, 8 * 196608⟩
  match i with
  | .binarize => [⟨cleanBase, min (s.srcW.toNat * s.srcH.toNat) (8 * cleanBytes s.params)⟩]
  | .matchAll => [cellpat, ⟨rawBase, 8 * 768⟩, ⟨mapBase, 8 * 96⟩]
  | .layoutEnc => [⟨dfBase, 8 * 6912⟩]
  | .layoutDec | .charsToCells => [cellpat]
  | .paint => [src]
  | .encode => [cellpat, ⟨rawBase, 8 * 768⟩, ⟨mapBase, 8 * 96⟩, ⟨dfBase, 8 * 6912⟩]
  | .decodeDf | .decodeRaw => [cellpat, src]
  | .nop | .calibrate | .sample _ _ | .matchCell _ _ | .cellAddr _ _ | .gtWrite _ _ | .gtInval _ _ | .gtClear _
  | .gtLookup _ | .gtReverse _ _ => []

/-- The bits of the byte at `a` that the running command may write. -/
def State.memMask (s : State) (a : Nat) : Byte :=
  match s.running with
  | none => 0
  | some i => (s.memFootprint i).foldl (fun m x => m ||| x.mask a) 0

/-- The count register of a bank (R57). -/
def countReg : Bank → Reg
  | .modelA => .gtCountA
  | .modelB => .gtCountB

/-- The bits of register `r` CALIBRATE writes (R266): the effective size, the used offset and STATUS.SCALED. -/
def calibrationMask (r : Reg) : Word :=
  if r = .effW ∨ r = .effH then 0xFFFF
  else if r = .usedOffX ∨ r = .usedOffY then 0xFFFFFFFF
  else if r = .status then 0x4
  else 0

/-- The bits of register `r` MATCH writes (R325): UNMATCHED_CNT and STATUS.PARTIAL. -/
def matchingMask (r : Reg) : Word := if r = .unmatchedCnt then 0x3FF else if r = .status then 0x2 else 0

/-- The bits of register `r` CHARS_TO_CELLS writes (R353): DEC_MISS_CNT and STATUS.DEC_PARTIAL. -/
def missingMask (r : Reg) : Word := if r = .decMissCnt then 0x3FF else if r = .status then 0x8 else 0

/-- The bits of register `r` PAINT writes (R356): the dimensions. -/
def dimensionMask (r : Reg) : Word := if r = .srcW ∨ r = .srcH then 0xFFFF else 0

/-- The bits of register `r` a query writes: RESULT (R53). -/
def resultMask (r : Reg) : Word := if r = .result then 0xFFFFFFFF else 0

/-- The bits of register `r` a query for a pattern writes: RESULT_PAT (R54). -/
def patternMask (r : Reg) : Word := if r = .resultPatLo ∨ r = .resultPatHi then 0xFFFFFFFF else 0

/-- The bits of register `r` that primitive or sequencing command `i` may write: those listed in the command's rule, its
RESULT and its flags (R461; log 6). -/
def regFootprint (i : Instr) (r : Reg) : Word :=
  match i with
  | .calibrate => calibrationMask r
  | .matchAll => matchingMask r
  | .charsToCells => missingMask r
  | .paint | .decodeDf => dimensionMask r
  | .encode => calibrationMask r ||| matchingMask r
  | .decodeRaw => missingMask r ||| dimensionMask r
  | .sample _ _ | .cellAddr _ _ | .gtLookup _ => resultMask r
  | .matchCell _ _ | .gtReverse _ _ => resultMask r ||| patternMask r
  | .gtWrite b _ | .gtInval b _ | .gtClear b => if r = countReg b then 0x1FFFF else 0
  | .nop | .binarize | .layoutEnc | .layoutDec => 0

/-- The bits of register `r` that the running command may write. -/
def State.regMask (s : State) (r : Reg) : Word :=
  match s.running with
  | none => 0
  | some i => regFootprint i r

end Sys2Proof.Machine
end

