-- ==== Sys2Proof/Machine/Reset.lean ====
section
/-! DEFINITION. Hardware and soft reset (spec/70_reset_and_hazards.md R451 to R453). -/

namespace Sys2Proof.Machine

/-- Every register and the lock at its reset value, every glyph entry invalid, the engine IDLE; the memories, the
instance's parameters and the model's own fields stay (R90, R92, R452). -/
def State.resetRegisters (s : State) : State :=
  { State.reset with
    params := s.params
    gtA := invalidateAll s.gtA
    gtB := invalidateAll s.gtB
    mem := s.mem
    memDraw := s.memDraw
    draws := s.draws
    events := s.events
    responses := s.responses }

/-- Draw `d` written into the bits of one extent, the other bits of its bytes kept (R453, U7). -/
def State.scramble (d : Nat) (s : State) (x : Extent) : State :=
  s.fillBytes x.base x.bytes (fun k =>
    mixBits (x.mask (x.base + k)) (s.byteAt (x.base + k)) (Config.freeByte d (x.base + k)))

/-- A soft reset (R452). A running command is aborted: it never completes, and what it may write holds free values
afterwards (R453; log 8). -/
def State.softReset (s : State) : State :=
  match s.running with
  | none => s.resetRegisters
  | some i =>
    { ((s.memFootprint i).foldl (State.scramble s.draws) s).resetRegisters with draws := s.draws + 1 }

/-- A hardware reset, asserted and released, as one event (R451, R472; log 10): the state of R90 to R92, with memories drawn anew (U4); the
parameters of the instance stay, and the model's own fields go on. -/
def State.hardReset (s : State) : State :=
  { State.reset with
    params := s.params
    memDraw := s.draws
    draws := s.draws + 1
    events := s.events
    responses := s.responses }

end Sys2Proof.Machine
end

