-- ==== Sys2Proof/Machine/Bus.lean ====
section
/-! DEFINITION. The host's accesses (spec/20_memory.md R100 to R115) and what becomes of them while the engine is BUSY
(spec/70_reset_and_hazards.md R460, R461). -/

namespace Sys2Proof.Machine

/-- The number of bytes of an access (R101). -/
def Size.bytes : Size → Nat
  | .byte => 1
  | .half => 2
  | .word => 4

/-- The accesses that get an ERROR response: register-region accesses of size 1 or 2, and misaligned ones (R103,
R104). -/
def accessError (off : Nat) (size : Size) : Bool :=
  off % size.bytes != 0 || (decide (off < 0x10000) && size != .word)

/-- The byte a read sees at an offset: a live byte's value, free in the bits the running command may write (R461, U3);
0 elsewhere (R106). -/
def State.visibleByte (s : State) (off : Nat) : Byte :=
  if liveByte s.params off then mixBits (s.memMask off) (s.byteAt off) (Config.freeByte s.draws off) else 0

/-- The register value a read sees: free in the bits the running command may write (R461, U3); 0 at a reserved offset
(R106). -/
def State.visibleReg (s : State) (off : Nat) : Word :=
  match regAt off with
  | none => 0
  | some r => mixBits (s.regMask r) (s.readReg r) (dataWord 4 (fun k => Config.freeByte s.draws (off + k)))

/-- The data of an OKAY read (R102). -/
def State.readData (s : State) (off : Nat) (size : Size) : Word :=
  if off < 0x10000 then s.visibleReg off else dataWord size.bytes (fun k => s.visibleByte (off + k))

/-- The next draw number for a read whose data may be free; an IDLE read draws nothing (R115). -/
def State.drawIf (s : State) (b : Bool) : State := { s with draws := if b then s.draws + 1 else s.draws }

/-- A host read: it changes no state of the block (R115). An ERROR read gives free data (U5; log 7). -/
def busRead (off : Nat) (size : Size) (s : State) : State :=
  if accessError off size then
    (s.respond (.readError (dataWord size.bytes (fun k => Config.freeByte s.draws (off + k))))).drawIf true
  else (s.respond (.readOkay (s.readData off size))).drawIf s.busy

/-- A host write to a register (R33 to R38, R107, R150, R151, R460). -/
def State.writeReg (s : State) (r : Reg) (v : Word) : State :=
  match r with
  | .ctrl =>
    if v.getLsbD 0 then s.softReset
    else if s.busy then { s with busyWrite := true }
    else { s with gtLock := s.gtLock || v.getLsbD 1 }
  | .status => s.clearStatus v
  | .cmd => if s.busy then { s with cmdOverrun := true } else s.accept v
  | .intEn => s.setIntEn v
  | .intStatus => s.acknowledge v
  | _ => if r.isPlain then (if s.busy then { s with busyWrite := true } else s.storeReg r v) else s

/-- The bytes of a write stored in a window: byte k of the data at off + k (R102). -/
def State.storeBytes (s : State) (off : Nat) (size : Size) (v : Word) : State :=
  (List.range size.bytes).foldl (fun t k => t.putByte (off + k) (dataByte v k)) s

/-- The effect of a write that gets OKAY (R103, R106, R107, R460). While BUSY a write to a writable window's live part is
dropped and noted in STATUS.BUSY_WRITE (log 12). -/
def State.writeData (s : State) (off : Nat) (size : Size) (v : Word) : State :=
  match regionOf s.params off with
  | .registers =>
    match regAt off with
    | none => s
    | some r => s.writeReg r v
  | .cellpat | .raw | .df | .src => if s.busy then { s with busyWrite := true } else s.storeBytes off size v
  | .map | .clean | .reserved => s

/-- A host write and its response (R101, R104). -/
def busWrite (off : Nat) (size : Size) (v : Word) (s : State) : State :=
  if accessError off size then s.respond .writeError else (s.writeData off size v).respond .writeOkay

/-- A host access; an offset outside the block is not decoded (R106; log 11). -/
def busAccess (a : Access) (s : State) : Host.Outcome State Fault Refusal :=
  match a with
  | .read off size => if blockSize ≤ off then .fault (.notDecoded off) else .next (busRead off size s)
  | .write off size v => if blockSize ≤ off then .fault (.notDecoded off) else .next (busWrite off size v s)

end Sys2Proof.Machine
end

