-- ==== Sys2Proof/Machine/Layout.lean ====
section
/-! DEFINITION. The display layout encoder and decoder (spec/41_display_layout.md R230 to R238). -/

namespace Sys2Proof.Machine

/-- CELL_ADDR's check and effect (R234). -/
def cellAddr (row subrow : Nat) (s : State) : Effect :=
  if 24 ≤ row then .error .badArg else .ok { s with result := BitVec.ofNat 32 (cellAddress row subrow) }

/-- The cell row, the pixel row within the cell and the column of character-plane byte `a`: the inverse of the map
(line, subrow, col) ↦ cellAddress(line, subrow) + col, read off the bits of R231. DEDUCED (R231, R232; log 19). -/
def planeCell (a : Nat) : Nat × Nat × Nat := (a / 2048 * 8 + a / 32 % 8, a / 256 % 8, a % 32)

/-- Byte `a` of the DisplayFileImage that LAYOUT_ENC assembles (R235): a cell's row byte in the character plane, the
attribute fill in the attribute plane. -/
def State.imageByte (s : State) (a : Nat) : Byte :=
  if a < 6144 then
    rowByte (s.cellPat ((planeCell a).1 * 32 + (planeCell a).2.2)) (planeCell a).2.1
  else s.attrFill

/-- LAYOUT_ENC's effect: all 6912 bytes of DF (R235). -/
def layoutEnc (s : State) : Effect := .ok (s.fillBytes dfBase 6912 s.imageByte)

/-- The pattern of cell `i` in the character plane: subrow 0 in bits [63:56] (R236). -/
def State.planePattern (s : State) (i : Nat) : Pattern :=
  packRows (fun r => s.dfByte (cellAddress (i / 32) r + i % 32))

/-- LAYOUT_DEC's check and effect: all of CELLPAT (R236, R404). -/
def layoutDec (s : State) : Effect :=
  if s.inLen ≠ 6912 then .error .badInputSize else .ok (s.writeCells s.planePattern)

/-- CELL_ADDR (R234). -/
def execCellAddr (row subrow : Nat) (s : State) : Host.Outcome State Fault Refusal :=
  .next (s.settle (cellAddr row subrow s))

/-- LAYOUT_ENC (R235). -/
def execLayoutEnc (s : State) : Host.Outcome State Fault Refusal := .next (s.settle (layoutEnc s))

/-- LAYOUT_DEC (R236). -/
def execLayoutDec (s : State) : Host.Outcome State Fault Refusal := .next (s.settle (layoutDec s))

end Sys2Proof.Machine
end

