-- ==== Sys2Proof/Machine/Binarizer.lean ====
section
/-! DEFINITION. The binarizer threshold (spec/43_binarizer.md R290 to R293). -/

namespace Sys2Proof.Machine

/-- The comparator: ink (true) unless all three channels are above 127, unsigned (R290). -/
def bin (r g b : Byte) : Bool :=
  !(decide (127 < r.toNat) && decide (127 < g.toNat) && decide (127 < b.toNat))

/-- The bit of source pixel (x, y); alpha is not read (R291, R294). -/
def State.inkAt (s : State) (x y : Nat) : Bool :=
  bin (s.srcPix x y).1 (s.srcPix x y).2.1 (s.srcPix x y).2.2

/-- SAMPLE's checks, in order, and effect (R292). -/
def sample (x y : Nat) (s : State) : Effect :=
  if ¬ s.legalDims then .error .badDimensions
  else if s.srcW.toNat ≤ x ∨ s.srcH.toNat ≤ y then .error .badArg
  else .ok { s with result := if s.inkAt x y then 1 else 0 }

/-- CLEAN byte `m` as BINARIZE leaves it: bit k = y·W + x of the raster's pixels, first pixel in bit 7, and the bits
from W·H on unchanged (R72, R293). -/
def State.cleanByte (s : State) (m : Nat) : Byte :=
  byteMsb (fun j =>
    let k := 8 * m + j
    if k < s.srcW.toNat * s.srcH.toNat then s.inkAt (k % s.srcW.toNat) (k / s.srcW.toNat)
    else (s.byteAt (cleanBase + m)).getLsbD (7 - j))

/-- BINARIZE's check and effect (R293). -/
def binarize (s : State) : Effect :=
  if ¬ s.legalDims then .error .badDimensions
  else .ok (s.fillBytes cleanBase ((s.srcW.toNat * s.srcH.toNat + 7) / 8) s.cleanByte)

/-- SAMPLE (R292). -/
def execSample (x y : Nat) (s : State) : Host.Outcome State Fault Refusal := .next (s.settle (sample x y s))

/-- BINARIZE (R293). -/
def execBinarize (s : State) : Host.Outcome State Fault Refusal := .next (s.settle (binarize s))

end Sys2Proof.Machine
end

