-- ==== Sys2Proof/Machine/Calibration.lean ====
section
/-! DEFINITION. The calibration region extractor (spec/42_calibration.md R260 to R266), in exact integers. -/

namespace Sys2Proof.Machine

/-- `round(n / d)` for d > 0: nearest, ties toward +∞ (R260). Lean's `/` on Int floors for a positive divisor. -/
def roundDiv (n d : Int) : Int := (2 * n + d) / (2 * d)

/-- The scale test, strict in both dimensions (R261). -/
def scaleTest (w h : Nat) : Bool := decide (320 < w) && decide (256 < h)

/-- The effective width (R261). -/
def effectiveWidth (w h : Nat) : Int :=
  if scaleTest w h then (if w % 256 = 0 then 256 else 320) else w

/-- The effective height (R262); where it divides, w > 320. -/
def effectiveHeight (w h : Nat) : Int :=
  if scaleTest w h then roundDiv (h * effectiveWidth w h) w else h

/-- The computed x offset (R263). -/
def centreX (ew : Int) : Int := roundDiv (ew - 256) 2

/-- The computed y offset with the correction (R263, R264). -/
def centreY (ew eh : Int) : Int :=
  if 5 * eh = 4 * ew ∧ eh = 256 then roundDiv (eh - 192) 2 + 1 else roundDiv (eh - 192) 2

/-- One axis' override: a non-negative request wins, every negative one is the auto-sentinel (R265). -/
def overrideOffset (requested : Word) (computed : Int) : Int :=
  if 0 ≤ requested.toInt then requested.toInt else computed

/-- CALIBRATE's effect (R266); it has no error. -/
def calibrate (s : State) : Effect :=
  let w := s.srcW.toNat
  let h := s.srcH.toNat
  let ew := effectiveWidth w h
  let eh := effectiveHeight w h
  .ok { s with
    effW := BitVec.ofInt 16 ew
    effH := BitVec.ofInt 16 eh
    usedOffX := BitVec.ofInt 32 (overrideOffset s.reqOffX (centreX ew))
    usedOffY := BitVec.ofInt 32 (overrideOffset s.reqOffY (centreY ew eh))
    scaled := scaleTest w h }

/-- CALIBRATE (R266). -/
def execCalibrate (s : State) : Host.Outcome State Fault Refusal := .next (s.settle (calibrate s))

end Sys2Proof.Machine
end

