-- ==== Sys2Proof/Machine/GlyphTable.lean ====
section
/-! DEFINITION. The glyph lookup commands (spec/40_glyph_table.md R200 to R204). -/

namespace Sys2Proof.Machine

/-- GT_WRITE's checks, in order, and its effect (R200, R423). -/
def gtWrite (bank : Bank) (index : Nat) (s : State) : Effect :=
  if s.gtLock then .error .gtLocked
  else if s.params.gtEntries ≤ index then .error .badArg
  else if holdsElsewhere (s.bank bank) index s.stagedPattern then .error .gtDuplicate
  else .ok (s.setBank bank (cellsPut (s.bank bank) index ⟨true, s.stagedPattern, s.gtCode⟩))

/-- GT_INVAL's checks and effect (R201). -/
def gtInval (bank : Bank) (index : Nat) (s : State) : Effect :=
  if s.gtLock then .error .gtLocked
  else if s.params.gtEntries ≤ index then .error .badArg
  else .ok (s.setBank bank (invalidateAt (s.bank bank) index))

/-- GT_CLEAR's check and effect (R202). -/
def gtClear (bank : Bank) (s : State) : Effect :=
  if s.gtLock then .error .gtLocked else .ok (s.setBank bank (invalidateAll (s.bank bank)))

/-- A found code: RESULT[8] = 1 and RESULT[7:0] = c (R203, R204, R324). -/
def foundResult (c : Byte) : Word := 0#23 ++ 1#1 ++ c

/-- GT_LOOKUP's effect: RESULT only (R203). -/
def gtLookup (bank : Bank) (s : State) : Effect :=
  match lookupPattern (s.bank bank) s.stagedPattern with
  | some c => .ok { s with result := foundResult c }
  | none => .ok { s with result := 0 }

/-- GT_REVERSE's effect: RESULT and RESULT_PAT (R204). -/
def gtReverse (bank : Bank) (code : Nat) (s : State) : Effect :=
  match lookupCode (s.bank bank) (BitVec.ofNat 8 code) with
  | some p =>
    .ok { s with
      result := foundResult (BitVec.ofNat 8 code)
      resultPatHi := p.extractLsb' 32 32
      resultPatLo := p.extractLsb' 0 32 }
  | none =>
    .ok { s with result := (BitVec.ofNat 8 code).setWidth 32, resultPatHi := 0, resultPatLo := 0 }

/-- GT_WRITE (R200). -/
def execGtWrite (bank : Bank) (index : Nat) (s : State) : Host.Outcome State Fault Refusal :=
  .next (s.settle (gtWrite bank index s))

/-- GT_INVAL (R201). -/
def execGtInval (bank : Bank) (index : Nat) (s : State) : Host.Outcome State Fault Refusal :=
  .next (s.settle (gtInval bank index s))

/-- GT_CLEAR (R202). -/
def execGtClear (bank : Bank) (s : State) : Host.Outcome State Fault Refusal :=
  .next (s.settle (gtClear bank s))

/-- GT_LOOKUP (R203). -/
def execGtLookup (bank : Bank) (s : State) : Host.Outcome State Fault Refusal :=
  .next (s.settle (gtLookup bank s))

/-- GT_REVERSE (R204). -/
def execGtReverse (bank : Bank) (code : Nat) (s : State) : Host.Outcome State Fault Refusal :=
  .next (s.settle (gtReverse bank code s))

end Sys2Proof.Machine
end

