-- ==== Sys2Proof/Machine/Matcher.lean ====
section
/-! DEFINITION. The glyph matcher PE array (spec/44_glyph_matcher.md R320 to R329). -/

namespace Sys2Proof.Machine

/-- `extract(X0, Y0)`: the pattern of the 8×8 block whose top-left source pixel is (x0, y0) (R321). -/
def State.extract (s : State) (x0 y0 : Nat) : Pattern :=
  packRows (fun r => byteMsb (fun c => s.inkAt (x0 + c) (y0 + r)))

/-- `resolve(b, P)`: the code and the unmatched bit; an unmatched cell takes the placeholder 0x3F (R323, R49). -/
def resolve (g : GlyphBank) (p : Pattern) : Byte × Bool :=
  match lookupPattern g p with
  | some c => (c, false)
  | none => (0x3F, true)

/-- windowFits of the used offset (R327). -/
abbrev State.windowFits (s : State) : Prop :=
  0 ≤ s.usedX ∧ 0 ≤ s.usedY ∧ s.usedX + 256 ≤ s.srcW.toNat ∧ s.usedY + 192 ≤ s.srcH.toNat

/-- The pattern PE `i` extracts (R322). The offsets are not negative where MATCH runs (R327). -/
def State.pePattern (s : State) (i : Nat) : Pattern :=
  s.extract (s.usedX.toNat + 8 * (i % 32)) (s.usedY.toNat + 8 * (i / 32))

/-- What PE `i` resolves its pattern to in the active bank (R322, R323). -/
def State.peResolve (s : State) (i : Nat) : Byte × Bool := resolve (s.bank s.modelSel) (s.pePattern i)

/-- The number of unmatched cells (R325). -/
def State.peUnmatched (s : State) : Nat := (List.range 768).countP (fun i => (s.peResolve i).2)

/-- MATCH_CELL's checks, in order, and effect (R324). -/
def matchCell (x y : Nat) (s : State) : Effect :=
  if ¬ s.legalDims then .error .badDimensions
  else if s.srcW.toNat < x + 8 ∨ s.srcH.toNat < y + 8 then .error .badArg
  else
    let p := s.extract x y
    .ok { s with
      resultPatHi := p.extractLsb' 32 32
      resultPatLo := p.extractLsb' 0 32
      result :=
        match lookupPattern (s.bank s.modelSel) p with
        | some c => foundResult c
        | none => 0x0000003F }

/-- MATCH's writes: CELLPAT, RAW and MAP of all cells, the count and the flag, every PE reading the state before
(R325, R326, R76). -/
def matchWrites (s : State) : State :=
  (((s.writeCells s.pePattern).fillBytes rawBase 768 (fun i => (s.peResolve i).1)).fillBytes mapBase 96
    (fun m => byteLsb (fun j => (s.peResolve (8 * m + j)).2))).setUnmatched s.peUnmatched

/-- MATCH's checks, in order, and effect (R325, R327, R328). -/
def matchAll (s : State) : Effect :=
  if ¬ s.legalDims then .error .badDimensions
  else if scaleTest s.srcW.toNat s.srcH.toNat then .error .scaleRequired
  else if ¬ s.windowFits then .error .windowOob
  else .ok (matchWrites s)

/-- MATCH_CELL (R324). -/
def execMatchCell (x y : Nat) (s : State) : Host.Outcome State Fault Refusal := .next (s.settle (matchCell x y s))

/-- MATCH (R325). -/
def execMatch (s : State) : Host.Outcome State Fault Refusal := .next (s.settle (matchAll s))

end Sys2Proof.Machine
end

