-- ==== Sys2Proof/Machine/Codec.lean ====
section
/-! DEFINITION. NOP, the reverse path and the sequencing commands (spec/45_codec_sequences.md R350 to R358). -/

namespace Sys2Proof.Machine

/-- The pattern CHARS_TO_CELLS gives cell `i`: the reverse lookup of its code, the blank cell on a miss (R353, R354). -/
def State.charPattern (s : State) (i : Nat) : Pattern :=
  (lookupCode (s.bank s.modelSel) (s.rawCode i)).getD 0

/-- The number of cells whose code the active bank does not hold (R353). -/
def State.charMisses (s : State) : Nat :=
  (List.range 768).countP (fun i => (lookupCode (s.bank s.modelSel) (s.rawCode i)).isNone)

/-- CHARS_TO_CELLS's check and effect (R353, R404). -/
def charsToCells (s : State) : Effect :=
  if s.inLen ≠ 768 then .error .badInputSize
  else .ok ((s.writeCells s.charPattern).setMissed s.charMisses)

/-- Byte `k` of the painted raster: ink is 00 00 00 FF, paper FF FF FF FF (R355, R356). -/
def State.paintByte (s : State) (k : Nat) : Byte :=
  let x := k / 4 % 256
  let y := k / 4 / 256
  if patternBit (s.cellPat (y / 8 * 32 + x / 8)) (y % 8) (x % 8) then (if k % 4 = 3 then 0xFF else 0x00) else 0xFF

/-- PAINT's effect: the first 196608 bytes of SRC and the two dimensions (R356). -/
def paint (s : State) : Effect :=
  .ok { s.fillBytes srcBase 196608 s.paintByte with srcW := 256, srcH := 192 }

/-- NOP (R350). -/
def execNop (s : State) : Host.Outcome State Fault Refusal := .next (s.settle (.ok s))

/-- CHARS_TO_CELLS (R353). -/
def execCharsToCells (s : State) : Host.Outcome State Fault Refusal := .next (s.settle (charsToCells s))

/-- PAINT (R356). -/
def execPaint (s : State) : Host.Outcome State Fault Refusal := .next (s.settle (paint s))

/-- One step of ENCODE: CALIBRATE, MATCH, LAYOUT_ENC (R351, R352). -/
def execEncode (s : State) : Host.Outcome State Fault Refusal :=
  .next (s.runSequence [calibrate, matchAll, layoutEnc])

/-- One step of DECODE_DF: LAYOUT_DEC, PAINT (R351, R357). -/
def execDecodeDf (s : State) : Host.Outcome State Fault Refusal := .next (s.runSequence [layoutDec, paint])

/-- One step of DECODE_RAW: CHARS_TO_CELLS, PAINT (R351, R358). -/
def execDecodeRaw (s : State) : Host.Outcome State Fault Refusal := .next (s.runSequence [charsToCells, paint])

end Sys2Proof.Machine
end

