-- ==== Sys2Proof/Machine/Dispatch.lean ====
section
/-! DEFINITION. The meaning of each command: one direct call per constructor (spec/30_encoding.md R160). -/

namespace Sys2Proof.Machine

/-- What the engine does with a command in one turn: a whole primitive, or one step of a sequence (R85, R461). -/
def exec (i : Instr) (s : State) : Host.Outcome State Fault Refusal :=
  match i with
  | .nop => Sys2Proof.Machine.execNop s
  | .calibrate => Sys2Proof.Machine.execCalibrate s
  | .binarize => Sys2Proof.Machine.execBinarize s
  | .matchAll => Sys2Proof.Machine.execMatch s
  | .layoutEnc => Sys2Proof.Machine.execLayoutEnc s
  | .layoutDec => Sys2Proof.Machine.execLayoutDec s
  | .charsToCells => Sys2Proof.Machine.execCharsToCells s
  | .paint => Sys2Proof.Machine.execPaint s
  | .encode => Sys2Proof.Machine.execEncode s
  | .decodeDf => Sys2Proof.Machine.execDecodeDf s
  | .decodeRaw => Sys2Proof.Machine.execDecodeRaw s
  | .sample x y => Sys2Proof.Machine.execSample x y s
  | .matchCell x y => Sys2Proof.Machine.execMatchCell x y s
  | .cellAddr row subrow => Sys2Proof.Machine.execCellAddr row subrow s
  | .gtWrite bank index => Sys2Proof.Machine.execGtWrite bank index s
  | .gtInval bank index => Sys2Proof.Machine.execGtInval bank index s
  | .gtClear bank => Sys2Proof.Machine.execGtClear bank s
  | .gtLookup bank => Sys2Proof.Machine.execGtLookup bank s
  | .gtReverse bank code => Sys2Proof.Machine.execGtReverse bank code s

end Sys2Proof.Machine
end

