-- ==== Sys2Proof/Machine/Engine.lean ====
section
/-! DEFINITION. The engine's turn (spec/10_state.md R85, spec/30_encoding.md R164) and the events of the one stream of
spec/20_memory.md R123. -/

namespace Sys2Proof.Machine

/-- The engine's turn, one transition (R461; log 3). An IDLE engine holds all state (R436). A BUSY one performs the
latched command, or one step of it; a word that spells no command completes with ILLEGAL_COMMAND and no other effect
(R161, R162, R164, R401). -/
def engineTurn (s : State) : Host.Outcome State Fault Refusal :=
  if s.busy then
    match decode s.cmd with
    | .ok i => exec i s
    | .error _ => .next (s.complete ErrorCode.illegalCommand.code)
  else .next s

/-- One event (R123, R450, R472). -/
def runEvent (e : Event) (s : State) : Host.Outcome State Fault Refusal :=
  match e with
  | .access a => busAccess a s
  | .engineTurn => engineTurn s
  | .hardwareReset => .next s.hardReset

/-- The machine with the command word `w` accepted: BUSY on the word's first step, and the engine's turn next (log 2). -/
def State.withAccepted (s : State) (w : Word) : State :=
  { s.accept w with events := .engineTurn :: s.events }

end Sys2Proof.Machine
end

