-- ==== Sys2Proof/Machine/Step.lean ====
section
/-! DEFINITION. The step: the next event, or, when none is left, the engine's turn (spec/20_memory.md R123,
spec/70_reset_and_hazards.md R450, R470). -/

namespace Sys2Proof.Machine

/-- One event of the stream; with no event left the engine has its turn, so a BUSY engine completes (R470; log 1). -/
def step (s : State) : Host.Outcome State Fault Refusal :=
  match s.events with
  | [] => engineTurn s
  | e :: rest => runEvent e { s with events := rest }

/-- The state with an instruction's word placed where the next step takes its instruction: in the command latch, with
the engine BUSY and its turn next (log 2). -/
def State.withFetchWord (s : State) (nbits w : Nat) : State := s.withAccepted (BitVec.ofNat 32 (w % 2 ^ nbits))

end Sys2Proof.Machine
end

