-- ==== Sys2Proof/Safety.lean ====
section
/-! DEFINITION. The terms claims are stated in: the invariants of the machine, the bits of the two bit memories, which
bytes no command reads, what an aborted command may have written, and the run of one issued command. -/

namespace Sys2Proof.Machine

/-! ### Invariants -/

/-- The memory is canonical and lists only bytes of the six memories (spec/20_memory.md R105, R106). -/
structure State.MemOk (s : State) : Prop where
  sorted : Memory.wf s.mem
  live : ∀ c ∈ s.mem, liveByte s.params c.1 = true

/-- A bank's list is canonical, its indices exist, and no two valid entries hold the same pattern (spec/10_state.md R77,
R80). -/
structure BankOk (entries : Nat) (g : GlyphBank) : Prop where
  sorted : g.Pairwise (fun e f => e.1 < f.1)
  bound : ∀ e ∈ g, e.1 < entries
  unique : ∀ e ∈ g, ∀ f ∈ g, e.2.valid = true → f.2.valid = true → e.2.pattern = f.2.pattern → e.1 = f.1

/-- Both banks are well formed (R80). -/
def State.BanksOk (s : State) : Prop := ∀ b, BankOk s.params.gtEntries (s.bank b)

/-- The count register of a bank (R57). -/
def State.countOf (s : State) (b : Bank) : BitVec 17 :=
  match b with
  | .modelA => s.gtCountA
  | .modelB => s.gtCountB

/-- GT_COUNT_A and GT_COUNT_B are the numbers of valid entries (R81). -/
def State.CountsOk (s : State) : Prop := ∀ b, (s.countOf b).toNat = validCount (s.bank b)

/-- The partial flags agree with their counts, the counts are at most 768 (R34, R50, R51, R329), and ERR_CAUSE holds a
code of R400. -/
structure State.FlagsOk (s : State) : Prop where
  unmatched : s.partialMatch = true ↔ s.unmatchedCnt ≠ 0
  unmatched_le : s.unmatchedCnt.toNat ≤ 768
  missed : s.decPartial = true ↔ s.decMissCnt ≠ 0
  missed_le : s.decMissCnt.toNat ≤ 768
  cause : s.errCause.toNat ≤ 8

/-- How many primitive steps a command has (spec/45_codec_sequences.md R352, R357, R358). -/
def stepCount : Option Instr → Nat
  | some .encode => 3
  | some .decodeDf | some .decodeRaw => 2
  | _ => 1

/-- The step index names a step of the running command, and is 0 when there is no sequence (R85). -/
def State.EngineOk (s : State) : Prop := s.seqStep < stepCount s.running

/-- Everything above, in an instance whose parameters are in range (spec/00_scope.md R6, R7). -/
structure State.Inv (s : State) : Prop where
  params : s.params.Ok
  mem : s.MemOk
  banks : s.BanksOk
  counts : s.CountsOk
  flags : s.FlagsOk
  engine : s.EngineOk

/-! ### What claims look at -/

/-- MAP[i] (R76). -/
def State.mapBit (s : State) (i : Nat) : Bool := (s.byteAt (mapBase + i / 8)).getLsbD (i % 8)

/-- CLEAN[k] (R72). -/
def State.cleanBit (s : State) (k : Nat) : Bool := (s.byteAt (cleanBase + k / 8)).getLsbD (7 - k % 8)

/-- The offset lies in the `n` bytes from `lo` on. -/
abbrev inRange (lo n a : Nat) : Prop := lo ≤ a ∧ a < lo + n

/-- A byte no command reads: the attribute plane of DF (spec/41_display_layout.md R238) and the alpha bytes of SRC
(spec/43_binarizer.md R291). -/
abbrev unreadByte (a : Nat) : Prop := inRange (dfBase + 6144) 768 a ∨ (srcBase ≤ a ∧ a % 4 = 3)

/-- The two states differ at most in bytes no command reads. -/
structure AgreeOffUnread (s t : State) : Prop where
  registers : { s with mem := [] } = { t with mem := [] }
  bytes : ∀ a, ¬ unreadByte a → s.byteAt a = t.byteAt a

/-- Bit `j` of the byte at `a` is a location the command may write (spec/70_reset_and_hazards.md R453). -/
def mayWriteBit (s : State) (i : Instr) (a j : Nat) : Prop :=
  match i with
  | .binarize => ∃ k, k < s.srcW.toNat * s.srcH.toNat ∧ a = cleanBase + k / 8 ∧ j = 7 - k % 8
  | .matchAll => inRange cellpatBase 6144 a ∨ inRange rawBase 768 a ∨ inRange mapBase 96 a
  | .layoutEnc => inRange dfBase 6912 a
  | .layoutDec | .charsToCells => inRange cellpatBase 6144 a
  | .paint => inRange srcBase 196608 a
  | .encode => inRange cellpatBase 6144 a ∨ inRange rawBase 768 a ∨ inRange mapBase 96 a ∨ inRange dfBase 6912 a
  | .decodeDf | .decodeRaw => inRange cellpatBase 6144 a ∨ inRange srcBase 196608 a
  | .nop | .calibrate | .sample _ _ | .matchCell _ _ | .cellAddr _ _ | .gtWrite _ _ | .gtInval _ _ | .gtClear _
  | .gtLookup _ | .gtReverse _ _ => False

/-- The register at each offset (spec/10_state.md R60). -/
def registerTable : List (Nat × Reg) :=
  [(0x000, .id), (0x004, .version), (0x008, .ctrl), (0x00C, .status), (0x010, .cmd), (0x014, .errCause)] ++
    [(0x018, .intEn), (0x01C, .intStatus), (0x020, .srcW), (0x024, .srcH), (0x028, .reqOffX), (0x02C, .reqOffY)] ++
    [(0x030, .usedOffX), (0x034, .usedOffY), (0x038, .effW), (0x03C, .effH), (0x040, .modelSel), (0x044, .attrFill)] ++
    [(0x048, .placeholder), (0x04C, .unmatchedCnt), (0x050, .decMissCnt), (0x054, .inLen), (0x058, .result)] ++
    [(0x05C, .resultPatLo), (0x060, .resultPatHi), (0x064, .gtPatLo), (0x068, .gtPatHi), (0x06C, .gtCode)] ++
    [(0x070, .gtCountA), (0x074, .gtCountB), (0x078, .param0), (0x07C, .param1)]

/-- The offset lies in the live part of a window, by the numbers of spec/20_memory.md R105. -/
abbrev liveOffset (p : Config.Params) (a : Nat) : Prop :=
  inRange 0x10000 6144 a ∨ inRange 0x20000 768 a ∨ inRange 0x30000 6912 a ∨ inRange 0x40000 96 a ∨
    inRange 0x80000 ((p.srcMaxW * p.srcMaxH + 7) / 8) a ∨ inRange 0x1000000 (4 * (p.srcMaxW * p.srcMaxH)) a

/-- The register bits CALIBRATE writes (spec/42_calibration.md R266). -/
def calibrationBit (r : Reg) (j : Nat) : Prop :=
  ((r = .effW ∨ r = .effH) ∧ j < 16) ∨ r = .usedOffX ∨ r = .usedOffY ∨ (r = .status ∧ j = 2)

/-- The register bits MATCH writes (spec/44_glyph_matcher.md R325). -/
def matchingBit (r : Reg) (j : Nat) : Prop := (r = .unmatchedCnt ∧ j < 10) ∨ (r = .status ∧ j = 1)

/-- The register bits CHARS_TO_CELLS writes (spec/45_codec_sequences.md R353). -/
def missingBit (r : Reg) (j : Nat) : Prop := (r = .decMissCnt ∧ j < 10) ∨ (r = .status ∧ j = 3)

/-- The register bits PAINT writes (spec/45_codec_sequences.md R356). -/
def dimensionBit (r : Reg) (j : Nat) : Prop := (r = .srcW ∨ r = .srcH) ∧ j < 16

/-- Bit `j` of register `r` is one the command may write, before its completion (spec/70_reset_and_hazards.md R461 and
the command's rule). -/
def mayWriteReg (i : Instr) (r : Reg) (j : Nat) : Prop :=
  match i with
  | .calibrate => calibrationBit r j
  | .matchAll => matchingBit r j
  | .charsToCells => missingBit r j
  | .paint | .decodeDf => dimensionBit r j
  | .encode => calibrationBit r j ∨ matchingBit r j
  | .decodeRaw => missingBit r j ∨ dimensionBit r j
  | .sample _ _ | .cellAddr _ _ | .gtLookup _ => r = .result
  | .matchCell _ _ | .gtReverse _ _ => r = .result ∨ r = .resultPatLo ∨ r = .resultPatHi
  | .gtWrite b _ | .gtInval b _ | .gtClear b =>
    ((b = .modelA ∧ r = .gtCountA) ∨ (b = .modelB ∧ r = .gtCountB)) ∧ j < 17
  | .nop | .binarize | .layoutEnc | .layoutDec => False

/-- The event resets the block: a hardware reset, or a word write to CTRL with SOFT_RESET = 1 (R451, R452). -/
def isReset : Event → Bool
  | .hardwareReset => true
  | .access (.write off size v) => off == 0x008 && size == .word && v.getLsbD 0
  | .access (.read _ _) | .engineTurn => false

/-- The host issues the word to an IDLE block and makes no other move until completion: at most three turns of the
engine (spec/30_encoding.md R150, R351). -/
def State.issue (s : State) (w : Word) : Host.Outcome State Fault Refusal := Sys2Proof.core.run 3 (s.accept w)

/-- An IDLE block with no host move pending (R474). -/
abbrev State.ready (s : State) : Prop := s.busy = false ∧ s.events = []

end Sys2Proof.Machine
end

