-- ==== Sys2Proof/Certificates/Slice0/Obligations.lean ====
section
/-! DEFINITION. The statements for the provers. Each docstring names the rule of spec/ it comes from. A completed command
leaves ERR_CAUSE = 0, BUSY = 0, INT_STATUS.DONE = 1 and no step pending; a failed one also sets INT_STATUS.ERR
(spec/60_exceptions.md R410). Fields a record update does not name are unchanged: that is the frame. -/

open Sys2Proof Sys2Proof.Machine

/-! ### Encoding -/

/-- R152 to R160, R164, R165: decoding the word of a well-formed command gives the command back. -/
def Obligations.DecodeOfEncode : Prop := ∀ i : Instr, i.wellFormed = true → decode (encode i) = .ok i

/-- R160, R164: a word that spells a command is the one word of that command, and the command is well-formed. -/
def Obligations.EncodeOfDecode : Prop :=
  ∀ (w : Word) (i : Instr), decode w = .ok i → i.wellFormed = true ∧ encode i = w

/-- R161: an issued word with a reserved opcode spells no command and completes with ILLEGAL_COMMAND (0x01) and no other
effect. -/
def Obligations.ReservedOpcodeIsIllegal : Prop :=
  ∀ (w : Word) (s : State), s.ready →
    ((0x0B ≤ (w.extractLsb' 0 8).toNat ∧ (w.extractLsb' 0 8).toNat ≤ 0x0F) ∨
      (0x13 ≤ (w.extractLsb' 0 8).toNat ∧ (w.extractLsb' 0 8).toNat ≤ 0x1F) ∨ 0x25 ≤ (w.extractLsb' 0 8).toNat) →
    (∀ i, decode w ≠ .ok i) ∧
      s.issue w =
        .next { s with cmd := w, errCause := 0x01, busy := false, intDone := true, intErr := true, seqStep := 0 }

/-- R162: an issued word with a defined opcode and a 1 in a reserved-zero bit of its format spells no command and
completes with ILLEGAL_COMMAND and no other effect. -/
def Obligations.ReservedBitIsIllegal : Prop :=
  ∀ (w : Word) (i : Instr) (s : State), s.ready → w.extractLsb' 0 8 = i.opcode → w &&& i.reservedMask ≠ 0 →
    (∀ j, decode w ≠ .ok j) ∧
      s.issue w =
        .next { s with cmd := w, errCause := 0x01, busy := false, intDone := true, intErr := true, seqStep := 0 }

/-- R160 and spec/95_test_vectors.md §3.1: words written out from the formats decode to their commands. -/
def Obligations.WrittenOutWordsDecode : Prop :=
  decode 0x00000008 = .ok .encode ∧ decode 0x00200310 = .ok (.sample 3 2) ∧
    decode 0x0B80F811 = .ok (.matchCell 248 184) ∧ decode 0x00006912 = .ok (.cellAddr 9 3) ∧
    decode 0x00050020 = .ok (.gtWrite .modelA 5) ∧ decode 0x00030121 = .ok (.gtInval .modelB 3) ∧
    decode 0x00000122 = .ok (.gtClear .modelB) ∧ decode 0x00018024 = .ok (.gtReverse .modelB 0x80)

/-! ### Steps and host accesses -/

/-- R85, R123, R164: when the next event is the engine's turn and the latched word spells a command, the step is that
command's meaning, on the state without the consumed event. The first clause is the model's choice (log 1, DESIGN CHOICE):
with no event left the engine has its turn. -/
def Obligations.StepRunsLatchedCommand : Prop :=
  ∀ (s : State) (i : Instr), s.busy = true → decode s.cmd = .ok i →
    (s.events = [] → step s = exec i s) ∧
      ∀ rest, s.events = .engineTurn :: rest → step s = exec i { s with events := rest }

/-- R150: a host write of w to CMD while IDLE latches w and makes the engine BUSY; ERR_CAUSE, INT_STATUS and every output
stay. -/
def Obligations.CmdWriteIsAccepted : Prop :=
  ∀ (s : State) (w : Word) (rest : List Event), s.busy = false → s.events = .access (.write 0x010 .word w) :: rest →
    step s =
      .next { s with
        cmd := w
        busy := true
        seqStep := 0
        events := rest
        responses := .writeOkay :: s.responses }

/-- R151: a host write to CMD while BUSY is dropped and sets CMD_OVERRUN; the response is OKAY. -/
def Obligations.CmdWriteWhileBusyOverruns : Prop :=
  ∀ (s : State) (w : Word) (rest : List Event), s.busy = true → s.events = .access (.write 0x010 .word w) :: rest →
    step s = .next { s with cmdOverrun := true, events := rest, responses := .writeOkay :: s.responses }

/-- R460: while BUSY, a write to CTRL with bit 0 = 0, to a plain RW register or to the live part of the SRC, CELLPAT, RAW
or DF window is dropped and sets BUSY_WRITE. -/
def Obligations.BusyWriteIsDropped : Prop :=
  ∀ (s : State) (off : Nat) (size : Size) (v : Word) (rest : List Event), s.params.Ok → s.busy = true →
    off % size.bytes = 0 → (off < 0x10000 → size = .word) → s.events = .access (.write off size v) :: rest →
    ((off = 0x008 ∧ v.getLsbD 0 = false) ∨
      off ∈ [0x020, 0x024, 0x028, 0x02C, 0x030, 0x034, 0x040, 0x044, 0x054, 0x064, 0x068, 0x06C] ∨
      inRange 0x10000 6144 off ∨ inRange 0x20000 768 off ∨ inRange 0x30000 6912 off ∨
      (inRange 0x1000000 (4 * (s.params.srcMaxW * s.params.srcMaxH)) off ∧ off < 0x2000000)) →
    step s = .next { s with busyWrite := true, events := rest, responses := .writeOkay :: s.responses }

/-- R60, R106, R107: a write to a read-only register, to MAP, to CLEAN, to a reserved register offset or to a reserved
range is ignored with an OKAY response, BUSY or not; so is, on an IDLE block, a write past the live size of CELLPAT, RAW,
DF or SRC. -/
def Obligations.ReadOnlyWriteIsIgnored : Prop :=
  ∀ (s : State) (off : Nat) (size : Size) (v : Word) (rest : List Event), off % size.bytes = 0 →
    (off < 0x10000 → size = .word) → s.events = .access (.write off size v) :: rest →
    (off ∈ [0x000, 0x004, 0x014, 0x038, 0x03C, 0x048, 0x04C, 0x050, 0x058, 0x05C, 0x060, 0x070, 0x074, 0x078, 0x07C] ∨
      (0x080 ≤ off ∧ off < 0x10000) ∨ inRange 0x40000 0x10000 off ∨ inRange 0x80000 0x80000 off ∨
      (0x50000 ≤ off ∧ off < 0x80000) ∨ (0x100000 ≤ off ∧ off < 0x1000000) ∨
      (s.busy = false ∧
        ((0x10000 + 6144 ≤ off ∧ off < 0x20000) ∨ (0x20000 + 768 ≤ off ∧ off < 0x30000) ∨
          (0x30000 + 6912 ≤ off ∧ off < 0x40000) ∨
          (0x1000000 + 4 * (s.params.srcMaxW * s.params.srcMaxH) ≤ off ∧ off < 0x2000000)))) →
    step s = .next { s with events := rest, responses := .writeOkay :: s.responses }

/-- R104: a register-region access of size 1 or 2, or a misaligned access, gets an ERROR response and changes nothing of
the block. -/
def Obligations.BusErrorHasNoEffect : Prop :=
  ∀ (s : State) (off : Nat) (size : Size) (rest : List Event), off < 0x2000000 →
    ((off < 0x10000 ∧ size ≠ .word) ∨ off % size.bytes ≠ 0) →
    (∀ v, s.events = .access (.write off size v) :: rest →
      step s = .next { s with events := rest, responses := .writeError :: s.responses }) ∧
      (s.events = .access (.read off size) :: rest →
        ∃ d n, step s = .next { s with events := rest, draws := n, responses := .readError d :: s.responses })

/-- R60, R102, R105, R106, R115, R461: an aligned read of the block gets OKAY and changes nothing but the model's draw
counter (which an IDLE read leaves too). An IDLE block gives the register R60 puts at the offset, 0 at a reserved register
offset, and in a window or a reserved range the bytes in little-endian order, each live byte's value and 0 elsewhere. A
BUSY block gives the same in every bit the running command may not write. -/
def Obligations.ReadGivesCurrentValue : Prop :=
  ∀ (s : State) (off : Nat) (size : Size) (rest : List Event), off < 0x2000000 → off % size.bytes = 0 →
    (off < 0x10000 → size = .word) → s.events = .access (.read off size) :: rest →
    ∃ (d : Word) (n : Nat),
      step s = .next { s with events := rest, draws := n, responses := .readOkay d :: s.responses } ∧
      (0x080 ≤ off → off < 0x10000 → d = 0) ∧
      (s.busy = false →
        n = s.draws ∧ (∀ r, (off, r) ∈ registerTable → d = s.readReg r) ∧
          (0x10000 ≤ off → ∀ k < 4, d.extractLsb' (8 * k) 8 =
            if k < size.bytes ∧ liveOffset s.params (off + k) then s.byteAt (off + k) else 0)) ∧
      (∀ r, (off, r) ∈ registerTable → ∀ j < 32, (∀ i, s.running = some i → ¬ mayWriteReg i r j) →
        d.getLsbD j = (s.readReg r).getLsbD j) ∧
      (0x10000 ≤ off → ∀ k < 4, ∀ j < 8, (∀ i, s.running = some i → ¬ mayWriteBit s i (off + k) j) →
        (d.extractLsb' (8 * k) 8).getLsbD j =
          (decide (k < size.bytes ∧ liveOffset s.params (off + k)) && (s.byteAt (off + k)).getLsbD j))

/-- R102, R105, R115: an aligned write to a writable window's live part while IDLE stores the data's bytes in
little-endian order and leaves every other byte and all else. -/
def Obligations.IdleWindowWriteIsLittleEndian : Prop :=
  ∀ (s : State) (off : Nat) (size : Size) (v : Word) (rest : List Event), s.params.Ok → s.busy = false →
    off % size.bytes = 0 → off < 0x2000000 →
    (inRange cellpatBase 6144 off ∨ inRange rawBase 768 off ∨ inRange dfBase 6912 off ∨
      inRange srcBase (4 * (s.params.srcMaxW * s.params.srcMaxH)) off) →
    s.events = .access (.write off size v) :: rest →
    ∃ t, step s = .next t ∧
      t = { s with mem := t.mem, events := rest, responses := .writeOkay :: s.responses } ∧
      ∀ a, t.byteAt a = if inRange off size.bytes a then v.extractLsb' (8 * (a - off)) 8 else s.byteAt a

/-- R37, R39 to R44, R47, R48, R52, R55, R56, R60, R106: an IDLE write to a plain RW register, at its offset, is read back
in its live bits, the reserved bits read 0, and every other register, every byte of memory and all else stay. R37, R460: a
write to INT_EN sets DONE_EN and ERR_EN and nothing else, BUSY or not. -/
def Obligations.RegisterWriteReadsBack : Prop :=
  (∀ (s : State) (off : Nat) (r : Reg) (mask v : Word) (rest : List Event), s.busy = false →
    (off, r, mask) ∈ ([(0x020, .srcW, 0xFFFF), (0x024, .srcH, 0xFFFF), (0x028, .reqOffX, 0xFFFFFFFF),
      (0x02C, .reqOffY, 0xFFFFFFFF), (0x030, .usedOffX, 0xFFFFFFFF), (0x034, .usedOffY, 0xFFFFFFFF), (0x040, .modelSel, 1),
      (0x044, .attrFill, 0xFF), (0x054, .inLen, 0xFFFF), (0x064, .gtPatLo, 0xFFFFFFFF), (0x068, .gtPatHi, 0xFFFFFFFF),
      (0x06C, .gtCode, 0xFF)] : List (Nat × Reg × Word)) →
    s.events = .access (.write off .word v) :: rest →
    ∃ t, step s = .next t ∧ t.readReg r = v &&& mask ∧ (∀ q, q ≠ r → t.readReg q = s.readReg q) ∧
      (∀ a, t.byteAt a = s.byteAt a) ∧
      t = { s with
        srcW := t.srcW
        srcH := t.srcH
        reqOffX := t.reqOffX
        reqOffY := t.reqOffY
        usedOffX := t.usedOffX
        usedOffY := t.usedOffY
        modelSel := t.modelSel
        attrFill := t.attrFill
        inLen := t.inLen
        gtPatLo := t.gtPatLo
        gtPatHi := t.gtPatHi
        gtCode := t.gtCode
        events := rest
        responses := .writeOkay :: s.responses }) ∧
    ∀ (s : State) (v : Word) (rest : List Event), s.events = .access (.write 0x018 .word v) :: rest →
      step s = .next { s with
        doneEn := v.getLsbD 0
        errEn := v.getLsbD 1
        events := rest
        responses := .writeOkay :: s.responses }

/-- R422 (with R421): a word write to INT_STATUS clears the bits written with 1 and leaves the others, BUSY or not, and
irq follows. R34, R460: a word write to STATUS clears CMD_OVERRUN (bit 5) and BUSY_WRITE (bit 6) where written with 1 and
nothing else, BUSY or not. R33, R34, R37, R38: the bits of CTRL, STATUS, INT_EN and INT_STATUS as read; any other bit
reads 0. -/
def Obligations.AcknowledgeClearsWrittenBits : Prop :=
  (∀ (s : State) (v : Word) (rest : List Event), s.events = .access (.write 0x01C .word v) :: rest →
    ∃ t, step s = .next t ∧
      t = { s with
        intDone := s.intDone && !v.getLsbD 0
        intErr := s.intErr && !v.getLsbD 1
        events := rest
        responses := .writeOkay :: s.responses } ∧
      (t.irq = true ↔
        (s.intDone = true ∧ v.getLsbD 0 = false ∧ s.doneEn = true) ∨
          (s.intErr = true ∧ v.getLsbD 1 = false ∧ s.errEn = true))) ∧
    (∀ (s : State) (v : Word) (rest : List Event), s.events = .access (.write 0x00C .word v) :: rest →
      step s = .next { s with
        cmdOverrun := s.cmdOverrun && !v.getLsbD 5
        busyWrite := s.busyWrite && !v.getLsbD 6
        events := rest
        responses := .writeOkay :: s.responses }) ∧
    ∀ (s : State) (j : Nat), j < 32 →
      (s.readReg .ctrl).getLsbD j = (if j = 1 then s.gtLock else false) ∧
        (s.readReg .status).getLsbD j =
          (if j = 0 then s.busy else if j = 1 then s.partialMatch else if j = 2 then s.scaled
          else if j = 3 then s.decPartial else if j = 5 then s.cmdOverrun else if j = 6 then s.busyWrite else false) ∧
        (s.readReg .intEn).getLsbD j = (if j = 0 then s.doneEn else if j = 1 then s.errEn else false) ∧
        (s.readReg .intStatus).getLsbD j = (if j = 0 then s.intDone else if j = 1 then s.intErr else false)

/-! ### Reset -/

/-- R60, R90, R92: after a hardware reset every register of R60 reads its reset value, the engine is IDLE, irq is 0 and every
glyph entry is invalid. -/
def Obligations.HardResetValues : Prop :=
  ∀ (s : State) (rest : List Event), s.events = .hardwareReset :: rest →
    ∃ t, step s = .next t ∧ t.busy = false ∧ t.gtLock = false ∧ t.irq = false ∧ t.params = s.params ∧
      (∀ q ∈ registerTable,
        t.readReg q.2 =
          if q.1 = 0x000 then 0x474D5045
          else if q.1 = 0x004 then 0x00010000
          else if q.1 = 0x028 ∨ q.1 = 0x02C then 0xFFFFFFFF
          else if q.1 = 0x044 then 0x38
          else if q.1 = 0x048 then 0x3F
          else if q.1 = 0x078 then BitVec.ofNat 32 (s.params.gtEntries % 2 ^ 17)
          else if q.1 = 0x07C then BitVec.ofNat 16 s.params.srcMaxH ++ BitVec.ofNat 16 s.params.srcMaxW
          else 0) ∧
      ∀ b, ∀ e ∈ t.bank b, e.2.valid = false

/-- R452, R453: a word write to CTRL with SOFT_RESET = 1, BUSY or not, gives every register its reset value and the lock 0
whatever bit 1 is, makes every glyph entry invalid, aborts a running command without a completion, and keeps every bit of
memory the aborted command may not write. -/
def Obligations.SoftResetState : Prop :=
  ∀ (s : State) (v : Word) (rest : List Event), v.getLsbD 0 = true →
    s.events = .access (.write 0x008 .word v) :: rest →
    ∃ t, step s = .next t ∧
      (∀ r, t.readReg r = { State.reset with params := s.params }.readReg r) ∧ t.gtLock = false ∧ t.busy = false ∧
      t.seqStep = 0 ∧ t.intDone = false ∧ t.intErr = false ∧ (∀ b, ∀ e ∈ t.bank b, e.2.valid = false) ∧
      (∀ a j, j < 8 → (∀ i, s.running = some i → ¬ mayWriteBit s i a j) →
        (t.byteAt a).getLsbD j = (s.byteAt a).getLsbD j) ∧
      t.params = s.params ∧ t.events = rest ∧ t.responses = .writeOkay :: s.responses

/-! ### What each command does -/

/-- R350: NOP completes with ERR_CAUSE 0 and nothing else. -/
def Obligations.NopOnlyCompletes : Prop :=
  ∀ s : State, exec .nop s = .next { s with errCause := 0, busy := false, intDone := true, seqStep := 0 }

/-- R234, R231, R402: for row < 24, CELL_ADDR writes RESULT with (row div 8)·2048 + subrow·256 + (row mod 8)·32; for
row ≥ 24 it completes with BAD_ARG (0x02) and no other effect. -/
def Obligations.CellAddrResult : Prop :=
  ∀ (s : State) (row subrow : Nat), subrow < 8 →
    (row < 24 →
      exec (.cellAddr row subrow) s =
        .next { s with
          result := BitVec.ofNat 32 (row / 8 * 2048 + subrow * 256 + row % 8 * 32)
          errCause := 0
          busy := false
          intDone := true
          seqStep := 0 }) ∧
      (24 ≤ row →
        exec (.cellAddr row subrow) s =
          .next { s with errCause := 0x02, busy := false, intDone := true, intErr := true, seqStep := 0 })

/-- R402, R407, R408, R423: the glyph bank writes check the lock first (GT_LOCKED, 0x07), then the index (BAD_ARG, 0x02),
then, for GT_WRITE, a duplicate pattern at another index (GT_DUPLICATE, 0x08), and have no other effect on an error. -/
def Obligations.GlyphBankChecks : Prop :=
  ∀ (s : State) (b : Bank) (index : Nat),
    (s.gtLock = true → ∀ i ∈ [Instr.gtWrite b index, .gtInval b index, .gtClear b],
      exec i s = .next { s with errCause := 0x07, busy := false, intDone := true, intErr := true, seqStep := 0 }) ∧
    (s.gtLock = false → s.params.gtEntries ≤ index → ∀ i ∈ [Instr.gtWrite b index, .gtInval b index],
      exec i s = .next { s with errCause := 0x02, busy := false, intDone := true, intErr := true, seqStep := 0 }) ∧
    (s.gtLock = false → index < s.params.gtEntries →
      (∃ e ∈ s.bank b, e.1 ≠ index ∧ e.2.valid = true ∧ e.2.pattern = s.gtPatHi ++ s.gtPatLo) →
      exec (.gtWrite b index) s =
        .next { s with errCause := 0x08, busy := false, intDone := true, intErr := true, seqStep := 0 })

/-- R200, R81: GT_WRITE of an unlocked bank at an index in range, with no other valid entry of the bank holding the staged
pattern, stores {1, P, c} at the index, leaves every other entry and the other bank, and sets the bank's count. -/
def Obligations.GtWriteStoresEntry : Prop :=
  ∀ (s : State) (b : Bank) (index : Nat), s.params.Ok → s.BanksOk → s.gtLock = false → index < s.params.gtEntries →
    (∀ e ∈ s.bank b, e.2.valid = true → e.2.pattern = s.gtPatHi ++ s.gtPatLo → e.1 = index) →
    ∃ t, exec (.gtWrite b index) s = .next t ∧
      t = { s with
        gtA := t.gtA
        gtB := t.gtB
        gtCountA := t.gtCountA
        gtCountB := t.gtCountB
        errCause := 0
        busy := false
        intDone := true
        seqStep := 0 } ∧
      (t.bank b).lookup index = some ⟨true, s.gtPatHi ++ s.gtPatLo, s.gtCode⟩ ∧
      (∀ j, j ≠ index → (t.bank b).lookup j = (s.bank b).lookup j) ∧
      (t.countOf b).toNat = validCount (t.bank b) ∧
      ∀ c, c ≠ b → t.bank c = s.bank c ∧ t.countOf c = s.countOf c

/-- R201, R202, R81: on an unlocked bank, GT_INVAL at an index in range makes that entry invalid and GT_CLEAR every entry;
every other entry and the other bank stay, and the count is the number of valid entries left. -/
def Obligations.GtInvalAndClearInvalidate : Prop :=
  ∀ (s : State) (b : Bank) (index : Nat), s.params.Ok → s.BanksOk → s.gtLock = false →
    (index < s.params.gtEntries →
      ∃ t, exec (.gtInval b index) s = .next t ∧
        t = { s with
          gtA := t.gtA
          gtB := t.gtB
          gtCountA := t.gtCountA
          gtCountB := t.gtCountB
          errCause := 0
          busy := false
          intDone := true
          seqStep := 0 } ∧
        (∀ e, (t.bank b).lookup index = some e → e.valid = false) ∧
        (∀ j, j ≠ index → (t.bank b).lookup j = (s.bank b).lookup j) ∧
        (t.countOf b).toNat = validCount (t.bank b) ∧
        ∀ c, c ≠ b → t.bank c = s.bank c ∧ t.countOf c = s.countOf c) ∧
      ∃ t, exec (.gtClear b) s = .next t ∧
        t = { s with
          gtA := t.gtA
          gtB := t.gtB
          gtCountA := t.gtCountA
          gtCountB := t.gtCountB
          errCause := 0
          busy := false
          intDone := true
          seqStep := 0 } ∧
        (∀ e ∈ t.bank b, e.2.valid = false) ∧ t.countOf b = 0 ∧
        ∀ c, c ≠ b → t.bank c = s.bank c ∧ t.countOf c = s.countOf c

/-- R78: the forward lookup finds a code exactly when a valid entry holds the pattern with that code. -/
def Obligations.ForwardLookupFindsTheEntry : Prop :=
  ∀ (entries : Nat) (g : GlyphBank) (p : Pattern) (c : Byte), BankOk entries g →
    (lookupPattern g p = some c ↔ ∃ e ∈ g, e.2.valid = true ∧ e.2.pattern = p ∧ e.2.code = c)

/-- R79: the reverse lookup finds the pattern of the valid entry of lowest index with the code, and nothing exactly when
no valid entry has it. -/
def Obligations.ReverseLookupFindsTheLowestIndex : Prop :=
  ∀ (entries : Nat) (g : GlyphBank) (c : Byte), BankOk entries g →
    (∀ p, lookupCode g c = some p ↔
      ∃ e ∈ g, e.2.valid = true ∧ e.2.code = c ∧ e.2.pattern = p ∧
        ∀ f ∈ g, f.2.valid = true → f.2.code = c → e.1 ≤ f.1) ∧
      (lookupCode g c = none ↔ ∀ e ∈ g, e.2.valid = true → e.2.code ≠ c)

/-- R203, R204: GT_LOOKUP gives RESULT = 0x100 + code on a hit and 0 on a miss; GT_REVERSE gives RESULT = 0x100 + code and
the pattern on a hit, the code and pattern 0 on a miss; neither changes anything else, locked or not. -/
def Obligations.LookupCommandResults : Prop :=
  ∀ (s : State) (b : Bank) (code : Nat), code < 256 →
    exec (.gtLookup b) s =
        .next { s with
          result :=
            match lookupPattern (s.bank b) (s.gtPatHi ++ s.gtPatLo) with
            | some c => BitVec.ofNat 32 (0x100 + c.toNat)
            | none => 0
          errCause := 0
          busy := false
          intDone := true
          seqStep := 0 } ∧
      ∃ t, exec (.gtReverse b code) s = .next t ∧
        t = { s with
          result := t.result
          resultPatHi := t.resultPatHi
          resultPatLo := t.resultPatLo
          errCause := 0
          busy := false
          intDone := true
          seqStep := 0 } ∧
        match lookupCode (s.bank b) (BitVec.ofNat 8 code) with
        | some p => t.result.toNat = 0x100 + code ∧ t.resultPatHi ++ t.resultPatLo = p
        | none => t.result.toNat = code ∧ t.resultPatHi = 0 ∧ t.resultPatLo = 0

/-- R205: after a GT_WRITE that succeeds with pattern P and code c, the bank finds c for P, and the pattern it finds for c
is found as c again. -/
def Obligations.ReverseThenForwardReturnsTheCode : Prop :=
  ∀ (s : State) (b : Bank) (index : Nat), s.BanksOk → s.gtLock = false → index < s.params.gtEntries →
    (∀ e ∈ s.bank b, e.2.valid = true → e.2.pattern = s.gtPatHi ++ s.gtPatLo → e.1 = index) →
    ∃ t, exec (.gtWrite b index) s = .next t ∧ lookupPattern (t.bank b) (s.gtPatHi ++ s.gtPatLo) = some s.gtCode ∧
      ∃ p, lookupCode (t.bank b) s.gtCode = some p ∧ lookupPattern (t.bank b) p = some s.gtCode

/-- R290, R292: with legal dimensions and the pixel inside the raster, SAMPLE writes RESULT with 0 when all three channels
are above 127 and 1 otherwise. -/
def Obligations.SampleResult : Prop :=
  ∀ (s : State) (x y : Nat), s.legalDims → x < s.srcW.toNat → y < s.srcH.toNat →
    exec (.sample x y) s =
      .next { s with
        result :=
          if 127 < (s.byteAt (srcBase + 4 * (y * s.srcW.toNat + x))).toNat ∧
              127 < (s.byteAt (srcBase + 4 * (y * s.srcW.toNat + x) + 1)).toNat ∧
              127 < (s.byteAt (srcBase + 4 * (y * s.srcW.toNat + x) + 2)).toNat
          then 0 else 1
        errCause := 0
        busy := false
        intDone := true
        seqStep := 0 }

/-- R402, R403, R423: SAMPLE and MATCH_CELL check BAD_DIMENSIONS first, then BAD_ARG for a pixel or an 8×8 block outside
the raster; nothing else changes. -/
def Obligations.PixelCommandChecks : Prop :=
  ∀ (s : State) (x y : Nat),
    (¬ s.legalDims →
      exec (.sample x y) s =
          .next { s with errCause := 0x03, busy := false, intDone := true, intErr := true, seqStep := 0 } ∧
        exec (.matchCell x y) s =
          .next { s with errCause := 0x03, busy := false, intDone := true, intErr := true, seqStep := 0 }) ∧
    (s.legalDims →
      (s.srcW.toNat ≤ x ∨ s.srcH.toNat ≤ y → exec (.sample x y) s =
        .next { s with errCause := 0x02, busy := false, intDone := true, intErr := true, seqStep := 0 }) ∧
      (s.srcW.toNat < x + 8 ∨ s.srcH.toNat < y + 8 → exec (.matchCell x y) s =
        .next { s with errCause := 0x02, busy := false, intDone := true, intErr := true, seqStep := 0 }))

/-- R293, R72: with legal dimensions BINARIZE writes CLEAN bit y·W + x with the bit of pixel (x, y) for every pixel of the
raster, leaves every other bit of memory, and writes nothing else. -/
def Obligations.BinarizeResult : Prop :=
  ∀ s : State, s.legalDims →
    ∃ t, exec .binarize s = .next t ∧
      t = { s with mem := t.mem, errCause := 0, busy := false, intDone := true, seqStep := 0 } ∧
      (∀ x y, x < s.srcW.toNat → y < s.srcH.toNat → t.cleanBit (y * s.srcW.toNat + x) = s.inkAt x y) ∧
      (∀ k, s.srcW.toNat * s.srcH.toNat ≤ k → t.cleanBit k = s.cleanBit k) ∧
      ∀ a, ¬ inRange cleanBase ((s.srcW.toNat * s.srcH.toNat + 7) / 8) a → t.byteAt a = s.byteAt a

/-- R403, R405, R406, R423: BINARIZE and MATCH complete with BAD_DIMENSIONS when the dimensions are illegal, and MATCH with
SCALE_REQUIRED or WINDOW_OOB, in that order, with no other effect. -/
def Obligations.RasterCommandChecks : Prop :=
  ∀ s : State,
    (¬ s.legalDims →
      exec .binarize s =
          .next { s with errCause := 0x03, busy := false, intDone := true, intErr := true, seqStep := 0 } ∧
        exec .matchAll s =
          .next { s with errCause := 0x03, busy := false, intDone := true, intErr := true, seqStep := 0 }) ∧
    (s.legalDims → 320 < s.srcW.toNat → 256 < s.srcH.toNat → exec .matchAll s =
      .next { s with errCause := 0x05, busy := false, intDone := true, intErr := true, seqStep := 0 }) ∧
    (s.legalDims → ¬ (320 < s.srcW.toNat ∧ 256 < s.srcH.toNat) →
      (s.usedOffX.toInt < 0 ∨ s.usedOffY.toInt < 0 ∨ (s.srcW.toNat : Int) < s.usedOffX.toInt + 256 ∨
        (s.srcH.toNat : Int) < s.usedOffY.toInt + 192) →
      exec .matchAll s =
        .next { s with errCause := 0x06, busy := false, intDone := true, intErr := true, seqStep := 0 })

/-- R321, R324: with legal dimensions and the block inside the raster, MATCH_CELL writes RESULT_PAT with the block's
pattern and RESULT with 0x100 + code when the active bank holds it, 0x3F otherwise. -/
def Obligations.MatchCellResult : Prop :=
  ∀ (s : State) (x y : Nat), s.legalDims → x + 8 ≤ s.srcW.toNat → y + 8 ≤ s.srcH.toNat →
    ∃ p : Pattern, (∀ r c, r < 8 → c < 8 → p.getLsbD (63 - (8 * r + c)) = s.inkAt (x + c) (y + r)) ∧
      exec (.matchCell x y) s =
        .next { s with
          resultPatHi := p.extractLsb' 32 32
          resultPatLo := p.extractLsb' 0 32
          result :=
            match lookupPattern (s.bank s.modelSel) p with
            | some c => BitVec.ofNat 32 (0x100 + c.toNat)
            | none => 0x0000003F
          errCause := 0
          busy := false
          intDone := true
          seqStep := 0 }

/-- R320 to R323, R325, R329: where MATCH's checks pass, every CELLPAT entry is the pattern of its cell of the window, every
RAW entry its code or the placeholder, every MAP bit 1 exactly where the active bank lacks the pattern, UNMATCHED_CNT the
number of such cells and PARTIAL whether there is one; no other byte or register changes. -/
def Obligations.MatchResult : Prop :=
  ∀ s : State, s.legalDims → ¬ (320 < s.srcW.toNat ∧ 256 < s.srcH.toNat) → s.windowFits →
    ∃ t, exec .matchAll s = .next t ∧
      t = { s with
        mem := t.mem
        unmatchedCnt := t.unmatchedCnt
        partialMatch := t.partialMatch
        errCause := 0
        busy := false
        intDone := true
        seqStep := 0 } ∧
      (∀ i r c, i < 768 → r < 8 → c < 8 →
        patternBit (t.cellPat i) r c =
          s.inkAt (s.usedOffX.toInt.toNat + 8 * (i % 32) + c) (s.usedOffY.toInt.toNat + 8 * (i / 32) + r)) ∧
      (∀ i, i < 768 →
        match lookupPattern (s.bank s.modelSel) (t.cellPat i) with
        | some c => t.rawCode i = c ∧ t.mapBit i = false
        | none => t.rawCode i = 0x3F ∧ t.mapBit i = true) ∧
      t.unmatchedCnt.toNat = (List.range 768).countP (fun i => t.mapBit i) ∧
      (t.partialMatch = true ↔ t.unmatchedCnt ≠ 0) ∧
      ∀ a, ¬ inRange cellpatBase 6144 a → ¬ inRange rawBase 768 a → ¬ inRange mapBase 96 a → t.byteAt a = s.byteAt a

/-- R235, R233: LAYOUT_ENC writes byte cellAddress(line, r) + col of DF with row byte r of cell line·32 + col, every
attribute byte with ATTR_FILL, and nothing else. -/
def Obligations.LayoutEncResult : Prop :=
  ∀ s : State,
    ∃ t, exec .layoutEnc s = .next t ∧
      t = { s with mem := t.mem, errCause := 0, busy := false, intDone := true, seqStep := 0 } ∧
      (∀ line r col, line < 24 → r < 8 → col < 32 →
        t.dfByte (cellAddress line r + col) = s.byteAt (cellpatBase + 8 * (line * 32 + col) + r)) ∧
      (∀ j, j < 768 → t.dfByte (6144 + j) = s.attrFill) ∧
      ∀ a, ¬ inRange dfBase 6912 a → t.byteAt a = s.byteAt a

/-- R236, R404: with IN_LEN = 6912 LAYOUT_DEC writes row byte r of cell line·32 + col with byte cellAddress(line, r) + col of
DF and nothing else; with any other IN_LEN it completes with BAD_INPUT_SIZE and nothing else. -/
def Obligations.LayoutDecResult : Prop :=
  ∀ s : State,
    (s.inLen = 6912 →
      ∃ t, exec .layoutDec s = .next t ∧
        t = { s with mem := t.mem, errCause := 0, busy := false, intDone := true, seqStep := 0 } ∧
        (∀ line r col, line < 24 → r < 8 → col < 32 →
          t.byteAt (cellpatBase + 8 * (line * 32 + col) + r) = s.dfByte (cellAddress line r + col)) ∧
        ∀ a, ¬ inRange cellpatBase 6144 a → t.byteAt a = s.byteAt a) ∧
      (s.inLen ≠ 6912 → exec .layoutDec s =
        .next { s with errCause := 0x04, busy := false, intDone := true, intErr := true, seqStep := 0 })

/-- R353, R354, R404: with IN_LEN = 768 CHARS_TO_CELLS gives every cell the pattern its code finds in the active bank, the
blank cell on a miss, counts the misses and sets DEC_PARTIAL from the count; with any other IN_LEN it completes with
BAD_INPUT_SIZE and nothing else. -/
def Obligations.CharsToCellsResult : Prop :=
  ∀ s : State,
    (s.inLen = 768 →
      ∃ t, exec .charsToCells s = .next t ∧
        t = { s with
          mem := t.mem
          decMissCnt := t.decMissCnt
          decPartial := t.decPartial
          errCause := 0
          busy := false
          intDone := true
          seqStep := 0 } ∧
        (∀ i, i < 768 → t.cellPat i = (lookupCode (s.bank s.modelSel) (s.byteAt (rawBase + i))).getD 0) ∧
        t.decMissCnt.toNat =
          (List.range 768).countP (fun i => (lookupCode (s.bank s.modelSel) (s.byteAt (rawBase + i))).isNone) ∧
        (t.decPartial = true ↔ t.decMissCnt ≠ 0) ∧
        ∀ a, ¬ inRange cellpatBase 6144 a → t.byteAt a = s.byteAt a) ∧
      (s.inLen ≠ 768 → exec .charsToCells s =
        .next { s with errCause := 0x04, busy := false, intDone := true, intErr := true, seqStep := 0 })

/-- R355, R356: PAINT writes each pixel of a 256×192 raster as 00 00 00 FF where its cell's pattern has ink and FF FF FF FF
where it has paper, sets SRC_W = 256 and SRC_H = 192, and leaves every other byte and register. -/
def Obligations.PaintResult : Prop :=
  ∀ s : State,
    ∃ t, exec .paint s = .next t ∧
      t = { s with
        mem := t.mem
        srcW := 256
        srcH := 192
        errCause := 0
        busy := false
        intDone := true
        seqStep := 0 } ∧
      (∀ x y ch, x < 256 → y < 192 → ch < 4 →
        t.byteAt (srcBase + 4 * (y * 256 + x) + ch) =
          if (s.cellPat (y / 8 * 32 + x / 8)).getLsbD (63 - (8 * (y % 8) + x % 8)) = true ∧ ch ≠ 3
          then 0x00 else 0xFF) ∧
      ∀ a, ¬ inRange srcBase 196608 a → t.byteAt a = s.byteAt a

/-- R260: round(n / d) is the nearest integer to n/d, a tie going toward +∞. -/
def Obligations.RoundIsNearestTiesUp : Prop :=
  ∀ n d : Int, 0 < d → 2 * n - d < 2 * d * roundDiv n d ∧ 2 * d * roundDiv n d ≤ 2 * n + d

/-- R261 to R266: CALIBRATE writes EFF_W, EFF_H, USED_OFF_X, USED_OFF_Y and STATUS.SCALED with the scale test, the effective
size, the centring, the correction and the override, and nothing else. -/
def Obligations.CalibrateResult : Prop :=
  ∀ (s : State) (ew eh cx cy : Int),
    (ew = if 320 < s.srcW.toNat ∧ 256 < s.srcH.toNat then (if s.srcW.toNat % 256 = 0 then 256 else 320)
      else (s.srcW.toNat : Int)) →
    (eh = if 320 < s.srcW.toNat ∧ 256 < s.srcH.toNat then
        (2 * (s.srcH.toNat * ew) + s.srcW.toNat) / (2 * s.srcW.toNat) else (s.srcH.toNat : Int)) →
    (cx = (2 * (ew - 256) + 2) / 4) →
    (cy = if ew = 320 ∧ eh = 256 then (2 * (eh - 192) + 2) / 4 + 1 else (2 * (eh - 192) + 2) / 4) →
    ∃ t, exec .calibrate s = .next t ∧
      t = { s with
        effW := t.effW
        effH := t.effH
        usedOffX := t.usedOffX
        usedOffY := t.usedOffY
        scaled := decide (320 < s.srcW.toNat ∧ 256 < s.srcH.toNat)
        errCause := 0
        busy := false
        intDone := true
        seqStep := 0 } ∧
      (t.effW.toNat : Int) = ew ∧ (t.effH.toNat : Int) = eh ∧
      t.usedOffX.toInt = (if 0 ≤ s.reqOffX.toInt then s.reqOffX.toInt else cx) ∧
      t.usedOffY.toInt = if 0 ≤ s.reqOffY.toInt then s.reqOffY.toInt else cy

/-- R268: with both requests negative what CALIBRATE writes depends on SRC_W and SRC_H alone; with both non-negative the
used offsets are the requests, whatever SRC_W and SRC_H are. -/
def Obligations.CalibrateDeterminedByDimensions : Prop :=
  ∀ s u : State,
    ∃ t v, exec .calibrate s = .next t ∧ exec .calibrate u = .next v ∧
      (s.reqOffX.toInt < 0 → s.reqOffY.toInt < 0 → u.reqOffX.toInt < 0 → u.reqOffY.toInt < 0 → s.srcW = u.srcW →
        s.srcH = u.srcH →
        t.effW = v.effW ∧ t.effH = v.effH ∧ t.usedOffX = v.usedOffX ∧ t.usedOffY = v.usedOffY ∧ t.scaled = v.scaled) ∧
      (0 ≤ s.reqOffX.toInt → 0 ≤ s.reqOffY.toInt → t.usedOffX = s.reqOffX ∧ t.usedOffY = s.reqOffY)

/-- R269: where CALIBRATE finds the raster scaled, a second CALIBRATE with SRC_W = EFF_W, SRC_H = EFF_H and the same requests
finds it not scaled, with the same effective size and the same offsets. -/
def Obligations.CalibrateIdempotentOnResized : Prop :=
  ∀ s t u : State, exec .calibrate s = .next t → t.scaled = true → u.srcW = t.effW → u.srcH = t.effH →
    u.reqOffX = s.reqOffX → u.reqOffY = s.reqOffY →
    ∃ v, exec .calibrate u = .next v ∧ v.scaled = false ∧ v.effW = t.effW ∧ v.effH = t.effH ∧
      v.usedOffX = t.usedOffX ∧ v.usedOffY = t.usedOffY

/-! ### Sequences -/

/-- R351, R352, R265, R327: for a raster of legal size that needs no scaling, whose window at the requested or computed
offset fits, ENCODE's three turns end in the state that CALIBRATE, MATCH and LAYOUT_ENC leave one after another, all
succeeding, and the turns before the last signal nothing. That each step takes one turn of the engine is the model's
choice (log 3, DEDUCED: R461 only lets a model take each primitive step as one transition). -/
def Obligations.EncodeIsItsThreeSteps : Prop :=
  ∀ (s : State) (ux uy : Int), s.seqStep = 0 → s.legalDims → ¬ (320 < s.srcW.toNat ∧ 256 < s.srcH.toNat) →
    ux = overrideOffset s.reqOffX (centreX s.srcW.toNat) →
    uy = overrideOffset s.reqOffY (centreY s.srcW.toNat s.srcH.toNat) →
    0 ≤ ux → 0 ≤ uy → ux + 256 ≤ s.srcW.toNat → uy + 192 ≤ s.srcH.toNat →
    ∃ c m t s₁ s₂, exec .calibrate s = .next c ∧ exec .matchAll c = .next m ∧ exec .layoutEnc m = .next t ∧
      c.usedOffX.toInt = ux ∧ c.usedOffY.toInt = uy ∧ m.errCause = 0 ∧ t.errCause = 0 ∧
      exec .encode s = .next s₁ ∧ exec .encode s₁ = .next s₂ ∧ exec .encode s₂ = .next t ∧
      (s₁.busy = s.busy ∧ s₁.intDone = s.intDone ∧ s₁.errCause = s.errCause) ∧
      (s₂.busy = s.busy ∧ s₂.intDone = s.intDone ∧ s₂.errCause = s.errCause)

/-- R351, R412: where MATCH fails inside ENCODE, the sequence completes with MATCH's code and keeps exactly CALIBRATE's
results. That this takes two turns of the engine, one for each step, is the model's choice (log 3, DEDUCED from R461). -/
def Obligations.EncodeKeepsCalibrationWhenMatchFails : Prop :=
  ∀ s c m : State, s.seqStep = 0 → exec .calibrate s = .next c → exec .matchAll c = .next m → m.errCause ≠ 0 →
    ∃ s₁, exec .encode s = .next s₁ ∧
      exec .encode s₁ =
        .next { s with
          effW := c.effW
          effH := c.effH
          usedOffX := c.usedOffX
          usedOffY := c.usedOffY
          scaled := c.scaled
          errCause := m.errCause
          busy := false
          intDone := true
          intErr := true
          seqStep := 0 }

/-- R351, R357, R358, R404, R412: with the IN_LEN its first step needs, DECODE_DF's two turns end in the state that
LAYOUT_DEC and PAINT leave one after the other, and DECODE_RAW's in that of CHARS_TO_CELLS and PAINT; with any other IN_LEN
the first turn completes with BAD_INPUT_SIZE and changes nothing else. That each step takes one turn of the engine is the
model's choice (log 3, DEDUCED: R461 only lets a model take each primitive step as one transition). -/
def Obligations.DecodeSequencesAreTheirTwoSteps : Prop :=
  ∀ s : State, s.seqStep = 0 →
    (s.inLen = 6912 →
      ∃ c t s₁, exec .layoutDec s = .next c ∧ exec .paint c = .next t ∧ exec .decodeDf s = .next s₁ ∧
        exec .decodeDf s₁ = .next t ∧ s₁.busy = s.busy ∧ s₁.intDone = s.intDone) ∧
    (s.inLen ≠ 6912 → exec .decodeDf s =
      .next { s with errCause := 0x04, busy := false, intDone := true, intErr := true, seqStep := 0 }) ∧
    (s.inLen = 768 →
      ∃ c t s₁, exec .charsToCells s = .next c ∧ exec .paint c = .next t ∧ exec .decodeRaw s = .next s₁ ∧
        exec .decodeRaw s₁ = .next t ∧ s₁.busy = s.busy ∧ s₁.intDone = s.intDone) ∧
    (s.inLen ≠ 768 → exec .decodeRaw s =
      .next { s with errCause := 0x04, busy := false, intDone := true, intErr := true, seqStep := 0 })

/-! ### Laws -/

/-- R231: the equivalent form of the address function, and its bits {line[4:3], subrow[2:0], line[2:0], 00000}. -/
def Obligations.CellAddressForms : Prop :=
  ∀ line subrow : Nat, line < 24 → subrow < 8 →
    cellAddress line subrow = line / 8 * 2048 + subrow * 256 + line % 8 * 32 ∧
      BitVec.ofNat 13 (cellAddress line subrow) =
        (BitVec.ofNat 5 line).extractLsb' 3 2 ++ BitVec.ofNat 3 subrow ++ (BitVec.ofNat 5 line).extractLsb' 0 3 ++ 0#5

/-- R232: every byte of the character plane is cellAddress(line, subrow) + col for exactly one (line, subrow, col). -/
def Obligations.CellAddressTilesThePlane : Prop :=
  ∀ a, a < 6144 →
    ∃ line subrow col, (line < 24 ∧ subrow < 8 ∧ col < 32 ∧ cellAddress line subrow + col = a) ∧
      ∀ l r c, l < 24 → r < 8 → c < 32 → cellAddress l r + c = a → l = line ∧ r = subrow ∧ c = col

/-- R237: with IN_LEN = 6912, LAYOUT_ENC then LAYOUT_DEC gives every cell back, and LAYOUT_DEC then LAYOUT_ENC gives the
character plane back with ATTR_FILL in every attribute byte. -/
def Obligations.LayoutInverseLaws : Prop :=
  ∀ s : State, s.inLen = 6912 →
    (∃ m t, exec .layoutEnc s = .next m ∧ exec .layoutDec m = .next t ∧ ∀ i, i < 768 → t.cellPat i = s.cellPat i) ∧
      ∃ m t, exec .layoutDec s = .next m ∧ exec .layoutEnc m = .next t ∧
        (∀ a, a < 6144 → t.dfByte a = s.dfByte a) ∧ ∀ j, j < 768 → t.dfByte (6144 + j) = s.attrFill

/-- R359: the display-file round trip: DECODE_DF then ENCODE with automatic offsets gives the character plane back, ATTR_FILL
in every attribute byte and the cells LAYOUT_DEC found; the file comes back byte for byte exactly when its attribute bytes
were ATTR_FILL, and a second pass reproduces the first's output.
How many turns of the engine a command takes is the model's choice (State.issue, logs 1 and 3). -/
def Obligations.DisplayFileRoundTrip : Prop :=
  ∀ s : State, s.ready → s.params.Ok → s.inLen = 6912 → s.reqOffX.toInt < 0 → s.reqOffY.toInt < 0 →
    ∃ d t d₂ t₂, s.issue 0x00000009 = .next d ∧ d.issue 0x00000008 = .next t ∧ t.issue 0x00000009 = .next d₂ ∧
      d₂.issue 0x00000008 = .next t₂ ∧
      (∀ a, a < 6144 → t.dfByte a = s.dfByte a) ∧ (∀ j, j < 768 → t.dfByte (6144 + j) = s.attrFill) ∧
      (∀ line r col, line < 24 → r < 8 → col < 32 →
        t.byteAt (cellpatBase + 8 * (line * 32 + col) + r) = s.dfByte (cellAddress line r + col)) ∧
      ((∀ a, a < 6912 → t.dfByte a = s.dfByte a) ↔ ∀ j, j < 768 → s.dfByte (6144 + j) = s.attrFill) ∧
      ∀ a, a < 6912 → t₂.dfByte a = t.dfByte a

/-- R360: the character-stream round trip: DECODE_RAW then ENCODE with automatic offsets gives back every code that has a
reverse entry; any other cell comes back as the code of the blank pattern, or as 0x3F and counted when the bank lacks it.
How many turns of the engine a command takes is the model's choice (State.issue, logs 1 and 3). -/
def Obligations.CharacterStreamRoundTrip : Prop :=
  ∀ s : State, s.ready → s.params.Ok → s.BanksOk → s.inLen = 768 → s.reqOffX.toInt < 0 → s.reqOffY.toInt < 0 →
    ∃ d t, s.issue 0x0000000A = .next d ∧ d.issue 0x00000008 = .next t ∧ t.errCause = 0 ∧
      (∀ i, i < 768 → (lookupCode (s.bank s.modelSel) (s.rawCode i)).isSome = true → t.rawCode i = s.rawCode i) ∧
      (∀ i, i < 768 → lookupCode (s.bank s.modelSel) (s.rawCode i) = none →
        t.rawCode i = (lookupPattern (s.bank s.modelSel) 0).getD 0x3F) ∧
      t.unmatchedCnt.toNat =
        (if (lookupPattern (s.bank s.modelSel) 0).isSome then 0
          else (List.range 768).countP (fun i => (lookupCode (s.bank s.modelSel) (s.rawCode i)).isNone)) ∧
      (t.partialMatch = true ↔ t.unmatchedCnt ≠ 0)

/-- R361: a 256×192 all-paper raster encodes to RAW full of the blank pattern's code and no unmatched cell, or of 0x3F and 768
unmatched cells when the bank lacks the blank pattern; the character plane is 0 and the attribute plane ATTR_FILL.
How many turns of the engine a command takes is the model's choice (State.issue, logs 1 and 3). -/
def Obligations.AllPaperScenario : Prop :=
  ∀ s : State, s.ready → s.params.Ok → s.srcW = 256 → s.srcH = 192 → s.reqOffX.toInt < 0 → s.reqOffY.toInt < 0 →
    (∀ x y, x < 256 → y < 192 → ∀ ch, ch < 3 → 127 < (s.byteAt (srcBase + 4 * (y * 256 + x) + ch)).toNat) →
    ∃ t, s.issue 0x00000008 = .next t ∧ t.errCause = 0 ∧ (∀ a, a < 6144 → t.dfByte a = 0) ∧
      (∀ j, j < 768 → t.dfByte (6144 + j) = s.attrFill) ∧
      match lookupPattern (s.bank s.modelSel) 0 with
      | some k => (∀ i, i < 768 → t.rawCode i = k) ∧ t.unmatchedCnt = 0 ∧ t.partialMatch = false
      | none => (∀ i, i < 768 → t.rawCode i = 0x3F) ∧ t.unmatchedCnt = 768 ∧ t.partialMatch = true

/-! ### Invariants and whole-machine rules -/

/-- R6, R7, R90 to R92: the state after reset meets every invariant. -/
def Obligations.ResetMeetsInvariant : Prop := State.reset.Inv

/-- R70, R105: every step keeps the memory canonical and inside the six memories. -/
def Obligations.StepKeepsMemoryCanonical : Prop :=
  ∀ s t : State, s.params.Ok → s.MemOk → step s = .next t → t.MemOk

/-- R80, R81: every step keeps, in each bank, one entry per pattern, and the count registers the numbers of valid
entries. -/
def Obligations.StepKeepsBanksAndCounts : Prop :=
  ∀ s t : State, s.params.Ok → s.BanksOk → s.CountsOk → step s = .next t → t.BanksOk ∧ t.CountsOk

/-- R34, R50, R51, R85, R329, R400: every step keeps the partial flags in agreement with their counts, the counts at most 768,
ERR_CAUSE a defined code, and the step index inside its sequence. -/
def Obligations.StepKeepsFlagsAndSequence : Prop :=
  ∀ s t : State, s.FlagsOk → s.EngineOk → step s = .next t → t.FlagsOk ∧ t.EngineOk

/-- R6, R7, R58, R59: no step changes the parameters of the instance, so PARAM0 and PARAM1 always read the same. -/
def Obligations.StepKeepsParameters : Prop :=
  ∀ s t : State, step s = .next t →
    t.params = s.params ∧ t.readReg .param0 = s.readReg .param0 ∧ t.readReg .param1 = s.readReg .param1

/-- R238, R291: no command's effect depends on the attribute plane of DF or on an alpha byte of SRC: on two states that agree
but for those bytes, every command ends in two such states. -/
def Obligations.UnreadBytesDoNotMatter : Prop :=
  ∀ (i : Instr) (s u : State), AgreeOffUnread s u →
    ∃ t v, exec i s = .next t ∧ exec i u = .next v ∧ AgreeOffUnread t v

/-- R53: of the commands, RESULT is written only by SAMPLE, MATCH_CELL, CELL_ADDR, GT_LOOKUP and GT_REVERSE, and (R54) RESULT_PAT only by
MATCH_CELL and GT_REVERSE. -/
def Obligations.OnlyQueriesWriteResult : Prop :=
  ∀ (i : Instr) (s t : State), exec i s = .next t →
    (t.result ≠ s.result → i.opcode.toNat ∈ [0x10, 0x11, 0x12, 0x23, 0x24]) ∧
      (t.resultPatLo ≠ s.resultPatLo ∨ t.resultPatHi ≠ s.resultPatHi → i.opcode.toNat ∈ [0x11, 0x24])

/-- R72, R76: a step changes a byte of CLEAN only when BINARIZE is running, and a byte of MAP only when MATCH or ENCODE is
running, or when it is a hardware reset; so no host write to an IDLE block changes either. -/
def Obligations.OnlyTheirWritersChangeCleanAndMap : Prop :=
  ∀ (s t : State) (a : Nat), s.params.Ok → step s = .next t → (∀ rest, s.events ≠ .hardwareReset :: rest) →
    t.byteAt a ≠ s.byteAt a →
    (inRange cleanBase (cleanBytes s.params) a → s.running = some .binarize) ∧
      (inRange mapBase 96 a → s.running = some .matchAll ∨ s.running = some .encode)

/-- R33, R86, R466: an IDLE write to CTRL with bit 0 = 0 sets GT_LOCK where bit 1 is 1, leaves it where bit 1 is 0, and
does nothing else; once GT_LOCK is set, no step but a reset changes a glyph entry, a count or the lock. -/
def Obligations.LockHoldsUntilReset : Prop :=
  (∀ (s : State) (v : Word) (rest : List Event), s.busy = false → v.getLsbD 0 = false →
    s.events = .access (.write 0x008 .word v) :: rest →
    step s = .next { s with
      gtLock := if v.getLsbD 1 then true else s.gtLock
      events := rest
      responses := .writeOkay :: s.responses }) ∧
    ∀ s t : State, s.gtLock = true → step s = .next t → (∀ e ∈ s.events.head?, isReset e = false) →
      t.gtLock = true ∧ t.gtA = s.gtA ∧ t.gtB = s.gtB ∧ t.gtCountA = s.gtCountA ∧ t.gtCountB = s.gtCountB

/-- R470, R351: with no host move pending every running command completes. R470 gives no bound: that a turn comes when no
event is left is the model's choice (log 1, DESIGN CHOICE), and so is the bound of three turns, one for each primitive step
of the longest sequence (log 3, DEDUCED from R461). -/
def Obligations.EveryCommandCompletes : Prop :=
  ∀ s : State, s.events = [] →
    ∃ t, Sys2Proof.core.run 3 s = .next t ∧ t.busy = false ∧ (s.busy = true → t.intDone = true)

/-- R106: the machine stops only on a host access past 0x1FF_FFFF; every other step gives a next state. R106 says of such an
access only that it is outside the block and not decoded by it: the fault is the model's choice (log 11, DEDUCED). -/
def Obligations.OnlyUndecodedAccessesStop : Prop :=
  ∀ s : State,
    (∃ t, step s = .next t) ∨
      ∃ a rest, s.events = .access a :: rest ∧
        ((∃ off size, a = .read off size ∧ 0x2000000 ≤ off ∧ step s = .fault (.notDecoded off)) ∨
          ∃ off size v, a = .write off size v ∧ 0x2000000 ≤ off ∧ step s = .fault (.notDecoded off))
end

