-- ==== Sys2Proof/Laws/Cells.lean ====
section
/-! SUPPORT. The two writes of a sorted list of cells: what a lookup finds after them, and that the keys stay strictly
rising. -/

namespace Sys2Proof.Machine

/-- Keys strictly rising: the canonical form of memory and glyph banks. -/
abbrev CellsSorted {β : Type} (m : List (Nat × β)) : Prop := m.Pairwise (fun c d => c.1 < d.1)

theorem lookup_none_of_lt {β : Type} {m : List (Nat × β)} {a : Nat} (h : ∀ c ∈ m, a < c.1) : m.lookup a = none := by
  induction m with
  | nil => rfl
  | cons c m ih =>
    obtain ⟨k, v⟩ := c
    have hk : a < k := h (k, v) (by simp)
    rw [List.lookup_cons, show (a == k) = false by simp; omega]
    exact ih (fun d hd => h d (by simp [hd]))

theorem lookup_cellsPut {β : Type} (m : List (Nat × β)) (a b : Nat) (v : β) :
    (cellsPut m a v).lookup b = if b = a then some v else m.lookup b := by
  induction m with
  | nil => simp [cellsPut, List.lookup_cons]; split <;> simp_all
  | cons c m ih =>
    obtain ⟨k, w⟩ := c
    simp only [cellsPut]
    split_ifs <;> simp_all [List.lookup_cons] <;> split <;> simp_all

theorem mem_cellsPut {β : Type} {m : List (Nat × β)} {a : Nat} {v : β} {c : Nat × β} (h : c ∈ cellsPut m a v) :
    c = (a, v) ∨ c ∈ m := by
  induction m with
  | nil => simpa [cellsPut] using h
  | cons d m ih =>
    obtain ⟨k, w⟩ := d
    simp only [cellsPut] at h
    split_ifs at h <;> simp at h ⊢ <;> tauto

theorem cellsPut_sorted {β : Type} {m : List (Nat × β)} (h : CellsSorted m) (a : Nat) (v : β) :
    CellsSorted (cellsPut m a v) := by
  induction m with
  | nil => simp [cellsPut]
  | cons d m ih =>
    obtain ⟨k, w⟩ := d
    have ⟨hk, hm⟩ := List.pairwise_cons.1 h
    simp only [cellsPut]
    split_ifs with h1 h2
    · refine List.pairwise_cons.2 ⟨fun c hc => ?_, h⟩
      rcases List.mem_cons.1 hc with rfl | hc
      · exact h1
      · exact lt_trans h1 (hk c hc)
    · subst h2; exact List.pairwise_cons.2 ⟨hk, hm⟩
    · refine List.pairwise_cons.2 ⟨fun c hc => ?_, ih hm⟩
      rcases mem_cellsPut hc with rfl | hc
      · show k < a; omega
      · exact hk c hc

theorem lookup_filter_key {β : Type} (m : List (Nat × β)) (p : Nat → Bool) (a : Nat) :
    (m.filter (fun c => p c.1)).lookup a = if p a then m.lookup a else none := by
  induction m with
  | nil => simp
  | cons c m ih =>
    obtain ⟨k, v⟩ := c
    by_cases hk : p k <;> by_cases ha : a = k
    · subst ha; simp [hk]
    · simp [hk, List.lookup_cons, show (a == k) = false by simpa using ha, ih]
    · subst ha; simp [hk, ih]
    · simp [hk, List.lookup_cons, show (a == k) = false by simpa using ha, ih]

theorem lookup_range_map {β : Type} (lo n : Nat) (f : Nat → β) (a : Nat) :
    ((List.range n).map (fun k => (lo + k, f k))).lookup a =
      if lo ≤ a ∧ a < lo + n then some (f (a - lo)) else none := by
  induction n with
  | zero => simp
  | succ n ih =>
    rw [List.range_succ, List.map_append, List.lookup_append, ih]
    by_cases h : a = lo + n
    · subst h; simp
    · simp only [List.map_cons, List.map_nil, List.lookup_cons, show (a == lo + n) = false by simpa using h,
        List.lookup_nil, Option.or_none]
      split_ifs <;> first | rfl | omega

theorem lookup_cellsFill {β : Type} (m : List (Nat × β)) (lo n : Nat) (f : Nat → β) (a : Nat) :
    (cellsFill m lo n f).lookup a = if lo ≤ a ∧ a < lo + n then some (f (a - lo)) else m.lookup a := by
  simp only [cellsFill, List.lookup_append, lookup_range_map,
    lookup_filter_key m (fun k => decide (k < lo)), lookup_filter_key m (fun k => decide (lo + n ≤ k))]
  by_cases h1 : a < lo
  · simp [h1, show ¬ lo + n ≤ a by omega, show ¬ lo ≤ a by omega]
  · by_cases h2 : a < lo + n
    · simp [h1, h2, show lo ≤ a by omega]
    · simp [h1, h2, show lo + n ≤ a by omega]

theorem mem_cellsFill {β : Type} {m : List (Nat × β)} {lo n : Nat} {f : Nat → β} {c : Nat × β}
    (h : c ∈ cellsFill m lo n f) : (lo ≤ c.1 ∧ c.1 < lo + n) ∨ c ∈ m := by
  simp only [cellsFill, List.mem_append, List.mem_filter, List.mem_map, List.mem_range] at h
  rcases h with (h | ⟨k, hk, rfl⟩) | h
  · exact .inr h.1
  · exact .inl ⟨by simp, by simp; omega⟩
  · exact .inr h.1

theorem cellsFill_sorted {β : Type} {m : List (Nat × β)} (h : CellsSorted m) (lo n : Nat) (f : Nat → β) :
    CellsSorted (cellsFill m lo n f) := by
  have hr : CellsSorted ((List.range n).map (fun k => (lo + k, f k))) :=
    List.pairwise_map.2 (List.pairwise_lt_range.imp (fun h => by simpa using h))
  unfold cellsFill
  refine List.pairwise_append.2 ⟨List.pairwise_append.2 ⟨h.filter _, hr, ?_⟩, h.filter _, ?_⟩
  · intro c hc d hd
    simp only [List.mem_filter, decide_eq_true_eq, List.mem_map, List.mem_range] at hc hd
    obtain ⟨k, -, rfl⟩ := hd
    show c.1 < lo + k
    omega
  · intro c hc d hd
    simp only [List.mem_append, List.mem_filter, decide_eq_true_eq, List.mem_map, List.mem_range] at hc hd
    rcases hc with hc | ⟨k, hk, rfl⟩
    · omega
    · show lo + k < d.1; omega

end Sys2Proof.Machine
end

