-- ==== Sys2Proof/Laws/State.lean ====
section
/-! SUPPORT. What each named update of the state does to each field: one lemma per field, true by definition, so that no
proof unfolds a record update. -/

namespace Sys2Proof.Machine

/-! ### State.putByte -/

@[simp] theorem State.putByte_params (s : State) (a : Nat) (v : Byte) : (s.putByte a v).params = s.params := rfl
@[simp] theorem State.putByte_gtLock (s : State) (a : Nat) (v : Byte) : (s.putByte a v).gtLock = s.gtLock := rfl
@[simp] theorem State.putByte_busy (s : State) (a : Nat) (v : Byte) : (s.putByte a v).busy = s.busy := rfl
@[simp] theorem State.putByte_partialMatch (s : State) (a : Nat) (v : Byte) :
    (s.putByte a v).partialMatch = s.partialMatch := rfl
@[simp] theorem State.putByte_scaled (s : State) (a : Nat) (v : Byte) : (s.putByte a v).scaled = s.scaled := rfl
@[simp] theorem State.putByte_decPartial (s : State) (a : Nat) (v : Byte) :
    (s.putByte a v).decPartial = s.decPartial := rfl
@[simp] theorem State.putByte_cmdOverrun (s : State) (a : Nat) (v : Byte) :
    (s.putByte a v).cmdOverrun = s.cmdOverrun := rfl
@[simp] theorem State.putByte_busyWrite (s : State) (a : Nat) (v : Byte) :
    (s.putByte a v).busyWrite = s.busyWrite := rfl
@[simp] theorem State.putByte_cmd (s : State) (a : Nat) (v : Byte) : (s.putByte a v).cmd = s.cmd := rfl
@[simp] theorem State.putByte_errCause (s : State) (a : Nat) (v : Byte) : (s.putByte a v).errCause = s.errCause := rfl
@[simp] theorem State.putByte_doneEn (s : State) (a : Nat) (v : Byte) : (s.putByte a v).doneEn = s.doneEn := rfl
@[simp] theorem State.putByte_errEn (s : State) (a : Nat) (v : Byte) : (s.putByte a v).errEn = s.errEn := rfl
@[simp] theorem State.putByte_intDone (s : State) (a : Nat) (v : Byte) : (s.putByte a v).intDone = s.intDone := rfl
@[simp] theorem State.putByte_intErr (s : State) (a : Nat) (v : Byte) : (s.putByte a v).intErr = s.intErr := rfl
@[simp] theorem State.putByte_srcW (s : State) (a : Nat) (v : Byte) : (s.putByte a v).srcW = s.srcW := rfl
@[simp] theorem State.putByte_srcH (s : State) (a : Nat) (v : Byte) : (s.putByte a v).srcH = s.srcH := rfl
@[simp] theorem State.putByte_reqOffX (s : State) (a : Nat) (v : Byte) : (s.putByte a v).reqOffX = s.reqOffX := rfl
@[simp] theorem State.putByte_reqOffY (s : State) (a : Nat) (v : Byte) : (s.putByte a v).reqOffY = s.reqOffY := rfl
@[simp] theorem State.putByte_usedOffX (s : State) (a : Nat) (v : Byte) : (s.putByte a v).usedOffX = s.usedOffX := rfl
@[simp] theorem State.putByte_usedOffY (s : State) (a : Nat) (v : Byte) : (s.putByte a v).usedOffY = s.usedOffY := rfl
@[simp] theorem State.putByte_effW (s : State) (a : Nat) (v : Byte) : (s.putByte a v).effW = s.effW := rfl
@[simp] theorem State.putByte_effH (s : State) (a : Nat) (v : Byte) : (s.putByte a v).effH = s.effH := rfl
@[simp] theorem State.putByte_modelSel (s : State) (a : Nat) (v : Byte) : (s.putByte a v).modelSel = s.modelSel := rfl
@[simp] theorem State.putByte_attrFill (s : State) (a : Nat) (v : Byte) : (s.putByte a v).attrFill = s.attrFill := rfl
@[simp] theorem State.putByte_unmatchedCnt (s : State) (a : Nat) (v : Byte) :
    (s.putByte a v).unmatchedCnt = s.unmatchedCnt := rfl
@[simp] theorem State.putByte_decMissCnt (s : State) (a : Nat) (v : Byte) :
    (s.putByte a v).decMissCnt = s.decMissCnt := rfl
@[simp] theorem State.putByte_inLen (s : State) (a : Nat) (v : Byte) : (s.putByte a v).inLen = s.inLen := rfl
@[simp] theorem State.putByte_result (s : State) (a : Nat) (v : Byte) : (s.putByte a v).result = s.result := rfl
@[simp] theorem State.putByte_resultPatLo (s : State) (a : Nat) (v : Byte) :
    (s.putByte a v).resultPatLo = s.resultPatLo := rfl
@[simp] theorem State.putByte_resultPatHi (s : State) (a : Nat) (v : Byte) :
    (s.putByte a v).resultPatHi = s.resultPatHi := rfl
@[simp] theorem State.putByte_gtPatLo (s : State) (a : Nat) (v : Byte) : (s.putByte a v).gtPatLo = s.gtPatLo := rfl
@[simp] theorem State.putByte_gtPatHi (s : State) (a : Nat) (v : Byte) : (s.putByte a v).gtPatHi = s.gtPatHi := rfl
@[simp] theorem State.putByte_gtCode (s : State) (a : Nat) (v : Byte) : (s.putByte a v).gtCode = s.gtCode := rfl
@[simp] theorem State.putByte_gtCountA (s : State) (a : Nat) (v : Byte) : (s.putByte a v).gtCountA = s.gtCountA := rfl
@[simp] theorem State.putByte_gtCountB (s : State) (a : Nat) (v : Byte) : (s.putByte a v).gtCountB = s.gtCountB := rfl
@[simp] theorem State.putByte_gtA (s : State) (a : Nat) (v : Byte) : (s.putByte a v).gtA = s.gtA := rfl
@[simp] theorem State.putByte_gtB (s : State) (a : Nat) (v : Byte) : (s.putByte a v).gtB = s.gtB := rfl
@[simp] theorem State.putByte_seqStep (s : State) (a : Nat) (v : Byte) : (s.putByte a v).seqStep = s.seqStep := rfl
@[simp] theorem State.putByte_memDraw (s : State) (a : Nat) (v : Byte) : (s.putByte a v).memDraw = s.memDraw := rfl
@[simp] theorem State.putByte_draws (s : State) (a : Nat) (v : Byte) : (s.putByte a v).draws = s.draws := rfl
@[simp] theorem State.putByte_events (s : State) (a : Nat) (v : Byte) : (s.putByte a v).events = s.events := rfl
@[simp] theorem State.putByte_responses (s : State) (a : Nat) (v : Byte) :
    (s.putByte a v).responses = s.responses := rfl

/-! ### State.fillBytes -/

@[simp] theorem State.fillBytes_params (s : State) (lo n : Nat) (f : Nat → Byte) :
    (s.fillBytes lo n f).params = s.params := rfl
@[simp] theorem State.fillBytes_gtLock (s : State) (lo n : Nat) (f : Nat → Byte) :
    (s.fillBytes lo n f).gtLock = s.gtLock := rfl
@[simp] theorem State.fillBytes_busy (s : State) (lo n : Nat) (f : Nat → Byte) :
    (s.fillBytes lo n f).busy = s.busy := rfl
@[simp] theorem State.fillBytes_partialMatch (s : State) (lo n : Nat) (f : Nat → Byte) :
    (s.fillBytes lo n f).partialMatch = s.partialMatch := rfl
@[simp] theorem State.fillBytes_scaled (s : State) (lo n : Nat) (f : Nat → Byte) :
    (s.fillBytes lo n f).scaled = s.scaled := rfl
@[simp] theorem State.fillBytes_decPartial (s : State) (lo n : Nat) (f : Nat → Byte) :
    (s.fillBytes lo n f).decPartial = s.decPartial := rfl
@[simp] theorem State.fillBytes_cmdOverrun (s : State) (lo n : Nat) (f : Nat → Byte) :
    (s.fillBytes lo n f).cmdOverrun = s.cmdOverrun := rfl
@[simp] theorem State.fillBytes_busyWrite (s : State) (lo n : Nat) (f : Nat → Byte) :
    (s.fillBytes lo n f).busyWrite = s.busyWrite := rfl
@[simp] theorem State.fillBytes_cmd (s : State) (lo n : Nat) (f : Nat → Byte) :
    (s.fillBytes lo n f).cmd = s.cmd := rfl
@[simp] theorem State.fillBytes_errCause (s : State) (lo n : Nat) (f : Nat → Byte) :
    (s.fillBytes lo n f).errCause = s.errCause := rfl
@[simp] theorem State.fillBytes_doneEn (s : State) (lo n : Nat) (f : Nat → Byte) :
    (s.fillBytes lo n f).doneEn = s.doneEn := rfl
@[simp] theorem State.fillBytes_errEn (s : State) (lo n : Nat) (f : Nat → Byte) :
    (s.fillBytes lo n f).errEn = s.errEn := rfl
@[simp] theorem State.fillBytes_intDone (s : State) (lo n : Nat) (f : Nat → Byte) :
    (s.fillBytes lo n f).intDone = s.intDone := rfl
@[simp] theorem State.fillBytes_intErr (s : State) (lo n : Nat) (f : Nat → Byte) :
    (s.fillBytes lo n f).intErr = s.intErr := rfl
@[simp] theorem State.fillBytes_srcW (s : State) (lo n : Nat) (f : Nat → Byte) :
    (s.fillBytes lo n f).srcW = s.srcW := rfl
@[simp] theorem State.fillBytes_srcH (s : State) (lo n : Nat) (f : Nat → Byte) :
    (s.fillBytes lo n f).srcH = s.srcH := rfl
@[simp] theorem State.fillBytes_reqOffX (s : State) (lo n : Nat) (f : Nat → Byte) :
    (s.fillBytes lo n f).reqOffX = s.reqOffX := rfl
@[simp] theorem State.fillBytes_reqOffY (s : State) (lo n : Nat) (f : Nat → Byte) :
    (s.fillBytes lo n f).reqOffY = s.reqOffY := rfl
@[simp] theorem State.fillBytes_usedOffX (s : State) (lo n : Nat) (f : Nat → Byte) :
    (s.fillBytes lo n f).usedOffX = s.usedOffX := rfl
@[simp] theorem State.fillBytes_usedOffY (s : State) (lo n : Nat) (f : Nat → Byte) :
    (s.fillBytes lo n f).usedOffY = s.usedOffY := rfl
@[simp] theorem State.fillBytes_effW (s : State) (lo n : Nat) (f : Nat → Byte) :
    (s.fillBytes lo n f).effW = s.effW := rfl
@[simp] theorem State.fillBytes_effH (s : State) (lo n : Nat) (f : Nat → Byte) :
    (s.fillBytes lo n f).effH = s.effH := rfl
@[simp] theorem State.fillBytes_modelSel (s : State) (lo n : Nat) (f : Nat → Byte) :
    (s.fillBytes lo n f).modelSel = s.modelSel := rfl
@[simp] theorem State.fillBytes_attrFill (s : State) (lo n : Nat) (f : Nat → Byte) :
    (s.fillBytes lo n f).attrFill = s.attrFill := rfl
@[simp] theorem State.fillBytes_unmatchedCnt (s : State) (lo n : Nat) (f : Nat → Byte) :
    (s.fillBytes lo n f).unmatchedCnt = s.unmatchedCnt := rfl
@[simp] theorem State.fillBytes_decMissCnt (s : State) (lo n : Nat) (f : Nat → Byte) :
    (s.fillBytes lo n f).decMissCnt = s.decMissCnt := rfl
@[simp] theorem State.fillBytes_inLen (s : State) (lo n : Nat) (f : Nat → Byte) :
    (s.fillBytes lo n f).inLen = s.inLen := rfl
@[simp] theorem State.fillBytes_result (s : State) (lo n : Nat) (f : Nat → Byte) :
    (s.fillBytes lo n f).result = s.result := rfl
@[simp] theorem State.fillBytes_resultPatLo (s : State) (lo n : Nat) (f : Nat → Byte) :
    (s.fillBytes lo n f).resultPatLo = s.resultPatLo := rfl
@[simp] theorem State.fillBytes_resultPatHi (s : State) (lo n : Nat) (f : Nat → Byte) :
    (s.fillBytes lo n f).resultPatHi = s.resultPatHi := rfl
@[simp] theorem State.fillBytes_gtPatLo (s : State) (lo n : Nat) (f : Nat → Byte) :
    (s.fillBytes lo n f).gtPatLo = s.gtPatLo := rfl
@[simp] theorem State.fillBytes_gtPatHi (s : State) (lo n : Nat) (f : Nat → Byte) :
    (s.fillBytes lo n f).gtPatHi = s.gtPatHi := rfl
@[simp] theorem State.fillBytes_gtCode (s : State) (lo n : Nat) (f : Nat → Byte) :
    (s.fillBytes lo n f).gtCode = s.gtCode := rfl
@[simp] theorem State.fillBytes_gtCountA (s : State) (lo n : Nat) (f : Nat → Byte) :
    (s.fillBytes lo n f).gtCountA = s.gtCountA := rfl
@[simp] theorem State.fillBytes_gtCountB (s : State) (lo n : Nat) (f : Nat → Byte) :
    (s.fillBytes lo n f).gtCountB = s.gtCountB := rfl
@[simp] theorem State.fillBytes_gtA (s : State) (lo n : Nat) (f : Nat → Byte) :
    (s.fillBytes lo n f).gtA = s.gtA := rfl
@[simp] theorem State.fillBytes_gtB (s : State) (lo n : Nat) (f : Nat → Byte) :
    (s.fillBytes lo n f).gtB = s.gtB := rfl
@[simp] theorem State.fillBytes_seqStep (s : State) (lo n : Nat) (f : Nat → Byte) :
    (s.fillBytes lo n f).seqStep = s.seqStep := rfl
@[simp] theorem State.fillBytes_memDraw (s : State) (lo n : Nat) (f : Nat → Byte) :
    (s.fillBytes lo n f).memDraw = s.memDraw := rfl
@[simp] theorem State.fillBytes_draws (s : State) (lo n : Nat) (f : Nat → Byte) :
    (s.fillBytes lo n f).draws = s.draws := rfl
@[simp] theorem State.fillBytes_events (s : State) (lo n : Nat) (f : Nat → Byte) :
    (s.fillBytes lo n f).events = s.events := rfl
@[simp] theorem State.fillBytes_responses (s : State) (lo n : Nat) (f : Nat → Byte) :
    (s.fillBytes lo n f).responses = s.responses := rfl

/-! ### State.writeCells -/

@[simp] theorem State.writeCells_params (s : State) (f : Nat → Pattern) : (s.writeCells f).params = s.params := rfl
@[simp] theorem State.writeCells_gtLock (s : State) (f : Nat → Pattern) : (s.writeCells f).gtLock = s.gtLock := rfl
@[simp] theorem State.writeCells_busy (s : State) (f : Nat → Pattern) : (s.writeCells f).busy = s.busy := rfl
@[simp] theorem State.writeCells_partialMatch (s : State) (f : Nat → Pattern) :
    (s.writeCells f).partialMatch = s.partialMatch := rfl
@[simp] theorem State.writeCells_scaled (s : State) (f : Nat → Pattern) : (s.writeCells f).scaled = s.scaled := rfl
@[simp] theorem State.writeCells_decPartial (s : State) (f : Nat → Pattern) :
    (s.writeCells f).decPartial = s.decPartial := rfl
@[simp] theorem State.writeCells_cmdOverrun (s : State) (f : Nat → Pattern) :
    (s.writeCells f).cmdOverrun = s.cmdOverrun := rfl
@[simp] theorem State.writeCells_busyWrite (s : State) (f : Nat → Pattern) :
    (s.writeCells f).busyWrite = s.busyWrite := rfl
@[simp] theorem State.writeCells_cmd (s : State) (f : Nat → Pattern) : (s.writeCells f).cmd = s.cmd := rfl
@[simp] theorem State.writeCells_errCause (s : State) (f : Nat → Pattern) :
    (s.writeCells f).errCause = s.errCause := rfl
@[simp] theorem State.writeCells_doneEn (s : State) (f : Nat → Pattern) : (s.writeCells f).doneEn = s.doneEn := rfl
@[simp] theorem State.writeCells_errEn (s : State) (f : Nat → Pattern) : (s.writeCells f).errEn = s.errEn := rfl
@[simp] theorem State.writeCells_intDone (s : State) (f : Nat → Pattern) : (s.writeCells f).intDone = s.intDone := rfl
@[simp] theorem State.writeCells_intErr (s : State) (f : Nat → Pattern) : (s.writeCells f).intErr = s.intErr := rfl
@[simp] theorem State.writeCells_srcW (s : State) (f : Nat → Pattern) : (s.writeCells f).srcW = s.srcW := rfl
@[simp] theorem State.writeCells_srcH (s : State) (f : Nat → Pattern) : (s.writeCells f).srcH = s.srcH := rfl
@[simp] theorem State.writeCells_reqOffX (s : State) (f : Nat → Pattern) : (s.writeCells f).reqOffX = s.reqOffX := rfl
@[simp] theorem State.writeCells_reqOffY (s : State) (f : Nat → Pattern) : (s.writeCells f).reqOffY = s.reqOffY := rfl
@[simp] theorem State.writeCells_usedOffX (s : State) (f : Nat → Pattern) :
    (s.writeCells f).usedOffX = s.usedOffX := rfl
@[simp] theorem State.writeCells_usedOffY (s : State) (f : Nat → Pattern) :
    (s.writeCells f).usedOffY = s.usedOffY := rfl
@[simp] theorem State.writeCells_effW (s : State) (f : Nat → Pattern) : (s.writeCells f).effW = s.effW := rfl
@[simp] theorem State.writeCells_effH (s : State) (f : Nat → Pattern) : (s.writeCells f).effH = s.effH := rfl
@[simp] theorem State.writeCells_modelSel (s : State) (f : Nat → Pattern) :
    (s.writeCells f).modelSel = s.modelSel := rfl
@[simp] theorem State.writeCells_attrFill (s : State) (f : Nat → Pattern) :
    (s.writeCells f).attrFill = s.attrFill := rfl
@[simp] theorem State.writeCells_unmatchedCnt (s : State) (f : Nat → Pattern) :
    (s.writeCells f).unmatchedCnt = s.unmatchedCnt := rfl
@[simp] theorem State.writeCells_decMissCnt (s : State) (f : Nat → Pattern) :
    (s.writeCells f).decMissCnt = s.decMissCnt := rfl
@[simp] theorem State.writeCells_inLen (s : State) (f : Nat → Pattern) : (s.writeCells f).inLen = s.inLen := rfl
@[simp] theorem State.writeCells_result (s : State) (f : Nat → Pattern) : (s.writeCells f).result = s.result := rfl
@[simp] theorem State.writeCells_resultPatLo (s : State) (f : Nat → Pattern) :
    (s.writeCells f).resultPatLo = s.resultPatLo := rfl
@[simp] theorem State.writeCells_resultPatHi (s : State) (f : Nat → Pattern) :
    (s.writeCells f).resultPatHi = s.resultPatHi := rfl
@[simp] theorem State.writeCells_gtPatLo (s : State) (f : Nat → Pattern) : (s.writeCells f).gtPatLo = s.gtPatLo := rfl
@[simp] theorem State.writeCells_gtPatHi (s : State) (f : Nat → Pattern) : (s.writeCells f).gtPatHi = s.gtPatHi := rfl
@[simp] theorem State.writeCells_gtCode (s : State) (f : Nat → Pattern) : (s.writeCells f).gtCode = s.gtCode := rfl
@[simp] theorem State.writeCells_gtCountA (s : State) (f : Nat → Pattern) :
    (s.writeCells f).gtCountA = s.gtCountA := rfl
@[simp] theorem State.writeCells_gtCountB (s : State) (f : Nat → Pattern) :
    (s.writeCells f).gtCountB = s.gtCountB := rfl
@[simp] theorem State.writeCells_gtA (s : State) (f : Nat → Pattern) : (s.writeCells f).gtA = s.gtA := rfl
@[simp] theorem State.writeCells_gtB (s : State) (f : Nat → Pattern) : (s.writeCells f).gtB = s.gtB := rfl
@[simp] theorem State.writeCells_seqStep (s : State) (f : Nat → Pattern) : (s.writeCells f).seqStep = s.seqStep := rfl
@[simp] theorem State.writeCells_memDraw (s : State) (f : Nat → Pattern) : (s.writeCells f).memDraw = s.memDraw := rfl
@[simp] theorem State.writeCells_draws (s : State) (f : Nat → Pattern) : (s.writeCells f).draws = s.draws := rfl
@[simp] theorem State.writeCells_events (s : State) (f : Nat → Pattern) : (s.writeCells f).events = s.events := rfl
@[simp] theorem State.writeCells_responses (s : State) (f : Nat → Pattern) :
    (s.writeCells f).responses = s.responses := rfl

/-! ### State.complete -/

@[simp] theorem State.complete_params (s : State) (e : Byte) : (s.complete e).params = s.params := rfl
@[simp] theorem State.complete_gtLock (s : State) (e : Byte) : (s.complete e).gtLock = s.gtLock := rfl
@[simp] theorem State.complete_busy (s : State) (e : Byte) :
    (s.complete e).busy = false := rfl
@[simp] theorem State.complete_partialMatch (s : State) (e : Byte) :
    (s.complete e).partialMatch = s.partialMatch := rfl
@[simp] theorem State.complete_scaled (s : State) (e : Byte) : (s.complete e).scaled = s.scaled := rfl
@[simp] theorem State.complete_decPartial (s : State) (e : Byte) : (s.complete e).decPartial = s.decPartial := rfl
@[simp] theorem State.complete_cmdOverrun (s : State) (e : Byte) : (s.complete e).cmdOverrun = s.cmdOverrun := rfl
@[simp] theorem State.complete_busyWrite (s : State) (e : Byte) : (s.complete e).busyWrite = s.busyWrite := rfl
@[simp] theorem State.complete_cmd (s : State) (e : Byte) : (s.complete e).cmd = s.cmd := rfl
@[simp] theorem State.complete_errCause (s : State) (e : Byte) :
    (s.complete e).errCause = e := rfl
@[simp] theorem State.complete_doneEn (s : State) (e : Byte) : (s.complete e).doneEn = s.doneEn := rfl
@[simp] theorem State.complete_errEn (s : State) (e : Byte) : (s.complete e).errEn = s.errEn := rfl
@[simp] theorem State.complete_intDone (s : State) (e : Byte) :
    (s.complete e).intDone = true := rfl
@[simp] theorem State.complete_intErr (s : State) (e : Byte) :
    (s.complete e).intErr = (s.intErr || decide (e ≠ 0)) := rfl
@[simp] theorem State.complete_srcW (s : State) (e : Byte) : (s.complete e).srcW = s.srcW := rfl
@[simp] theorem State.complete_srcH (s : State) (e : Byte) : (s.complete e).srcH = s.srcH := rfl
@[simp] theorem State.complete_reqOffX (s : State) (e : Byte) : (s.complete e).reqOffX = s.reqOffX := rfl
@[simp] theorem State.complete_reqOffY (s : State) (e : Byte) : (s.complete e).reqOffY = s.reqOffY := rfl
@[simp] theorem State.complete_usedOffX (s : State) (e : Byte) : (s.complete e).usedOffX = s.usedOffX := rfl
@[simp] theorem State.complete_usedOffY (s : State) (e : Byte) : (s.complete e).usedOffY = s.usedOffY := rfl
@[simp] theorem State.complete_effW (s : State) (e : Byte) : (s.complete e).effW = s.effW := rfl
@[simp] theorem State.complete_effH (s : State) (e : Byte) : (s.complete e).effH = s.effH := rfl
@[simp] theorem State.complete_modelSel (s : State) (e : Byte) : (s.complete e).modelSel = s.modelSel := rfl
@[simp] theorem State.complete_attrFill (s : State) (e : Byte) : (s.complete e).attrFill = s.attrFill := rfl
@[simp] theorem State.complete_unmatchedCnt (s : State) (e : Byte) :
    (s.complete e).unmatchedCnt = s.unmatchedCnt := rfl
@[simp] theorem State.complete_decMissCnt (s : State) (e : Byte) : (s.complete e).decMissCnt = s.decMissCnt := rfl
@[simp] theorem State.complete_inLen (s : State) (e : Byte) : (s.complete e).inLen = s.inLen := rfl
@[simp] theorem State.complete_result (s : State) (e : Byte) : (s.complete e).result = s.result := rfl
@[simp] theorem State.complete_resultPatLo (s : State) (e : Byte) : (s.complete e).resultPatLo = s.resultPatLo := rfl
@[simp] theorem State.complete_resultPatHi (s : State) (e : Byte) : (s.complete e).resultPatHi = s.resultPatHi := rfl
@[simp] theorem State.complete_gtPatLo (s : State) (e : Byte) : (s.complete e).gtPatLo = s.gtPatLo := rfl
@[simp] theorem State.complete_gtPatHi (s : State) (e : Byte) : (s.complete e).gtPatHi = s.gtPatHi := rfl
@[simp] theorem State.complete_gtCode (s : State) (e : Byte) : (s.complete e).gtCode = s.gtCode := rfl
@[simp] theorem State.complete_gtCountA (s : State) (e : Byte) : (s.complete e).gtCountA = s.gtCountA := rfl
@[simp] theorem State.complete_gtCountB (s : State) (e : Byte) : (s.complete e).gtCountB = s.gtCountB := rfl
@[simp] theorem State.complete_gtA (s : State) (e : Byte) : (s.complete e).gtA = s.gtA := rfl
@[simp] theorem State.complete_gtB (s : State) (e : Byte) : (s.complete e).gtB = s.gtB := rfl
@[simp] theorem State.complete_seqStep (s : State) (e : Byte) :
    (s.complete e).seqStep = 0 := rfl
@[simp] theorem State.complete_mem (s : State) (e : Byte) : (s.complete e).mem = s.mem := rfl
@[simp] theorem State.complete_memDraw (s : State) (e : Byte) : (s.complete e).memDraw = s.memDraw := rfl
@[simp] theorem State.complete_draws (s : State) (e : Byte) : (s.complete e).draws = s.draws := rfl
@[simp] theorem State.complete_events (s : State) (e : Byte) : (s.complete e).events = s.events := rfl
@[simp] theorem State.complete_responses (s : State) (e : Byte) : (s.complete e).responses = s.responses := rfl

/-! ### State.accept -/

@[simp] theorem State.accept_params (s : State) (w : Word) : (s.accept w).params = s.params := rfl
@[simp] theorem State.accept_gtLock (s : State) (w : Word) : (s.accept w).gtLock = s.gtLock := rfl
@[simp] theorem State.accept_busy (s : State) (w : Word) :
    (s.accept w).busy = true := rfl
@[simp] theorem State.accept_partialMatch (s : State) (w : Word) : (s.accept w).partialMatch = s.partialMatch := rfl
@[simp] theorem State.accept_scaled (s : State) (w : Word) : (s.accept w).scaled = s.scaled := rfl
@[simp] theorem State.accept_decPartial (s : State) (w : Word) : (s.accept w).decPartial = s.decPartial := rfl
@[simp] theorem State.accept_cmdOverrun (s : State) (w : Word) : (s.accept w).cmdOverrun = s.cmdOverrun := rfl
@[simp] theorem State.accept_busyWrite (s : State) (w : Word) : (s.accept w).busyWrite = s.busyWrite := rfl
@[simp] theorem State.accept_cmd (s : State) (w : Word) :
    (s.accept w).cmd = w := rfl
@[simp] theorem State.accept_errCause (s : State) (w : Word) : (s.accept w).errCause = s.errCause := rfl
@[simp] theorem State.accept_doneEn (s : State) (w : Word) : (s.accept w).doneEn = s.doneEn := rfl
@[simp] theorem State.accept_errEn (s : State) (w : Word) : (s.accept w).errEn = s.errEn := rfl
@[simp] theorem State.accept_intDone (s : State) (w : Word) : (s.accept w).intDone = s.intDone := rfl
@[simp] theorem State.accept_intErr (s : State) (w : Word) : (s.accept w).intErr = s.intErr := rfl
@[simp] theorem State.accept_srcW (s : State) (w : Word) : (s.accept w).srcW = s.srcW := rfl
@[simp] theorem State.accept_srcH (s : State) (w : Word) : (s.accept w).srcH = s.srcH := rfl
@[simp] theorem State.accept_reqOffX (s : State) (w : Word) : (s.accept w).reqOffX = s.reqOffX := rfl
@[simp] theorem State.accept_reqOffY (s : State) (w : Word) : (s.accept w).reqOffY = s.reqOffY := rfl
@[simp] theorem State.accept_usedOffX (s : State) (w : Word) : (s.accept w).usedOffX = s.usedOffX := rfl
@[simp] theorem State.accept_usedOffY (s : State) (w : Word) : (s.accept w).usedOffY = s.usedOffY := rfl
@[simp] theorem State.accept_effW (s : State) (w : Word) : (s.accept w).effW = s.effW := rfl
@[simp] theorem State.accept_effH (s : State) (w : Word) : (s.accept w).effH = s.effH := rfl
@[simp] theorem State.accept_modelSel (s : State) (w : Word) : (s.accept w).modelSel = s.modelSel := rfl
@[simp] theorem State.accept_attrFill (s : State) (w : Word) : (s.accept w).attrFill = s.attrFill := rfl
@[simp] theorem State.accept_unmatchedCnt (s : State) (w : Word) : (s.accept w).unmatchedCnt = s.unmatchedCnt := rfl
@[simp] theorem State.accept_decMissCnt (s : State) (w : Word) : (s.accept w).decMissCnt = s.decMissCnt := rfl
@[simp] theorem State.accept_inLen (s : State) (w : Word) : (s.accept w).inLen = s.inLen := rfl
@[simp] theorem State.accept_result (s : State) (w : Word) : (s.accept w).result = s.result := rfl
@[simp] theorem State.accept_resultPatLo (s : State) (w : Word) : (s.accept w).resultPatLo = s.resultPatLo := rfl
@[simp] theorem State.accept_resultPatHi (s : State) (w : Word) : (s.accept w).resultPatHi = s.resultPatHi := rfl
@[simp] theorem State.accept_gtPatLo (s : State) (w : Word) : (s.accept w).gtPatLo = s.gtPatLo := rfl
@[simp] theorem State.accept_gtPatHi (s : State) (w : Word) : (s.accept w).gtPatHi = s.gtPatHi := rfl
@[simp] theorem State.accept_gtCode (s : State) (w : Word) : (s.accept w).gtCode = s.gtCode := rfl
@[simp] theorem State.accept_gtCountA (s : State) (w : Word) : (s.accept w).gtCountA = s.gtCountA := rfl
@[simp] theorem State.accept_gtCountB (s : State) (w : Word) : (s.accept w).gtCountB = s.gtCountB := rfl
@[simp] theorem State.accept_gtA (s : State) (w : Word) : (s.accept w).gtA = s.gtA := rfl
@[simp] theorem State.accept_gtB (s : State) (w : Word) : (s.accept w).gtB = s.gtB := rfl
@[simp] theorem State.accept_seqStep (s : State) (w : Word) :
    (s.accept w).seqStep = 0 := rfl
@[simp] theorem State.accept_mem (s : State) (w : Word) : (s.accept w).mem = s.mem := rfl
@[simp] theorem State.accept_memDraw (s : State) (w : Word) : (s.accept w).memDraw = s.memDraw := rfl
@[simp] theorem State.accept_draws (s : State) (w : Word) : (s.accept w).draws = s.draws := rfl
@[simp] theorem State.accept_events (s : State) (w : Word) : (s.accept w).events = s.events := rfl
@[simp] theorem State.accept_responses (s : State) (w : Word) : (s.accept w).responses = s.responses := rfl

/-! ### State.respond -/

@[simp] theorem State.respond_params (s : State) (r : Response) : (s.respond r).params = s.params := rfl
@[simp] theorem State.respond_gtLock (s : State) (r : Response) : (s.respond r).gtLock = s.gtLock := rfl
@[simp] theorem State.respond_busy (s : State) (r : Response) : (s.respond r).busy = s.busy := rfl
@[simp] theorem State.respond_partialMatch (s : State) (r : Response) :
    (s.respond r).partialMatch = s.partialMatch := rfl
@[simp] theorem State.respond_scaled (s : State) (r : Response) : (s.respond r).scaled = s.scaled := rfl
@[simp] theorem State.respond_decPartial (s : State) (r : Response) : (s.respond r).decPartial = s.decPartial := rfl
@[simp] theorem State.respond_cmdOverrun (s : State) (r : Response) : (s.respond r).cmdOverrun = s.cmdOverrun := rfl
@[simp] theorem State.respond_busyWrite (s : State) (r : Response) : (s.respond r).busyWrite = s.busyWrite := rfl
@[simp] theorem State.respond_cmd (s : State) (r : Response) : (s.respond r).cmd = s.cmd := rfl
@[simp] theorem State.respond_errCause (s : State) (r : Response) : (s.respond r).errCause = s.errCause := rfl
@[simp] theorem State.respond_doneEn (s : State) (r : Response) : (s.respond r).doneEn = s.doneEn := rfl
@[simp] theorem State.respond_errEn (s : State) (r : Response) : (s.respond r).errEn = s.errEn := rfl
@[simp] theorem State.respond_intDone (s : State) (r : Response) : (s.respond r).intDone = s.intDone := rfl
@[simp] theorem State.respond_intErr (s : State) (r : Response) : (s.respond r).intErr = s.intErr := rfl
@[simp] theorem State.respond_srcW (s : State) (r : Response) : (s.respond r).srcW = s.srcW := rfl
@[simp] theorem State.respond_srcH (s : State) (r : Response) : (s.respond r).srcH = s.srcH := rfl
@[simp] theorem State.respond_reqOffX (s : State) (r : Response) : (s.respond r).reqOffX = s.reqOffX := rfl
@[simp] theorem State.respond_reqOffY (s : State) (r : Response) : (s.respond r).reqOffY = s.reqOffY := rfl
@[simp] theorem State.respond_usedOffX (s : State) (r : Response) : (s.respond r).usedOffX = s.usedOffX := rfl
@[simp] theorem State.respond_usedOffY (s : State) (r : Response) : (s.respond r).usedOffY = s.usedOffY := rfl
@[simp] theorem State.respond_effW (s : State) (r : Response) : (s.respond r).effW = s.effW := rfl
@[simp] theorem State.respond_effH (s : State) (r : Response) : (s.respond r).effH = s.effH := rfl
@[simp] theorem State.respond_modelSel (s : State) (r : Response) : (s.respond r).modelSel = s.modelSel := rfl
@[simp] theorem State.respond_attrFill (s : State) (r : Response) : (s.respond r).attrFill = s.attrFill := rfl
@[simp] theorem State.respond_unmatchedCnt (s : State) (r : Response) :
    (s.respond r).unmatchedCnt = s.unmatchedCnt := rfl
@[simp] theorem State.respond_decMissCnt (s : State) (r : Response) : (s.respond r).decMissCnt = s.decMissCnt := rfl
@[simp] theorem State.respond_inLen (s : State) (r : Response) : (s.respond r).inLen = s.inLen := rfl
@[simp] theorem State.respond_result (s : State) (r : Response) : (s.respond r).result = s.result := rfl
@[simp] theorem State.respond_resultPatLo (s : State) (r : Response) :
    (s.respond r).resultPatLo = s.resultPatLo := rfl
@[simp] theorem State.respond_resultPatHi (s : State) (r : Response) :
    (s.respond r).resultPatHi = s.resultPatHi := rfl
@[simp] theorem State.respond_gtPatLo (s : State) (r : Response) : (s.respond r).gtPatLo = s.gtPatLo := rfl
@[simp] theorem State.respond_gtPatHi (s : State) (r : Response) : (s.respond r).gtPatHi = s.gtPatHi := rfl
@[simp] theorem State.respond_gtCode (s : State) (r : Response) : (s.respond r).gtCode = s.gtCode := rfl
@[simp] theorem State.respond_gtCountA (s : State) (r : Response) : (s.respond r).gtCountA = s.gtCountA := rfl
@[simp] theorem State.respond_gtCountB (s : State) (r : Response) : (s.respond r).gtCountB = s.gtCountB := rfl
@[simp] theorem State.respond_gtA (s : State) (r : Response) : (s.respond r).gtA = s.gtA := rfl
@[simp] theorem State.respond_gtB (s : State) (r : Response) : (s.respond r).gtB = s.gtB := rfl
@[simp] theorem State.respond_seqStep (s : State) (r : Response) : (s.respond r).seqStep = s.seqStep := rfl
@[simp] theorem State.respond_mem (s : State) (r : Response) : (s.respond r).mem = s.mem := rfl
@[simp] theorem State.respond_memDraw (s : State) (r : Response) : (s.respond r).memDraw = s.memDraw := rfl
@[simp] theorem State.respond_draws (s : State) (r : Response) : (s.respond r).draws = s.draws := rfl
@[simp] theorem State.respond_events (s : State) (r : Response) : (s.respond r).events = s.events := rfl
@[simp] theorem State.respond_responses (s : State) (r : Response) :
    (s.respond r).responses = r :: s.responses := rfl

/-! ### State.acknowledge -/

@[simp] theorem State.acknowledge_params (s : State) (v : Word) : (s.acknowledge v).params = s.params := rfl
@[simp] theorem State.acknowledge_gtLock (s : State) (v : Word) : (s.acknowledge v).gtLock = s.gtLock := rfl
@[simp] theorem State.acknowledge_busy (s : State) (v : Word) : (s.acknowledge v).busy = s.busy := rfl
@[simp] theorem State.acknowledge_partialMatch (s : State) (v : Word) :
    (s.acknowledge v).partialMatch = s.partialMatch := rfl
@[simp] theorem State.acknowledge_scaled (s : State) (v : Word) : (s.acknowledge v).scaled = s.scaled := rfl
@[simp] theorem State.acknowledge_decPartial (s : State) (v : Word) :
    (s.acknowledge v).decPartial = s.decPartial := rfl
@[simp] theorem State.acknowledge_cmdOverrun (s : State) (v : Word) :
    (s.acknowledge v).cmdOverrun = s.cmdOverrun := rfl
@[simp] theorem State.acknowledge_busyWrite (s : State) (v : Word) : (s.acknowledge v).busyWrite = s.busyWrite := rfl
@[simp] theorem State.acknowledge_cmd (s : State) (v : Word) : (s.acknowledge v).cmd = s.cmd := rfl
@[simp] theorem State.acknowledge_errCause (s : State) (v : Word) : (s.acknowledge v).errCause = s.errCause := rfl
@[simp] theorem State.acknowledge_doneEn (s : State) (v : Word) : (s.acknowledge v).doneEn = s.doneEn := rfl
@[simp] theorem State.acknowledge_errEn (s : State) (v : Word) : (s.acknowledge v).errEn = s.errEn := rfl
@[simp] theorem State.acknowledge_intDone (s : State) (v : Word) :
    (s.acknowledge v).intDone = (s.intDone && !v.getLsbD 0) := rfl
@[simp] theorem State.acknowledge_intErr (s : State) (v : Word) :
    (s.acknowledge v).intErr = (s.intErr && !v.getLsbD 1) := rfl
@[simp] theorem State.acknowledge_srcW (s : State) (v : Word) : (s.acknowledge v).srcW = s.srcW := rfl
@[simp] theorem State.acknowledge_srcH (s : State) (v : Word) : (s.acknowledge v).srcH = s.srcH := rfl
@[simp] theorem State.acknowledge_reqOffX (s : State) (v : Word) : (s.acknowledge v).reqOffX = s.reqOffX := rfl
@[simp] theorem State.acknowledge_reqOffY (s : State) (v : Word) : (s.acknowledge v).reqOffY = s.reqOffY := rfl
@[simp] theorem State.acknowledge_usedOffX (s : State) (v : Word) : (s.acknowledge v).usedOffX = s.usedOffX := rfl
@[simp] theorem State.acknowledge_usedOffY (s : State) (v : Word) : (s.acknowledge v).usedOffY = s.usedOffY := rfl
@[simp] theorem State.acknowledge_effW (s : State) (v : Word) : (s.acknowledge v).effW = s.effW := rfl
@[simp] theorem State.acknowledge_effH (s : State) (v : Word) : (s.acknowledge v).effH = s.effH := rfl
@[simp] theorem State.acknowledge_modelSel (s : State) (v : Word) : (s.acknowledge v).modelSel = s.modelSel := rfl
@[simp] theorem State.acknowledge_attrFill (s : State) (v : Word) : (s.acknowledge v).attrFill = s.attrFill := rfl
@[simp] theorem State.acknowledge_unmatchedCnt (s : State) (v : Word) :
    (s.acknowledge v).unmatchedCnt = s.unmatchedCnt := rfl
@[simp] theorem State.acknowledge_decMissCnt (s : State) (v : Word) :
    (s.acknowledge v).decMissCnt = s.decMissCnt := rfl
@[simp] theorem State.acknowledge_inLen (s : State) (v : Word) : (s.acknowledge v).inLen = s.inLen := rfl
@[simp] theorem State.acknowledge_result (s : State) (v : Word) : (s.acknowledge v).result = s.result := rfl
@[simp] theorem State.acknowledge_resultPatLo (s : State) (v : Word) :
    (s.acknowledge v).resultPatLo = s.resultPatLo := rfl
@[simp] theorem State.acknowledge_resultPatHi (s : State) (v : Word) :
    (s.acknowledge v).resultPatHi = s.resultPatHi := rfl
@[simp] theorem State.acknowledge_gtPatLo (s : State) (v : Word) : (s.acknowledge v).gtPatLo = s.gtPatLo := rfl
@[simp] theorem State.acknowledge_gtPatHi (s : State) (v : Word) : (s.acknowledge v).gtPatHi = s.gtPatHi := rfl
@[simp] theorem State.acknowledge_gtCode (s : State) (v : Word) : (s.acknowledge v).gtCode = s.gtCode := rfl
@[simp] theorem State.acknowledge_gtCountA (s : State) (v : Word) : (s.acknowledge v).gtCountA = s.gtCountA := rfl
@[simp] theorem State.acknowledge_gtCountB (s : State) (v : Word) : (s.acknowledge v).gtCountB = s.gtCountB := rfl
@[simp] theorem State.acknowledge_gtA (s : State) (v : Word) : (s.acknowledge v).gtA = s.gtA := rfl
@[simp] theorem State.acknowledge_gtB (s : State) (v : Word) : (s.acknowledge v).gtB = s.gtB := rfl
@[simp] theorem State.acknowledge_seqStep (s : State) (v : Word) : (s.acknowledge v).seqStep = s.seqStep := rfl
@[simp] theorem State.acknowledge_mem (s : State) (v : Word) : (s.acknowledge v).mem = s.mem := rfl
@[simp] theorem State.acknowledge_memDraw (s : State) (v : Word) : (s.acknowledge v).memDraw = s.memDraw := rfl
@[simp] theorem State.acknowledge_draws (s : State) (v : Word) : (s.acknowledge v).draws = s.draws := rfl
@[simp] theorem State.acknowledge_events (s : State) (v : Word) : (s.acknowledge v).events = s.events := rfl
@[simp] theorem State.acknowledge_responses (s : State) (v : Word) : (s.acknowledge v).responses = s.responses := rfl

/-! ### State.setIntEn -/

@[simp] theorem State.setIntEn_params (s : State) (v : Word) : (s.setIntEn v).params = s.params := rfl
@[simp] theorem State.setIntEn_gtLock (s : State) (v : Word) : (s.setIntEn v).gtLock = s.gtLock := rfl
@[simp] theorem State.setIntEn_busy (s : State) (v : Word) : (s.setIntEn v).busy = s.busy := rfl
@[simp] theorem State.setIntEn_partialMatch (s : State) (v : Word) :
    (s.setIntEn v).partialMatch = s.partialMatch := rfl
@[simp] theorem State.setIntEn_scaled (s : State) (v : Word) : (s.setIntEn v).scaled = s.scaled := rfl
@[simp] theorem State.setIntEn_decPartial (s : State) (v : Word) : (s.setIntEn v).decPartial = s.decPartial := rfl
@[simp] theorem State.setIntEn_cmdOverrun (s : State) (v : Word) : (s.setIntEn v).cmdOverrun = s.cmdOverrun := rfl
@[simp] theorem State.setIntEn_busyWrite (s : State) (v : Word) : (s.setIntEn v).busyWrite = s.busyWrite := rfl
@[simp] theorem State.setIntEn_cmd (s : State) (v : Word) : (s.setIntEn v).cmd = s.cmd := rfl
@[simp] theorem State.setIntEn_errCause (s : State) (v : Word) : (s.setIntEn v).errCause = s.errCause := rfl
@[simp] theorem State.setIntEn_doneEn (s : State) (v : Word) :
    (s.setIntEn v).doneEn = v.getLsbD 0 := rfl
@[simp] theorem State.setIntEn_errEn (s : State) (v : Word) :
    (s.setIntEn v).errEn = v.getLsbD 1 := rfl
@[simp] theorem State.setIntEn_intDone (s : State) (v : Word) : (s.setIntEn v).intDone = s.intDone := rfl
@[simp] theorem State.setIntEn_intErr (s : State) (v : Word) : (s.setIntEn v).intErr = s.intErr := rfl
@[simp] theorem State.setIntEn_srcW (s : State) (v : Word) : (s.setIntEn v).srcW = s.srcW := rfl
@[simp] theorem State.setIntEn_srcH (s : State) (v : Word) : (s.setIntEn v).srcH = s.srcH := rfl
@[simp] theorem State.setIntEn_reqOffX (s : State) (v : Word) : (s.setIntEn v).reqOffX = s.reqOffX := rfl
@[simp] theorem State.setIntEn_reqOffY (s : State) (v : Word) : (s.setIntEn v).reqOffY = s.reqOffY := rfl
@[simp] theorem State.setIntEn_usedOffX (s : State) (v : Word) : (s.setIntEn v).usedOffX = s.usedOffX := rfl
@[simp] theorem State.setIntEn_usedOffY (s : State) (v : Word) : (s.setIntEn v).usedOffY = s.usedOffY := rfl
@[simp] theorem State.setIntEn_effW (s : State) (v : Word) : (s.setIntEn v).effW = s.effW := rfl
@[simp] theorem State.setIntEn_effH (s : State) (v : Word) : (s.setIntEn v).effH = s.effH := rfl
@[simp] theorem State.setIntEn_modelSel (s : State) (v : Word) : (s.setIntEn v).modelSel = s.modelSel := rfl
@[simp] theorem State.setIntEn_attrFill (s : State) (v : Word) : (s.setIntEn v).attrFill = s.attrFill := rfl
@[simp] theorem State.setIntEn_unmatchedCnt (s : State) (v : Word) :
    (s.setIntEn v).unmatchedCnt = s.unmatchedCnt := rfl
@[simp] theorem State.setIntEn_decMissCnt (s : State) (v : Word) : (s.setIntEn v).decMissCnt = s.decMissCnt := rfl
@[simp] theorem State.setIntEn_inLen (s : State) (v : Word) : (s.setIntEn v).inLen = s.inLen := rfl
@[simp] theorem State.setIntEn_result (s : State) (v : Word) : (s.setIntEn v).result = s.result := rfl
@[simp] theorem State.setIntEn_resultPatLo (s : State) (v : Word) : (s.setIntEn v).resultPatLo = s.resultPatLo := rfl
@[simp] theorem State.setIntEn_resultPatHi (s : State) (v : Word) : (s.setIntEn v).resultPatHi = s.resultPatHi := rfl
@[simp] theorem State.setIntEn_gtPatLo (s : State) (v : Word) : (s.setIntEn v).gtPatLo = s.gtPatLo := rfl
@[simp] theorem State.setIntEn_gtPatHi (s : State) (v : Word) : (s.setIntEn v).gtPatHi = s.gtPatHi := rfl
@[simp] theorem State.setIntEn_gtCode (s : State) (v : Word) : (s.setIntEn v).gtCode = s.gtCode := rfl
@[simp] theorem State.setIntEn_gtCountA (s : State) (v : Word) : (s.setIntEn v).gtCountA = s.gtCountA := rfl
@[simp] theorem State.setIntEn_gtCountB (s : State) (v : Word) : (s.setIntEn v).gtCountB = s.gtCountB := rfl
@[simp] theorem State.setIntEn_gtA (s : State) (v : Word) : (s.setIntEn v).gtA = s.gtA := rfl
@[simp] theorem State.setIntEn_gtB (s : State) (v : Word) : (s.setIntEn v).gtB = s.gtB := rfl
@[simp] theorem State.setIntEn_seqStep (s : State) (v : Word) : (s.setIntEn v).seqStep = s.seqStep := rfl
@[simp] theorem State.setIntEn_mem (s : State) (v : Word) : (s.setIntEn v).mem = s.mem := rfl
@[simp] theorem State.setIntEn_memDraw (s : State) (v : Word) : (s.setIntEn v).memDraw = s.memDraw := rfl
@[simp] theorem State.setIntEn_draws (s : State) (v : Word) : (s.setIntEn v).draws = s.draws := rfl
@[simp] theorem State.setIntEn_events (s : State) (v : Word) : (s.setIntEn v).events = s.events := rfl
@[simp] theorem State.setIntEn_responses (s : State) (v : Word) : (s.setIntEn v).responses = s.responses := rfl

/-! ### State.clearStatus -/

@[simp] theorem State.clearStatus_params (s : State) (v : Word) : (s.clearStatus v).params = s.params := rfl
@[simp] theorem State.clearStatus_gtLock (s : State) (v : Word) : (s.clearStatus v).gtLock = s.gtLock := rfl
@[simp] theorem State.clearStatus_busy (s : State) (v : Word) : (s.clearStatus v).busy = s.busy := rfl
@[simp] theorem State.clearStatus_partialMatch (s : State) (v : Word) :
    (s.clearStatus v).partialMatch = s.partialMatch := rfl
@[simp] theorem State.clearStatus_scaled (s : State) (v : Word) : (s.clearStatus v).scaled = s.scaled := rfl
@[simp] theorem State.clearStatus_decPartial (s : State) (v : Word) :
    (s.clearStatus v).decPartial = s.decPartial := rfl
@[simp] theorem State.clearStatus_cmdOverrun (s : State) (v : Word) :
    (s.clearStatus v).cmdOverrun = (s.cmdOverrun && !v.getLsbD 5) := rfl
@[simp] theorem State.clearStatus_busyWrite (s : State) (v : Word) :
    (s.clearStatus v).busyWrite = (s.busyWrite && !v.getLsbD 6) := rfl
@[simp] theorem State.clearStatus_cmd (s : State) (v : Word) : (s.clearStatus v).cmd = s.cmd := rfl
@[simp] theorem State.clearStatus_errCause (s : State) (v : Word) : (s.clearStatus v).errCause = s.errCause := rfl
@[simp] theorem State.clearStatus_doneEn (s : State) (v : Word) : (s.clearStatus v).doneEn = s.doneEn := rfl
@[simp] theorem State.clearStatus_errEn (s : State) (v : Word) : (s.clearStatus v).errEn = s.errEn := rfl
@[simp] theorem State.clearStatus_intDone (s : State) (v : Word) : (s.clearStatus v).intDone = s.intDone := rfl
@[simp] theorem State.clearStatus_intErr (s : State) (v : Word) : (s.clearStatus v).intErr = s.intErr := rfl
@[simp] theorem State.clearStatus_srcW (s : State) (v : Word) : (s.clearStatus v).srcW = s.srcW := rfl
@[simp] theorem State.clearStatus_srcH (s : State) (v : Word) : (s.clearStatus v).srcH = s.srcH := rfl
@[simp] theorem State.clearStatus_reqOffX (s : State) (v : Word) : (s.clearStatus v).reqOffX = s.reqOffX := rfl
@[simp] theorem State.clearStatus_reqOffY (s : State) (v : Word) : (s.clearStatus v).reqOffY = s.reqOffY := rfl
@[simp] theorem State.clearStatus_usedOffX (s : State) (v : Word) : (s.clearStatus v).usedOffX = s.usedOffX := rfl
@[simp] theorem State.clearStatus_usedOffY (s : State) (v : Word) : (s.clearStatus v).usedOffY = s.usedOffY := rfl
@[simp] theorem State.clearStatus_effW (s : State) (v : Word) : (s.clearStatus v).effW = s.effW := rfl
@[simp] theorem State.clearStatus_effH (s : State) (v : Word) : (s.clearStatus v).effH = s.effH := rfl
@[simp] theorem State.clearStatus_modelSel (s : State) (v : Word) : (s.clearStatus v).modelSel = s.modelSel := rfl
@[simp] theorem State.clearStatus_attrFill (s : State) (v : Word) : (s.clearStatus v).attrFill = s.attrFill := rfl
@[simp] theorem State.clearStatus_unmatchedCnt (s : State) (v : Word) :
    (s.clearStatus v).unmatchedCnt = s.unmatchedCnt := rfl
@[simp] theorem State.clearStatus_decMissCnt (s : State) (v : Word) :
    (s.clearStatus v).decMissCnt = s.decMissCnt := rfl
@[simp] theorem State.clearStatus_inLen (s : State) (v : Word) : (s.clearStatus v).inLen = s.inLen := rfl
@[simp] theorem State.clearStatus_result (s : State) (v : Word) : (s.clearStatus v).result = s.result := rfl
@[simp] theorem State.clearStatus_resultPatLo (s : State) (v : Word) :
    (s.clearStatus v).resultPatLo = s.resultPatLo := rfl
@[simp] theorem State.clearStatus_resultPatHi (s : State) (v : Word) :
    (s.clearStatus v).resultPatHi = s.resultPatHi := rfl
@[simp] theorem State.clearStatus_gtPatLo (s : State) (v : Word) : (s.clearStatus v).gtPatLo = s.gtPatLo := rfl
@[simp] theorem State.clearStatus_gtPatHi (s : State) (v : Word) : (s.clearStatus v).gtPatHi = s.gtPatHi := rfl
@[simp] theorem State.clearStatus_gtCode (s : State) (v : Word) : (s.clearStatus v).gtCode = s.gtCode := rfl
@[simp] theorem State.clearStatus_gtCountA (s : State) (v : Word) : (s.clearStatus v).gtCountA = s.gtCountA := rfl
@[simp] theorem State.clearStatus_gtCountB (s : State) (v : Word) : (s.clearStatus v).gtCountB = s.gtCountB := rfl
@[simp] theorem State.clearStatus_gtA (s : State) (v : Word) : (s.clearStatus v).gtA = s.gtA := rfl
@[simp] theorem State.clearStatus_gtB (s : State) (v : Word) : (s.clearStatus v).gtB = s.gtB := rfl
@[simp] theorem State.clearStatus_seqStep (s : State) (v : Word) : (s.clearStatus v).seqStep = s.seqStep := rfl
@[simp] theorem State.clearStatus_mem (s : State) (v : Word) : (s.clearStatus v).mem = s.mem := rfl
@[simp] theorem State.clearStatus_memDraw (s : State) (v : Word) : (s.clearStatus v).memDraw = s.memDraw := rfl
@[simp] theorem State.clearStatus_draws (s : State) (v : Word) : (s.clearStatus v).draws = s.draws := rfl
@[simp] theorem State.clearStatus_events (s : State) (v : Word) : (s.clearStatus v).events = s.events := rfl
@[simp] theorem State.clearStatus_responses (s : State) (v : Word) : (s.clearStatus v).responses = s.responses := rfl

/-! ### State.setUnmatched -/

@[simp] theorem State.setUnmatched_params (s : State) (n : Nat) : (s.setUnmatched n).params = s.params := rfl
@[simp] theorem State.setUnmatched_gtLock (s : State) (n : Nat) : (s.setUnmatched n).gtLock = s.gtLock := rfl
@[simp] theorem State.setUnmatched_busy (s : State) (n : Nat) : (s.setUnmatched n).busy = s.busy := rfl
@[simp] theorem State.setUnmatched_partialMatch (s : State) (n : Nat) :
    (s.setUnmatched n).partialMatch = decide (n ≠ 0) := rfl
@[simp] theorem State.setUnmatched_scaled (s : State) (n : Nat) : (s.setUnmatched n).scaled = s.scaled := rfl
@[simp] theorem State.setUnmatched_decPartial (s : State) (n : Nat) :
    (s.setUnmatched n).decPartial = s.decPartial := rfl
@[simp] theorem State.setUnmatched_cmdOverrun (s : State) (n : Nat) :
    (s.setUnmatched n).cmdOverrun = s.cmdOverrun := rfl
@[simp] theorem State.setUnmatched_busyWrite (s : State) (n : Nat) : (s.setUnmatched n).busyWrite = s.busyWrite := rfl
@[simp] theorem State.setUnmatched_cmd (s : State) (n : Nat) : (s.setUnmatched n).cmd = s.cmd := rfl
@[simp] theorem State.setUnmatched_errCause (s : State) (n : Nat) : (s.setUnmatched n).errCause = s.errCause := rfl
@[simp] theorem State.setUnmatched_doneEn (s : State) (n : Nat) : (s.setUnmatched n).doneEn = s.doneEn := rfl
@[simp] theorem State.setUnmatched_errEn (s : State) (n : Nat) : (s.setUnmatched n).errEn = s.errEn := rfl
@[simp] theorem State.setUnmatched_intDone (s : State) (n : Nat) : (s.setUnmatched n).intDone = s.intDone := rfl
@[simp] theorem State.setUnmatched_intErr (s : State) (n : Nat) : (s.setUnmatched n).intErr = s.intErr := rfl
@[simp] theorem State.setUnmatched_srcW (s : State) (n : Nat) : (s.setUnmatched n).srcW = s.srcW := rfl
@[simp] theorem State.setUnmatched_srcH (s : State) (n : Nat) : (s.setUnmatched n).srcH = s.srcH := rfl
@[simp] theorem State.setUnmatched_reqOffX (s : State) (n : Nat) : (s.setUnmatched n).reqOffX = s.reqOffX := rfl
@[simp] theorem State.setUnmatched_reqOffY (s : State) (n : Nat) : (s.setUnmatched n).reqOffY = s.reqOffY := rfl
@[simp] theorem State.setUnmatched_usedOffX (s : State) (n : Nat) : (s.setUnmatched n).usedOffX = s.usedOffX := rfl
@[simp] theorem State.setUnmatched_usedOffY (s : State) (n : Nat) : (s.setUnmatched n).usedOffY = s.usedOffY := rfl
@[simp] theorem State.setUnmatched_effW (s : State) (n : Nat) : (s.setUnmatched n).effW = s.effW := rfl
@[simp] theorem State.setUnmatched_effH (s : State) (n : Nat) : (s.setUnmatched n).effH = s.effH := rfl
@[simp] theorem State.setUnmatched_modelSel (s : State) (n : Nat) : (s.setUnmatched n).modelSel = s.modelSel := rfl
@[simp] theorem State.setUnmatched_attrFill (s : State) (n : Nat) : (s.setUnmatched n).attrFill = s.attrFill := rfl
@[simp] theorem State.setUnmatched_unmatchedCnt (s : State) (n : Nat) :
    (s.setUnmatched n).unmatchedCnt = BitVec.ofNat 10 n := rfl
@[simp] theorem State.setUnmatched_decMissCnt (s : State) (n : Nat) :
    (s.setUnmatched n).decMissCnt = s.decMissCnt := rfl
@[simp] theorem State.setUnmatched_inLen (s : State) (n : Nat) : (s.setUnmatched n).inLen = s.inLen := rfl
@[simp] theorem State.setUnmatched_result (s : State) (n : Nat) : (s.setUnmatched n).result = s.result := rfl
@[simp] theorem State.setUnmatched_resultPatLo (s : State) (n : Nat) :
    (s.setUnmatched n).resultPatLo = s.resultPatLo := rfl
@[simp] theorem State.setUnmatched_resultPatHi (s : State) (n : Nat) :
    (s.setUnmatched n).resultPatHi = s.resultPatHi := rfl
@[simp] theorem State.setUnmatched_gtPatLo (s : State) (n : Nat) : (s.setUnmatched n).gtPatLo = s.gtPatLo := rfl
@[simp] theorem State.setUnmatched_gtPatHi (s : State) (n : Nat) : (s.setUnmatched n).gtPatHi = s.gtPatHi := rfl
@[simp] theorem State.setUnmatched_gtCode (s : State) (n : Nat) : (s.setUnmatched n).gtCode = s.gtCode := rfl
@[simp] theorem State.setUnmatched_gtCountA (s : State) (n : Nat) : (s.setUnmatched n).gtCountA = s.gtCountA := rfl
@[simp] theorem State.setUnmatched_gtCountB (s : State) (n : Nat) : (s.setUnmatched n).gtCountB = s.gtCountB := rfl
@[simp] theorem State.setUnmatched_gtA (s : State) (n : Nat) : (s.setUnmatched n).gtA = s.gtA := rfl
@[simp] theorem State.setUnmatched_gtB (s : State) (n : Nat) : (s.setUnmatched n).gtB = s.gtB := rfl
@[simp] theorem State.setUnmatched_seqStep (s : State) (n : Nat) : (s.setUnmatched n).seqStep = s.seqStep := rfl
@[simp] theorem State.setUnmatched_mem (s : State) (n : Nat) : (s.setUnmatched n).mem = s.mem := rfl
@[simp] theorem State.setUnmatched_memDraw (s : State) (n : Nat) : (s.setUnmatched n).memDraw = s.memDraw := rfl
@[simp] theorem State.setUnmatched_draws (s : State) (n : Nat) : (s.setUnmatched n).draws = s.draws := rfl
@[simp] theorem State.setUnmatched_events (s : State) (n : Nat) : (s.setUnmatched n).events = s.events := rfl
@[simp] theorem State.setUnmatched_responses (s : State) (n : Nat) : (s.setUnmatched n).responses = s.responses := rfl

/-! ### State.setMissed -/

@[simp] theorem State.setMissed_params (s : State) (n : Nat) : (s.setMissed n).params = s.params := rfl
@[simp] theorem State.setMissed_gtLock (s : State) (n : Nat) : (s.setMissed n).gtLock = s.gtLock := rfl
@[simp] theorem State.setMissed_busy (s : State) (n : Nat) : (s.setMissed n).busy = s.busy := rfl
@[simp] theorem State.setMissed_partialMatch (s : State) (n : Nat) :
    (s.setMissed n).partialMatch = s.partialMatch := rfl
@[simp] theorem State.setMissed_scaled (s : State) (n : Nat) : (s.setMissed n).scaled = s.scaled := rfl
@[simp] theorem State.setMissed_decPartial (s : State) (n : Nat) :
    (s.setMissed n).decPartial = decide (n ≠ 0) := rfl
@[simp] theorem State.setMissed_cmdOverrun (s : State) (n : Nat) : (s.setMissed n).cmdOverrun = s.cmdOverrun := rfl
@[simp] theorem State.setMissed_busyWrite (s : State) (n : Nat) : (s.setMissed n).busyWrite = s.busyWrite := rfl
@[simp] theorem State.setMissed_cmd (s : State) (n : Nat) : (s.setMissed n).cmd = s.cmd := rfl
@[simp] theorem State.setMissed_errCause (s : State) (n : Nat) : (s.setMissed n).errCause = s.errCause := rfl
@[simp] theorem State.setMissed_doneEn (s : State) (n : Nat) : (s.setMissed n).doneEn = s.doneEn := rfl
@[simp] theorem State.setMissed_errEn (s : State) (n : Nat) : (s.setMissed n).errEn = s.errEn := rfl
@[simp] theorem State.setMissed_intDone (s : State) (n : Nat) : (s.setMissed n).intDone = s.intDone := rfl
@[simp] theorem State.setMissed_intErr (s : State) (n : Nat) : (s.setMissed n).intErr = s.intErr := rfl
@[simp] theorem State.setMissed_srcW (s : State) (n : Nat) : (s.setMissed n).srcW = s.srcW := rfl
@[simp] theorem State.setMissed_srcH (s : State) (n : Nat) : (s.setMissed n).srcH = s.srcH := rfl
@[simp] theorem State.setMissed_reqOffX (s : State) (n : Nat) : (s.setMissed n).reqOffX = s.reqOffX := rfl
@[simp] theorem State.setMissed_reqOffY (s : State) (n : Nat) : (s.setMissed n).reqOffY = s.reqOffY := rfl
@[simp] theorem State.setMissed_usedOffX (s : State) (n : Nat) : (s.setMissed n).usedOffX = s.usedOffX := rfl
@[simp] theorem State.setMissed_usedOffY (s : State) (n : Nat) : (s.setMissed n).usedOffY = s.usedOffY := rfl
@[simp] theorem State.setMissed_effW (s : State) (n : Nat) : (s.setMissed n).effW = s.effW := rfl
@[simp] theorem State.setMissed_effH (s : State) (n : Nat) : (s.setMissed n).effH = s.effH := rfl
@[simp] theorem State.setMissed_modelSel (s : State) (n : Nat) : (s.setMissed n).modelSel = s.modelSel := rfl
@[simp] theorem State.setMissed_attrFill (s : State) (n : Nat) : (s.setMissed n).attrFill = s.attrFill := rfl
@[simp] theorem State.setMissed_unmatchedCnt (s : State) (n : Nat) :
    (s.setMissed n).unmatchedCnt = s.unmatchedCnt := rfl
@[simp] theorem State.setMissed_decMissCnt (s : State) (n : Nat) :
    (s.setMissed n).decMissCnt = BitVec.ofNat 10 n := rfl
@[simp] theorem State.setMissed_inLen (s : State) (n : Nat) : (s.setMissed n).inLen = s.inLen := rfl
@[simp] theorem State.setMissed_result (s : State) (n : Nat) : (s.setMissed n).result = s.result := rfl
@[simp] theorem State.setMissed_resultPatLo (s : State) (n : Nat) : (s.setMissed n).resultPatLo = s.resultPatLo := rfl
@[simp] theorem State.setMissed_resultPatHi (s : State) (n : Nat) : (s.setMissed n).resultPatHi = s.resultPatHi := rfl
@[simp] theorem State.setMissed_gtPatLo (s : State) (n : Nat) : (s.setMissed n).gtPatLo = s.gtPatLo := rfl
@[simp] theorem State.setMissed_gtPatHi (s : State) (n : Nat) : (s.setMissed n).gtPatHi = s.gtPatHi := rfl
@[simp] theorem State.setMissed_gtCode (s : State) (n : Nat) : (s.setMissed n).gtCode = s.gtCode := rfl
@[simp] theorem State.setMissed_gtCountA (s : State) (n : Nat) : (s.setMissed n).gtCountA = s.gtCountA := rfl
@[simp] theorem State.setMissed_gtCountB (s : State) (n : Nat) : (s.setMissed n).gtCountB = s.gtCountB := rfl
@[simp] theorem State.setMissed_gtA (s : State) (n : Nat) : (s.setMissed n).gtA = s.gtA := rfl
@[simp] theorem State.setMissed_gtB (s : State) (n : Nat) : (s.setMissed n).gtB = s.gtB := rfl
@[simp] theorem State.setMissed_seqStep (s : State) (n : Nat) : (s.setMissed n).seqStep = s.seqStep := rfl
@[simp] theorem State.setMissed_mem (s : State) (n : Nat) : (s.setMissed n).mem = s.mem := rfl
@[simp] theorem State.setMissed_memDraw (s : State) (n : Nat) : (s.setMissed n).memDraw = s.memDraw := rfl
@[simp] theorem State.setMissed_draws (s : State) (n : Nat) : (s.setMissed n).draws = s.draws := rfl
@[simp] theorem State.setMissed_events (s : State) (n : Nat) : (s.setMissed n).events = s.events := rfl
@[simp] theorem State.setMissed_responses (s : State) (n : Nat) : (s.setMissed n).responses = s.responses := rfl

/-! ### State.drawIf -/

@[simp] theorem State.drawIf_params (s : State) (b : Bool) : (s.drawIf b).params = s.params := rfl
@[simp] theorem State.drawIf_gtLock (s : State) (b : Bool) : (s.drawIf b).gtLock = s.gtLock := rfl
@[simp] theorem State.drawIf_busy (s : State) (b : Bool) : (s.drawIf b).busy = s.busy := rfl
@[simp] theorem State.drawIf_partialMatch (s : State) (b : Bool) : (s.drawIf b).partialMatch = s.partialMatch := rfl
@[simp] theorem State.drawIf_scaled (s : State) (b : Bool) : (s.drawIf b).scaled = s.scaled := rfl
@[simp] theorem State.drawIf_decPartial (s : State) (b : Bool) : (s.drawIf b).decPartial = s.decPartial := rfl
@[simp] theorem State.drawIf_cmdOverrun (s : State) (b : Bool) : (s.drawIf b).cmdOverrun = s.cmdOverrun := rfl
@[simp] theorem State.drawIf_busyWrite (s : State) (b : Bool) : (s.drawIf b).busyWrite = s.busyWrite := rfl
@[simp] theorem State.drawIf_cmd (s : State) (b : Bool) : (s.drawIf b).cmd = s.cmd := rfl
@[simp] theorem State.drawIf_errCause (s : State) (b : Bool) : (s.drawIf b).errCause = s.errCause := rfl
@[simp] theorem State.drawIf_doneEn (s : State) (b : Bool) : (s.drawIf b).doneEn = s.doneEn := rfl
@[simp] theorem State.drawIf_errEn (s : State) (b : Bool) : (s.drawIf b).errEn = s.errEn := rfl
@[simp] theorem State.drawIf_intDone (s : State) (b : Bool) : (s.drawIf b).intDone = s.intDone := rfl
@[simp] theorem State.drawIf_intErr (s : State) (b : Bool) : (s.drawIf b).intErr = s.intErr := rfl
@[simp] theorem State.drawIf_srcW (s : State) (b : Bool) : (s.drawIf b).srcW = s.srcW := rfl
@[simp] theorem State.drawIf_srcH (s : State) (b : Bool) : (s.drawIf b).srcH = s.srcH := rfl
@[simp] theorem State.drawIf_reqOffX (s : State) (b : Bool) : (s.drawIf b).reqOffX = s.reqOffX := rfl
@[simp] theorem State.drawIf_reqOffY (s : State) (b : Bool) : (s.drawIf b).reqOffY = s.reqOffY := rfl
@[simp] theorem State.drawIf_usedOffX (s : State) (b : Bool) : (s.drawIf b).usedOffX = s.usedOffX := rfl
@[simp] theorem State.drawIf_usedOffY (s : State) (b : Bool) : (s.drawIf b).usedOffY = s.usedOffY := rfl
@[simp] theorem State.drawIf_effW (s : State) (b : Bool) : (s.drawIf b).effW = s.effW := rfl
@[simp] theorem State.drawIf_effH (s : State) (b : Bool) : (s.drawIf b).effH = s.effH := rfl
@[simp] theorem State.drawIf_modelSel (s : State) (b : Bool) : (s.drawIf b).modelSel = s.modelSel := rfl
@[simp] theorem State.drawIf_attrFill (s : State) (b : Bool) : (s.drawIf b).attrFill = s.attrFill := rfl
@[simp] theorem State.drawIf_unmatchedCnt (s : State) (b : Bool) : (s.drawIf b).unmatchedCnt = s.unmatchedCnt := rfl
@[simp] theorem State.drawIf_decMissCnt (s : State) (b : Bool) : (s.drawIf b).decMissCnt = s.decMissCnt := rfl
@[simp] theorem State.drawIf_inLen (s : State) (b : Bool) : (s.drawIf b).inLen = s.inLen := rfl
@[simp] theorem State.drawIf_result (s : State) (b : Bool) : (s.drawIf b).result = s.result := rfl
@[simp] theorem State.drawIf_resultPatLo (s : State) (b : Bool) : (s.drawIf b).resultPatLo = s.resultPatLo := rfl
@[simp] theorem State.drawIf_resultPatHi (s : State) (b : Bool) : (s.drawIf b).resultPatHi = s.resultPatHi := rfl
@[simp] theorem State.drawIf_gtPatLo (s : State) (b : Bool) : (s.drawIf b).gtPatLo = s.gtPatLo := rfl
@[simp] theorem State.drawIf_gtPatHi (s : State) (b : Bool) : (s.drawIf b).gtPatHi = s.gtPatHi := rfl
@[simp] theorem State.drawIf_gtCode (s : State) (b : Bool) : (s.drawIf b).gtCode = s.gtCode := rfl
@[simp] theorem State.drawIf_gtCountA (s : State) (b : Bool) : (s.drawIf b).gtCountA = s.gtCountA := rfl
@[simp] theorem State.drawIf_gtCountB (s : State) (b : Bool) : (s.drawIf b).gtCountB = s.gtCountB := rfl
@[simp] theorem State.drawIf_gtA (s : State) (b : Bool) : (s.drawIf b).gtA = s.gtA := rfl
@[simp] theorem State.drawIf_gtB (s : State) (b : Bool) : (s.drawIf b).gtB = s.gtB := rfl
@[simp] theorem State.drawIf_seqStep (s : State) (b : Bool) : (s.drawIf b).seqStep = s.seqStep := rfl
@[simp] theorem State.drawIf_mem (s : State) (b : Bool) : (s.drawIf b).mem = s.mem := rfl
@[simp] theorem State.drawIf_memDraw (s : State) (b : Bool) : (s.drawIf b).memDraw = s.memDraw := rfl
@[simp] theorem State.drawIf_draws (s : State) (b : Bool) :
    (s.drawIf b).draws = if b then s.draws + 1 else s.draws := rfl
@[simp] theorem State.drawIf_events (s : State) (b : Bool) : (s.drawIf b).events = s.events := rfl
@[simp] theorem State.drawIf_responses (s : State) (b : Bool) : (s.drawIf b).responses = s.responses := rfl

/-! ### State.resetRegisters -/

@[simp] theorem State.resetRegisters_params (s : State) : s.resetRegisters.params = s.params := rfl
@[simp] theorem State.resetRegisters_gtLock (s : State) : s.resetRegisters.gtLock = State.reset.gtLock := rfl
@[simp] theorem State.resetRegisters_busy (s : State) : s.resetRegisters.busy = State.reset.busy := rfl
@[simp] theorem State.resetRegisters_partialMatch (s : State) : s.resetRegisters.partialMatch = State.reset.partialMatch := rfl
@[simp] theorem State.resetRegisters_scaled (s : State) : s.resetRegisters.scaled = State.reset.scaled := rfl
@[simp] theorem State.resetRegisters_decPartial (s : State) : s.resetRegisters.decPartial = State.reset.decPartial := rfl
@[simp] theorem State.resetRegisters_cmdOverrun (s : State) : s.resetRegisters.cmdOverrun = State.reset.cmdOverrun := rfl
@[simp] theorem State.resetRegisters_busyWrite (s : State) : s.resetRegisters.busyWrite = State.reset.busyWrite := rfl
@[simp] theorem State.resetRegisters_cmd (s : State) : s.resetRegisters.cmd = State.reset.cmd := rfl
@[simp] theorem State.resetRegisters_errCause (s : State) : s.resetRegisters.errCause = State.reset.errCause := rfl
@[simp] theorem State.resetRegisters_doneEn (s : State) : s.resetRegisters.doneEn = State.reset.doneEn := rfl
@[simp] theorem State.resetRegisters_errEn (s : State) : s.resetRegisters.errEn = State.reset.errEn := rfl
@[simp] theorem State.resetRegisters_intDone (s : State) : s.resetRegisters.intDone = State.reset.intDone := rfl
@[simp] theorem State.resetRegisters_intErr (s : State) : s.resetRegisters.intErr = State.reset.intErr := rfl
@[simp] theorem State.resetRegisters_srcW (s : State) : s.resetRegisters.srcW = State.reset.srcW := rfl
@[simp] theorem State.resetRegisters_srcH (s : State) : s.resetRegisters.srcH = State.reset.srcH := rfl
@[simp] theorem State.resetRegisters_reqOffX (s : State) : s.resetRegisters.reqOffX = State.reset.reqOffX := rfl
@[simp] theorem State.resetRegisters_reqOffY (s : State) : s.resetRegisters.reqOffY = State.reset.reqOffY := rfl
@[simp] theorem State.resetRegisters_usedOffX (s : State) : s.resetRegisters.usedOffX = State.reset.usedOffX := rfl
@[simp] theorem State.resetRegisters_usedOffY (s : State) : s.resetRegisters.usedOffY = State.reset.usedOffY := rfl
@[simp] theorem State.resetRegisters_effW (s : State) : s.resetRegisters.effW = State.reset.effW := rfl
@[simp] theorem State.resetRegisters_effH (s : State) : s.resetRegisters.effH = State.reset.effH := rfl
@[simp] theorem State.resetRegisters_modelSel (s : State) : s.resetRegisters.modelSel = State.reset.modelSel := rfl
@[simp] theorem State.resetRegisters_attrFill (s : State) : s.resetRegisters.attrFill = State.reset.attrFill := rfl
@[simp] theorem State.resetRegisters_unmatchedCnt (s : State) : s.resetRegisters.unmatchedCnt = State.reset.unmatchedCnt := rfl
@[simp] theorem State.resetRegisters_decMissCnt (s : State) : s.resetRegisters.decMissCnt = State.reset.decMissCnt := rfl
@[simp] theorem State.resetRegisters_inLen (s : State) : s.resetRegisters.inLen = State.reset.inLen := rfl
@[simp] theorem State.resetRegisters_result (s : State) : s.resetRegisters.result = State.reset.result := rfl
@[simp] theorem State.resetRegisters_resultPatLo (s : State) : s.resetRegisters.resultPatLo = State.reset.resultPatLo := rfl
@[simp] theorem State.resetRegisters_resultPatHi (s : State) : s.resetRegisters.resultPatHi = State.reset.resultPatHi := rfl
@[simp] theorem State.resetRegisters_gtPatLo (s : State) : s.resetRegisters.gtPatLo = State.reset.gtPatLo := rfl
@[simp] theorem State.resetRegisters_gtPatHi (s : State) : s.resetRegisters.gtPatHi = State.reset.gtPatHi := rfl
@[simp] theorem State.resetRegisters_gtCode (s : State) : s.resetRegisters.gtCode = State.reset.gtCode := rfl
@[simp] theorem State.resetRegisters_gtCountA (s : State) : s.resetRegisters.gtCountA = State.reset.gtCountA := rfl
@[simp] theorem State.resetRegisters_gtCountB (s : State) : s.resetRegisters.gtCountB = State.reset.gtCountB := rfl
@[simp] theorem State.resetRegisters_gtA (s : State) : s.resetRegisters.gtA = invalidateAll s.gtA := rfl
@[simp] theorem State.resetRegisters_gtB (s : State) : s.resetRegisters.gtB = invalidateAll s.gtB := rfl
@[simp] theorem State.resetRegisters_seqStep (s : State) : s.resetRegisters.seqStep = State.reset.seqStep := rfl
@[simp] theorem State.resetRegisters_mem (s : State) : s.resetRegisters.mem = s.mem := rfl
@[simp] theorem State.resetRegisters_memDraw (s : State) : s.resetRegisters.memDraw = s.memDraw := rfl
@[simp] theorem State.resetRegisters_draws (s : State) : s.resetRegisters.draws = s.draws := rfl
@[simp] theorem State.resetRegisters_events (s : State) : s.resetRegisters.events = s.events := rfl
@[simp] theorem State.resetRegisters_responses (s : State) : s.resetRegisters.responses = s.responses := rfl

/-! ### State.hardReset -/

@[simp] theorem State.hardReset_params (s : State) : s.hardReset.params = s.params := rfl
@[simp] theorem State.hardReset_gtLock (s : State) : s.hardReset.gtLock = State.reset.gtLock := rfl
@[simp] theorem State.hardReset_busy (s : State) : s.hardReset.busy = State.reset.busy := rfl
@[simp] theorem State.hardReset_partialMatch (s : State) : s.hardReset.partialMatch = State.reset.partialMatch := rfl
@[simp] theorem State.hardReset_scaled (s : State) : s.hardReset.scaled = State.reset.scaled := rfl
@[simp] theorem State.hardReset_decPartial (s : State) : s.hardReset.decPartial = State.reset.decPartial := rfl
@[simp] theorem State.hardReset_cmdOverrun (s : State) : s.hardReset.cmdOverrun = State.reset.cmdOverrun := rfl
@[simp] theorem State.hardReset_busyWrite (s : State) : s.hardReset.busyWrite = State.reset.busyWrite := rfl
@[simp] theorem State.hardReset_cmd (s : State) : s.hardReset.cmd = State.reset.cmd := rfl
@[simp] theorem State.hardReset_errCause (s : State) : s.hardReset.errCause = State.reset.errCause := rfl
@[simp] theorem State.hardReset_doneEn (s : State) : s.hardReset.doneEn = State.reset.doneEn := rfl
@[simp] theorem State.hardReset_errEn (s : State) : s.hardReset.errEn = State.reset.errEn := rfl
@[simp] theorem State.hardReset_intDone (s : State) : s.hardReset.intDone = State.reset.intDone := rfl
@[simp] theorem State.hardReset_intErr (s : State) : s.hardReset.intErr = State.reset.intErr := rfl
@[simp] theorem State.hardReset_srcW (s : State) : s.hardReset.srcW = State.reset.srcW := rfl
@[simp] theorem State.hardReset_srcH (s : State) : s.hardReset.srcH = State.reset.srcH := rfl
@[simp] theorem State.hardReset_reqOffX (s : State) : s.hardReset.reqOffX = State.reset.reqOffX := rfl
@[simp] theorem State.hardReset_reqOffY (s : State) : s.hardReset.reqOffY = State.reset.reqOffY := rfl
@[simp] theorem State.hardReset_usedOffX (s : State) : s.hardReset.usedOffX = State.reset.usedOffX := rfl
@[simp] theorem State.hardReset_usedOffY (s : State) : s.hardReset.usedOffY = State.reset.usedOffY := rfl
@[simp] theorem State.hardReset_effW (s : State) : s.hardReset.effW = State.reset.effW := rfl
@[simp] theorem State.hardReset_effH (s : State) : s.hardReset.effH = State.reset.effH := rfl
@[simp] theorem State.hardReset_modelSel (s : State) : s.hardReset.modelSel = State.reset.modelSel := rfl
@[simp] theorem State.hardReset_attrFill (s : State) : s.hardReset.attrFill = State.reset.attrFill := rfl
@[simp] theorem State.hardReset_unmatchedCnt (s : State) : s.hardReset.unmatchedCnt = State.reset.unmatchedCnt := rfl
@[simp] theorem State.hardReset_decMissCnt (s : State) : s.hardReset.decMissCnt = State.reset.decMissCnt := rfl
@[simp] theorem State.hardReset_inLen (s : State) : s.hardReset.inLen = State.reset.inLen := rfl
@[simp] theorem State.hardReset_result (s : State) : s.hardReset.result = State.reset.result := rfl
@[simp] theorem State.hardReset_resultPatLo (s : State) : s.hardReset.resultPatLo = State.reset.resultPatLo := rfl
@[simp] theorem State.hardReset_resultPatHi (s : State) : s.hardReset.resultPatHi = State.reset.resultPatHi := rfl
@[simp] theorem State.hardReset_gtPatLo (s : State) : s.hardReset.gtPatLo = State.reset.gtPatLo := rfl
@[simp] theorem State.hardReset_gtPatHi (s : State) : s.hardReset.gtPatHi = State.reset.gtPatHi := rfl
@[simp] theorem State.hardReset_gtCode (s : State) : s.hardReset.gtCode = State.reset.gtCode := rfl
@[simp] theorem State.hardReset_gtCountA (s : State) : s.hardReset.gtCountA = State.reset.gtCountA := rfl
@[simp] theorem State.hardReset_gtCountB (s : State) : s.hardReset.gtCountB = State.reset.gtCountB := rfl
@[simp] theorem State.hardReset_gtA (s : State) : s.hardReset.gtA = State.reset.gtA := rfl
@[simp] theorem State.hardReset_gtB (s : State) : s.hardReset.gtB = State.reset.gtB := rfl
@[simp] theorem State.hardReset_seqStep (s : State) : s.hardReset.seqStep = State.reset.seqStep := rfl
@[simp] theorem State.hardReset_mem (s : State) : s.hardReset.mem = State.reset.mem := rfl
@[simp] theorem State.hardReset_memDraw (s : State) : s.hardReset.memDraw = s.draws := rfl
@[simp] theorem State.hardReset_draws (s : State) : s.hardReset.draws = s.draws + 1 := rfl
@[simp] theorem State.hardReset_events (s : State) : s.hardReset.events = s.events := rfl
@[simp] theorem State.hardReset_responses (s : State) : s.hardReset.responses = s.responses := rfl

/-! ### State.setBank -/

@[simp] theorem State.setBank_params (s : State) (b : Bank) (g : GlyphBank) : (s.setBank b g).params = s.params := by
  cases b <;> rfl
@[simp] theorem State.setBank_gtLock (s : State) (b : Bank) (g : GlyphBank) : (s.setBank b g).gtLock = s.gtLock := by
  cases b <;> rfl
@[simp] theorem State.setBank_busy (s : State) (b : Bank) (g : GlyphBank) : (s.setBank b g).busy = s.busy := by
  cases b <;> rfl
@[simp] theorem State.setBank_partialMatch (s : State) (b : Bank) (g : GlyphBank) :
    (s.setBank b g).partialMatch = s.partialMatch := by
  cases b <;> rfl
@[simp] theorem State.setBank_scaled (s : State) (b : Bank) (g : GlyphBank) : (s.setBank b g).scaled = s.scaled := by
  cases b <;> rfl
@[simp] theorem State.setBank_decPartial (s : State) (b : Bank) (g : GlyphBank) :
    (s.setBank b g).decPartial = s.decPartial := by
  cases b <;> rfl
@[simp] theorem State.setBank_cmdOverrun (s : State) (b : Bank) (g : GlyphBank) :
    (s.setBank b g).cmdOverrun = s.cmdOverrun := by
  cases b <;> rfl
@[simp] theorem State.setBank_busyWrite (s : State) (b : Bank) (g : GlyphBank) :
    (s.setBank b g).busyWrite = s.busyWrite := by
  cases b <;> rfl
@[simp] theorem State.setBank_cmd (s : State) (b : Bank) (g : GlyphBank) : (s.setBank b g).cmd = s.cmd := by
  cases b <;> rfl
@[simp] theorem State.setBank_errCause (s : State) (b : Bank) (g : GlyphBank) :
    (s.setBank b g).errCause = s.errCause := by
  cases b <;> rfl
@[simp] theorem State.setBank_doneEn (s : State) (b : Bank) (g : GlyphBank) : (s.setBank b g).doneEn = s.doneEn := by
  cases b <;> rfl
@[simp] theorem State.setBank_errEn (s : State) (b : Bank) (g : GlyphBank) : (s.setBank b g).errEn = s.errEn := by
  cases b <;> rfl
@[simp] theorem State.setBank_intDone (s : State) (b : Bank) (g : GlyphBank) :
    (s.setBank b g).intDone = s.intDone := by
  cases b <;> rfl
@[simp] theorem State.setBank_intErr (s : State) (b : Bank) (g : GlyphBank) : (s.setBank b g).intErr = s.intErr := by
  cases b <;> rfl
@[simp] theorem State.setBank_srcW (s : State) (b : Bank) (g : GlyphBank) : (s.setBank b g).srcW = s.srcW := by
  cases b <;> rfl
@[simp] theorem State.setBank_srcH (s : State) (b : Bank) (g : GlyphBank) : (s.setBank b g).srcH = s.srcH := by
  cases b <;> rfl
@[simp] theorem State.setBank_reqOffX (s : State) (b : Bank) (g : GlyphBank) :
    (s.setBank b g).reqOffX = s.reqOffX := by
  cases b <;> rfl
@[simp] theorem State.setBank_reqOffY (s : State) (b : Bank) (g : GlyphBank) :
    (s.setBank b g).reqOffY = s.reqOffY := by
  cases b <;> rfl
@[simp] theorem State.setBank_usedOffX (s : State) (b : Bank) (g : GlyphBank) :
    (s.setBank b g).usedOffX = s.usedOffX := by
  cases b <;> rfl
@[simp] theorem State.setBank_usedOffY (s : State) (b : Bank) (g : GlyphBank) :
    (s.setBank b g).usedOffY = s.usedOffY := by
  cases b <;> rfl
@[simp] theorem State.setBank_effW (s : State) (b : Bank) (g : GlyphBank) : (s.setBank b g).effW = s.effW := by
  cases b <;> rfl
@[simp] theorem State.setBank_effH (s : State) (b : Bank) (g : GlyphBank) : (s.setBank b g).effH = s.effH := by
  cases b <;> rfl
@[simp] theorem State.setBank_modelSel (s : State) (b : Bank) (g : GlyphBank) :
    (s.setBank b g).modelSel = s.modelSel := by
  cases b <;> rfl
@[simp] theorem State.setBank_attrFill (s : State) (b : Bank) (g : GlyphBank) :
    (s.setBank b g).attrFill = s.attrFill := by
  cases b <;> rfl
@[simp] theorem State.setBank_unmatchedCnt (s : State) (b : Bank) (g : GlyphBank) :
    (s.setBank b g).unmatchedCnt = s.unmatchedCnt := by
  cases b <;> rfl
@[simp] theorem State.setBank_decMissCnt (s : State) (b : Bank) (g : GlyphBank) :
    (s.setBank b g).decMissCnt = s.decMissCnt := by
  cases b <;> rfl
@[simp] theorem State.setBank_inLen (s : State) (b : Bank) (g : GlyphBank) : (s.setBank b g).inLen = s.inLen := by
  cases b <;> rfl
@[simp] theorem State.setBank_result (s : State) (b : Bank) (g : GlyphBank) : (s.setBank b g).result = s.result := by
  cases b <;> rfl
@[simp] theorem State.setBank_resultPatLo (s : State) (b : Bank) (g : GlyphBank) :
    (s.setBank b g).resultPatLo = s.resultPatLo := by
  cases b <;> rfl
@[simp] theorem State.setBank_resultPatHi (s : State) (b : Bank) (g : GlyphBank) :
    (s.setBank b g).resultPatHi = s.resultPatHi := by
  cases b <;> rfl
@[simp] theorem State.setBank_gtPatLo (s : State) (b : Bank) (g : GlyphBank) :
    (s.setBank b g).gtPatLo = s.gtPatLo := by
  cases b <;> rfl
@[simp] theorem State.setBank_gtPatHi (s : State) (b : Bank) (g : GlyphBank) :
    (s.setBank b g).gtPatHi = s.gtPatHi := by
  cases b <;> rfl
@[simp] theorem State.setBank_gtCode (s : State) (b : Bank) (g : GlyphBank) : (s.setBank b g).gtCode = s.gtCode := by
  cases b <;> rfl
@[simp] theorem State.setBank_seqStep (s : State) (b : Bank) (g : GlyphBank) :
    (s.setBank b g).seqStep = s.seqStep := by
  cases b <;> rfl
@[simp] theorem State.setBank_mem (s : State) (b : Bank) (g : GlyphBank) : (s.setBank b g).mem = s.mem := by
  cases b <;> rfl
@[simp] theorem State.setBank_memDraw (s : State) (b : Bank) (g : GlyphBank) :
    (s.setBank b g).memDraw = s.memDraw := by
  cases b <;> rfl
@[simp] theorem State.setBank_draws (s : State) (b : Bank) (g : GlyphBank) : (s.setBank b g).draws = s.draws := by
  cases b <;> rfl
@[simp] theorem State.setBank_events (s : State) (b : Bank) (g : GlyphBank) : (s.setBank b g).events = s.events := by
  cases b <;> rfl
@[simp] theorem State.setBank_responses (s : State) (b : Bank) (g : GlyphBank) :
    (s.setBank b g).responses = s.responses := by
  cases b <;> rfl

@[simp] theorem State.setBank_bank_self (s : State) (b : Bank) (g : GlyphBank) : (s.setBank b g).bank b = g := by
  cases b <;> rfl

@[simp] theorem State.setBank_bank_other (s : State) {b c : Bank} (g : GlyphBank) (h : c ≠ b) :
    (s.setBank b g).bank c = s.bank c := by
  cases b <;> cases c <;> simp_all [State.setBank, State.bank]

end Sys2Proof.Machine
end

