-- ==== Sys2Proof/Laws/Banks.lean ====
section
/-! SUPPORT. The glyph banks: what the writes of a bank leave in it, that they keep it well formed, and what its counts and
lookups are. -/

namespace Sys2Proof.Machine

/-! ### One bank of the state -/

@[simp] theorem setBank_bank (s : State) (b : Bank) (g : GlyphBank) : (s.setBank b g).bank b = g := by cases b <;> rfl

theorem setBank_bank_other (s : State) {b c : Bank} (g : GlyphBank) (h : c ≠ b) : (s.setBank b g).bank c = s.bank c := by
  cases b <;> cases c <;> first | rfl | exact absurd rfl h

@[simp] theorem setBank_countOf (s : State) (b : Bank) (g : GlyphBank) :
    (s.setBank b g).countOf b = BitVec.ofNat 17 (validCount g) := by cases b <;> rfl

theorem setBank_countOf_other (s : State) {b c : Bank} (g : GlyphBank) (h : c ≠ b) :
    (s.setBank b g).countOf c = s.countOf c := by
  cases b <;> cases c <;> first | rfl | exact absurd rfl h

/-- A bank's replacement changes the two banks and the two counts alone. -/
theorem setBank_eq (s : State) (b : Bank) (g : GlyphBank) :
    s.setBank b g =
      { s with
        gtA := (s.setBank b g).gtA
        gtB := (s.setBank b g).gtB
        gtCountA := (s.setBank b g).gtCountA
        gtCountB := (s.setBank b g).gtCountB } := by cases b <;> rfl

/-! ### Invalidating -/

theorem mem_invalidateAt {g : GlyphBank} {index : Nat} {e : Nat × GlyphEntry} (h : e ∈ invalidateAt g index) :
    ∃ f ∈ g, e.1 = f.1 ∧ e.2.pattern = f.2.pattern ∧ e.2.code = f.2.code ∧ (e.2.valid = true → f.2.valid = true ∧ f.1 ≠ index) := by
  obtain ⟨f, hf, rfl⟩ := List.mem_map.1 h
  refine ⟨f, hf, ?_⟩
  split <;> simp_all

theorem mem_invalidateAll {g : GlyphBank} {e : Nat × GlyphEntry} (h : e ∈ invalidateAll g) :
    e.2.valid = false ∧ ∃ f ∈ g, e.1 = f.1 := by
  obtain ⟨f, hf, rfl⟩ := List.mem_map.1 h
  exact ⟨rfl, f, hf, rfl⟩

theorem lookup_invalidateAt (g : GlyphBank) (index j : Nat) :
    (invalidateAt g index).lookup j =
      if j = index then (g.lookup j).map (fun e => { e with valid := false }) else g.lookup j := by
  unfold invalidateAt
  induction g with
  | nil => simp
  | cons f g ih =>
    obtain ⟨k, e⟩ := f
    rw [List.map_cons]
    by_cases hk : k = index
    · subst hk
      simp only [if_true, List.lookup_cons]
      by_cases hj : j = k
      · subst hj; simp
      · simp only [show (j == k) = false by simpa using hj]; rw [ih]
    · simp only [if_neg hk, List.lookup_cons]
      by_cases hj : j = k
      · subst hj; simp [hk]
      · simp only [show (j == k) = false by simpa using hj]; rw [ih]

theorem invalidateAt_sorted {g : GlyphBank} (h : CellsSorted g) (index : Nat) : CellsSorted (invalidateAt g index) := by
  refine List.pairwise_map.2 (h.imp ?_)
  intro a b hab
  dsimp only
  split_ifs <;> exact hab

theorem invalidateAll_sorted {g : GlyphBank} (h : CellsSorted g) : CellsSorted (invalidateAll g) :=
  List.pairwise_map.2 (h.imp (fun hab => hab))

/-! ### Well-formed banks -/

theorem bankOk_nil (n : Nat) : BankOk n [] := ⟨List.Pairwise.nil, by simp, by simp⟩

theorem bankOk_invalidateAt {n : Nat} {g : GlyphBank} (h : BankOk n g) (index : Nat) :
    BankOk n (invalidateAt g index) := by
  refine ⟨invalidateAt_sorted h.sorted index, fun e he => ?_, fun e he f hf hev hfv hp => ?_⟩
  · obtain ⟨e', he', hk, -⟩ := mem_invalidateAt he
    exact hk ▸ h.bound e' he'
  · obtain ⟨e', he', hk, hpat, -, hv⟩ := mem_invalidateAt he
    obtain ⟨f', hf', hk', hpat', -, hv'⟩ := mem_invalidateAt hf
    rw [hk, hk']
    exact h.unique e' he' f' hf' (hv hev).1 (hv' hfv).1 (by rw [← hpat, ← hpat', hp])

theorem bankOk_invalidateAll {n : Nat} {g : GlyphBank} (h : BankOk n g) : BankOk n (invalidateAll g) := by
  refine ⟨invalidateAll_sorted h.sorted, fun e he => ?_, fun e he f _ hev => ?_⟩
  · obtain ⟨-, e', he', hk⟩ := mem_invalidateAll he
    exact hk ▸ h.bound e' he'
  · simp [(mem_invalidateAll he).1] at hev

theorem holdsElsewhere_eq_false {g : GlyphBank} {index : Nat} {p : Pattern} :
    holdsElsewhere g index p = false ↔ ∀ e ∈ g, e.2.valid = true → e.2.pattern = p → e.1 = index := by
  simp only [holdsElsewhere, List.any_eq_false]
  refine forall₂_congr fun e _ => ?_
  by_cases h1 : e.1 = index <;> by_cases h2 : e.2.pattern = p <;> cases e.2.valid <;> simp [h1, h2]

/-- A sorted list holds one cell per key. -/
theorem cellsSorted_unique {β : Type} {m : List (Nat × β)} (h : CellsSorted m) {c d : Nat × β} (hc : c ∈ m) (hd : d ∈ m)
    (hk : c.1 = d.1) : c = d := by
  by_contra hne
  rcases List.pairwise_iff_getElem.1 h with h
  obtain ⟨i, hi, rfl⟩ := List.getElem_of_mem hc
  obtain ⟨j, hj, rfl⟩ := List.getElem_of_mem hd
  rcases Nat.lt_trichotomy i j with hij | rfl | hij
  · have := h i j hi hj hij; omega
  · exact hne rfl
  · have := h j i hj hi hij; omega

/-- The cells of a sorted list after a write. -/
theorem mem_cellsPut_iff {β : Type} {m : List (Nat × β)} (h : CellsSorted m) {a : Nat} {v : β} {c : Nat × β} :
    c ∈ cellsPut m a v ↔ c = (a, v) ∨ (c ∈ m ∧ c.1 ≠ a) := by
  induction m with
  | nil => simp [cellsPut]
  | cons d m ih =>
    obtain ⟨k, w⟩ := d
    obtain ⟨hk, hm⟩ := List.pairwise_cons.1 h
    have hgt : ∀ c ∈ m, k < c.1 := hk
    simp only [cellsPut]
    split_ifs with h1 h2
    · simp only [List.mem_cons]
      constructor
      · rintro (h | rfl | h)
        · exact .inl h
        · exact .inr ⟨.inl rfl, by show k ≠ a; omega⟩
        · exact .inr ⟨.inr h, by have := hgt _ h; omega⟩
      · rintro (h | ⟨h, -⟩)
        · exact .inl h
        · exact .inr h
    · subst h2
      simp only [List.mem_cons]
      constructor
      · rintro (h | h)
        · exact .inl h
        · exact .inr ⟨.inr h, by have := hgt _ h; omega⟩
      · rintro (h | ⟨rfl | h, hne⟩)
        · exact .inl h
        · exact absurd rfl hne
        · exact .inr h
    · simp only [List.mem_cons, ih hm]
      constructor
      · rintro (rfl | h | ⟨h, hne⟩)
        · exact .inr ⟨.inl rfl, fun h => h2 h.symm⟩
        · exact .inl h
        · exact .inr ⟨.inr h, hne⟩
      · rintro (h | ⟨rfl | h, hne⟩)
        · exact .inr (.inl h)
        · exact .inl rfl
        · exact .inr (.inr ⟨h, hne⟩)

theorem bankOk_cellsPut {n : Nat} {g : GlyphBank} (h : BankOk n g) {index : Nat} {e : GlyphEntry} (hi : index < n)
    (hd : holdsElsewhere g index e.pattern = false) : BankOk n (cellsPut g index e) := by
  have hd := holdsElsewhere_eq_false.1 hd
  refine ⟨cellsPut_sorted h.sorted _ _, fun f hf => ?_, fun f hf k hk hfv hkv hp => ?_⟩
  · rcases mem_cellsPut hf with rfl | hf
    · exact hi
    · exact h.bound f hf
  · rcases (mem_cellsPut_iff h.sorted).1 hf with rfl | ⟨hf, hne⟩ <;>
      rcases (mem_cellsPut_iff h.sorted).1 hk with rfl | ⟨hk, hne'⟩
    · rfl
    · exact (hd k hk hkv hp.symm).symm
    · exact hd f hf hfv hp
    · exact h.unique f hf k hk hfv hkv hp

/-! ### Counts -/

/-- A well-formed bank lists at most as many entries as the bank has. -/
theorem length_le_of_bankOk {n : Nat} {g : GlyphBank} (h : BankOk n g) : g.length ≤ n := by
  have hn : (g.map Prod.fst).Nodup := List.pairwise_map.2 (h.sorted.imp (fun hab => Nat.ne_of_lt hab))
  have hs : g.map Prod.fst ⊆ List.range n := by
    intro k hk
    obtain ⟨e, he, rfl⟩ := List.mem_map.1 hk
    exact List.mem_range.2 (h.bound e he)
  simpa using (List.subperm_of_subset hn hs).length_le

theorem validCount_le {n : Nat} {g : GlyphBank} (h : BankOk n g) : validCount g ≤ n :=
  Nat.le_trans (List.countP_le_length) (length_le_of_bankOk h)

/-- The count register holds the count of a well-formed bank (R6: at most 65536 entries). -/
theorem toNat_validCount {n : Nat} {g : GlyphBank} (hn : n ≤ 65536) (h : BankOk n g) :
    (BitVec.ofNat 17 (validCount g)).toNat = validCount g := by
  have := validCount_le h
  rw [BitVec.toNat_ofNat]
  exact Nat.mod_eq_of_lt (by omega)

theorem validCount_invalidateAll (g : GlyphBank) : validCount (invalidateAll g) = 0 := by
  simp only [validCount, List.countP_eq_zero]
  intro e he
  simp [(mem_invalidateAll he).1]

/-! ### Lookups -/

theorem lookupPattern_some {g : GlyphBank} {p : Pattern} {c : Byte} (h : lookupPattern g p = some c) :
    ∃ e ∈ g, e.2.valid = true ∧ e.2.pattern = p ∧ e.2.code = c := by
  unfold lookupPattern at h
  obtain ⟨e, he, rfl⟩ := Option.map_eq_some_iff.1 h
  have := List.find?_some he
  simp at this
  exact ⟨e, List.mem_of_find?_eq_some he, this.1, this.2, rfl⟩

theorem lookupPattern_none {g : GlyphBank} {p : Pattern} :
    lookupPattern g p = none ↔ ∀ e ∈ g, e.2.valid = true → e.2.pattern ≠ p := by
  simp [lookupPattern, List.find?_eq_none]

theorem lookupCode_some {g : GlyphBank} {c : Byte} {p : Pattern} (h : lookupCode g c = some p) :
    ∃ e ∈ g, e.2.valid = true ∧ e.2.pattern = p ∧ e.2.code = c := by
  unfold lookupCode at h
  obtain ⟨e, he, rfl⟩ := Option.map_eq_some_iff.1 h
  have := List.find?_some he
  simp at this
  exact ⟨e, List.mem_of_find?_eq_some he, this.1, rfl, this.2⟩

theorem lookupCode_none {g : GlyphBank} {c : Byte} :
    lookupCode g c = none ↔ ∀ e ∈ g, e.2.valid = true → e.2.code ≠ c := by
  simp [lookupCode, List.find?_eq_none]

/-- In a well-formed bank two valid entries of one pattern are one entry. -/
theorem bankOk_unique {n : Nat} {g : GlyphBank} (h : BankOk n g) {e f : Nat × GlyphEntry} (he : e ∈ g) (hf : f ∈ g)
    (hev : e.2.valid = true) (hfv : f.2.valid = true) (hp : e.2.pattern = f.2.pattern) : e = f :=
  cellsSorted_unique h.sorted he hf (h.unique e he f hf hev hfv hp)

end Sys2Proof.Machine
end

