-- ==== Sys2Proof/Laws/Bits.lean ====
section
/-! SUPPORT. What the packings of bits into bytes and of bytes into patterns hold, bit by bit. -/

namespace Sys2Proof.Machine

theorem byteMsb_getLsbD (f : Nat → Bool) (c : Nat) (h : c < 8) : (byteMsb f).getLsbD (7 - c) = f c := by
  interval_cases c <;> simp only [byteMsb, BitVec.getLsbD_append] <;> simp

theorem byteLsb_getLsbD (f : Nat → Bool) (j : Nat) (h : j < 8) : (byteLsb f).getLsbD j = f j := by
  have := byteMsb_getLsbD (fun c => f (7 - c)) (7 - j) (by omega)
  rwa [show 7 - (7 - j) = j by omega] at this

theorem byteMsb_of_getLsbD (b : Byte) : byteMsb (fun c => b.getLsbD (7 - c)) = b := by
  apply BitVec.eq_of_getLsbD_eq
  intro i hi
  have := byteMsb_getLsbD (fun c => b.getLsbD (7 - c)) (7 - i) (by omega)
  rw [show 7 - (7 - i) = i by omega] at this
  exact this

theorem rowByte_getLsbD (p : Pattern) (r c : Nat) (hr : r < 8) (hc : c < 8) :
    (rowByte p r).getLsbD (7 - c) = patternBit p r c := by
  simp only [rowByte, patternBit, BitVec.getLsbD_extractLsb', show 7 - c < 8 by omega, decide_true, Bool.true_and]
  congr 1
  omega

theorem packRows_getLsbD (f : Nat → Byte) (i : Nat) (h : i < 64) :
    (packRows f).getLsbD i = (f (7 - i / 8)).getLsbD (i % 8) := by
  interval_cases i <;> simp only [packRows, BitVec.getLsbD_append] <;> simp

theorem rowByte_packRows (f : Nat → Byte) (r : Nat) (h : r < 8) : rowByte (packRows f) r = f r := by
  apply BitVec.eq_of_getLsbD_eq
  intro i hi
  simp only [rowByte, BitVec.getLsbD_extractLsb', hi, decide_true, Bool.true_and]
  rw [packRows_getLsbD f _ (by omega), show 7 - (56 - 8 * r + i) / 8 = r by omega,
    show (56 - 8 * r + i) % 8 = i by omega]

theorem packRows_rowByte (p : Pattern) : packRows (rowByte p) = p := by
  apply BitVec.eq_of_getLsbD_eq
  intro i hi
  rw [packRows_getLsbD _ i hi]
  simp only [rowByte, BitVec.getLsbD_extractLsb', show i % 8 < 8 by omega, decide_true, Bool.true_and]
  rw [show 56 - 8 * (7 - i / 8) + i % 8 = i by omega]

theorem patternBit_packRows (f : Nat → Byte) (r c : Nat) (hr : r < 8) (hc : c < 8) :
    patternBit (packRows f) r c = (f r).getLsbD (7 - c) := by
  rw [← rowByte_getLsbD _ r c hr hc, rowByte_packRows f r hr]

theorem packRows_congr {f g : Nat → Byte} (h : ∀ r < 8, f r = g r) : packRows f = packRows g := by
  simp [packRows, h]

theorem byteMsb_congr {f g : Nat → Bool} (h : ∀ c < 8, f c = g c) : byteMsb f = byteMsb g := by
  simp [byteMsb, h]

end Sys2Proof.Machine
end

