-- ==== Sys2Proof/Laws/Engine.lean ====
section
/-! SUPPORT. What one step, the engine's turn and each command can do, said once: the sequence of primitives of every
command, and the two ends a primitive has. -/

namespace Sys2Proof.Machine

/-! ### Runs and steps -/

theorem core_run_succ {s t : State} (k : Nat) (h : step s = .next t) : core.run (k + 1) s = core.run k t := by
  have h' : core.step s = .next t := h
  simp only [Host.Core.run, h']

theorem core_run_one {s t : State} (h : step s = .next t) : core.run 1 s = .next t := core_run_succ 0 h

/-- With no event left the step is the engine's turn. -/
theorem step_no_event {s : State} (h : s.events = []) : step s = engineTurn s := by simp only [step, h]

/-- Otherwise it is the first event, on the state without it. -/
theorem step_event {s : State} {e : Event} {rest : List Event} (h : s.events = e :: rest) :
    step s = runEvent e { s with events := rest } := by simp only [step, h]

theorem engineTurn_idle {s : State} (h : s.busy = false) : engineTurn s = .next s := by simp [engineTurn, h]

/-- The turn of an engine that runs command `i`. -/
theorem engineTurn_running {s : State} {i : Instr} (h : s.running = some i) : engineTurn s = exec i s := by
  unfold State.running at h
  unfold engineTurn
  split at h
  · rename_i hb
    rw [if_pos hb]
    split at h <;> simp_all
  · cases h

/-- The turn of an engine whose latched word spells no command. -/
theorem engineTurn_illegal {s : State} (hb : s.busy = true) (h : ∀ i, decode s.cmd ≠ .ok i) :
    engineTurn s = .next (s.complete 0x01) := by
  unfold engineTurn
  rw [if_pos hb]
  split
  · rename_i hd
    exact absurd hd (h _)
  · rfl

theorem running_eq_some {s : State} {i : Instr} : s.running = some i ↔ s.busy = true ∧ decode s.cmd = .ok i := by
  unfold State.running
  split
  · split <;> simp_all
  · simp_all

theorem running_eq_none {s : State} : s.running = none ↔ s.busy = false ∨ ∀ i, decode s.cmd ≠ .ok i := by
  rw [Option.eq_none_iff_forall_ne_some]
  simp only [ne_eq, running_eq_some]
  cases s.busy <;> simp

/-- The running command depends on BUSY and the latch alone. -/
theorem running_congr {s t : State} (hb : t.busy = s.busy) (hc : t.cmd = s.cmd) : t.running = s.running := by
  simp only [State.running, hb, hc]

theorem core_run_idle {s : State} (he : s.events = []) (hb : s.busy = false) (k : Nat) : core.run k s = .next s := by
  induction k with
  | zero => rfl
  | succ k ih => rw [core_run_succ k ((step_no_event he).trans (engineTurn_idle hb)), ih]

/-! ### Completion, settling and sequencing -/

theorem code_ne_zero (e : ErrorCode) : e.code ≠ 0 := by cases e <;> decide

theorem code_le (e : ErrorCode) : e.code.toNat ≤ 8 := by cases e <;> decide

/-- A completion without an error. -/
theorem complete_zero (s : State) :
    s.complete 0 = { s with errCause := 0, busy := false, intDone := true, seqStep := 0 } := by
  simp [State.complete]

/-- A completion with an error. -/
theorem complete_error (s : State) (e : ErrorCode) :
    s.complete e.code =
      { s with errCause := e.code, busy := false, intDone := true, intErr := true, seqStep := 0 } := by
  rw [State.complete, decide_eq_true (code_ne_zero e), Bool.or_true]

@[simp] theorem settle_ok (s t : State) : s.settle (.ok t) = t.complete 0 := rfl

@[simp] theorem settle_error (s : State) (e : ErrorCode) : s.settle (.error e) = s.complete e.code := rfl

@[simp] theorem advance_ok (s t : State) : s.advance (.ok t) = { t with seqStep := s.seqStep + 1 } := rfl

@[simp] theorem advance_error (s : State) (e : ErrorCode) : s.advance (.error e) = s.complete e.code := rfl

/-- A step that is not the last one. -/
theorem runSequence_advance {s : State} {steps rest : List (State → Effect)} {p q : State → Effect}
    (h : steps.drop s.seqStep = p :: q :: rest) : s.runSequence steps = s.advance (p s) := by
  simp only [State.runSequence, h]

/-- The last step. -/
theorem runSequence_last {s : State} {steps : List (State → Effect)} {p : State → Effect}
    (h : steps.drop s.seqStep = [p]) : s.runSequence steps = s.settle (p s) := by
  simp only [State.runSequence, h]

/-- No step left. -/
theorem runSequence_done {s : State} {steps : List (State → Effect)} (h : steps.length ≤ s.seqStep) :
    s.runSequence steps = s.complete 0 := by
  simp only [State.runSequence, List.drop_eq_nil_of_le h]

/-- The primitive steps of a command: one for a primitive, the list of R352, R357 or R358 for a sequence. -/
def stepsOf (i : Instr) : List (State → Effect) :=
  match i with
  | .nop => [.ok]
  | .calibrate => [calibrate]
  | .binarize => [binarize]
  | .matchAll => [matchAll]
  | .layoutEnc => [layoutEnc]
  | .layoutDec => [layoutDec]
  | .charsToCells => [charsToCells]
  | .paint => [paint]
  | .encode => [calibrate, matchAll, layoutEnc]
  | .decodeDf => [layoutDec, paint]
  | .decodeRaw => [charsToCells, paint]
  | .sample x y => [sample x y]
  | .matchCell x y => [matchCell x y]
  | .cellAddr row subrow => [cellAddr row subrow]
  | .gtWrite bank index => [gtWrite bank index]
  | .gtInval bank index => [gtInval bank index]
  | .gtClear bank => [gtClear bank]
  | .gtLookup bank => [gtLookup bank]
  | .gtReverse bank code => [gtReverse bank code]

/-- A turn of a running sequence does one of four things: it ends the sequence, or performs the step the index names
and completes, goes to the next step, or completes with the step's error. -/
theorem runSequence_cases (s : State) (steps : List (State → Effect)) :
    (steps.length ≤ s.seqStep ∧ s.runSequence steps = s.complete 0) ∨
      ∃ p, steps[s.seqStep]? = some p ∧
        ((∃ e : ErrorCode, p s = .error e ∧ s.runSequence steps = s.complete e.code) ∨
          ∃ u, p s = .ok u ∧
            ((s.seqStep + 1 = steps.length ∧ s.runSequence steps = u.complete 0) ∨
              (s.seqStep + 1 < steps.length ∧ s.runSequence steps = { u with seqStep := s.seqStep + 1 }))) := by
  rcases Nat.lt_or_ge s.seqStep steps.length with hlt | hge
  · right
    refine ⟨steps[s.seqStep], List.getElem?_eq_getElem hlt, ?_⟩
    have hd := List.drop_eq_getElem_cons hlt
    rcases hr : steps.drop (s.seqStep + 1) with _ | ⟨q, rest⟩
    · have hlen : steps.length = s.seqStep + 1 := by
        have := congrArg List.length hr
        simp at this
        omega
      rw [runSequence_last (by rw [hd, hr])]
      cases hp : steps[s.seqStep] s with
      | error e => exact .inl ⟨e, rfl, rfl⟩
      | ok u => exact .inr ⟨u, rfl, .inl ⟨hlen.symm, rfl⟩⟩
    · have hlen : s.seqStep + 1 < steps.length := by
        have := congrArg List.length hr
        simp at this
        omega
      rw [runSequence_advance (by rw [hd, hr])]
      cases hp : steps[s.seqStep] s with
      | error e => exact .inl ⟨e, rfl, rfl⟩
      | ok u => exact .inr ⟨u, rfl, .inr ⟨hlen, rfl⟩⟩
  · exact .inl ⟨hge, runSequence_done hge⟩

/-- Everything a command's turn can do: a completion that changes nothing else, or the effect `u` of one of its primitive
steps, followed by the completion or by the next step. -/
theorem exec_cases (i : Instr) (s : State) :
    ∃ t, exec i s = .next t ∧
      ((∃ e : Byte, e.toNat ≤ 8 ∧ t = s.complete e) ∨
        ∃ p ∈ stepsOf i, ∃ u, p s = .ok u ∧
          (t = u.complete 0 ∨ (s.seqStep + 1 < (stepsOf i).length ∧ t = { u with seqStep := s.seqStep + 1 }))) := by
  have settled : ∀ p : State → Effect,
      (∃ e : Byte, e.toNat ≤ 8 ∧ s.settle (p s) = s.complete e) ∨ ∃ u, p s = .ok u ∧ s.settle (p s) = u.complete 0 := by
    intro p
    cases p s with
    | error e => exact .inl ⟨e.code, code_le e, rfl⟩
    | ok u => exact .inr ⟨u, rfl, rfl⟩
  have sequenced : ∀ steps : List (State → Effect),
      (∃ e : Byte, e.toNat ≤ 8 ∧ s.runSequence steps = s.complete e) ∨
        ∃ p ∈ steps, ∃ u, p s = .ok u ∧ (s.runSequence steps = u.complete 0 ∨
          (s.seqStep + 1 < steps.length ∧ s.runSequence steps = { u with seqStep := s.seqStep + 1 })) := by
    intro steps
    rcases runSequence_cases s steps with ⟨-, h⟩ | ⟨p, hp, ⟨e, -, h⟩ | ⟨u, hu, ⟨-, h⟩ | ⟨hl, h⟩⟩⟩
    · exact .inl ⟨0, by decide, h⟩
    · exact .inl ⟨e.code, code_le e, h⟩
    · exact .inr ⟨p, List.mem_of_getElem? hp, u, hu, .inl h⟩
    · exact .inr ⟨p, List.mem_of_getElem? hp, u, hu, .inr ⟨hl, h⟩⟩
  cases i
  case encode => exact ⟨_, rfl, sequenced [calibrate, matchAll, layoutEnc]⟩
  case decodeDf => exact ⟨_, rfl, sequenced [layoutDec, paint]⟩
  case decodeRaw => exact ⟨_, rfl, sequenced [charsToCells, paint]⟩
  all_goals
    refine ⟨_, rfl, ?_⟩
    rcases settled _ with h | ⟨u, hu, h⟩
    · exact .inl h
    · exact .inr ⟨_, List.mem_singleton_self _, u, hu, .inl h⟩

end Sys2Proof.Machine
end

