-- ==== Sys2Proof/Laws/Memory.lean ====
section
/-! SUPPORT. What one byte reads after each memory operation, and that every memory operation keeps the canonical form. -/

namespace Sys2Proof.Machine

/-- A byte's value depends on the memory and its draw only. -/
theorem byteAt_congr {s t : State} (hm : t.mem = s.mem) (hd : t.memDraw = s.memDraw) (a : Nat) :
    t.byteAt a = s.byteAt a := by
  simp [State.byteAt, hm, hd]

theorem cellPat_congr {s t : State} (hm : t.mem = s.mem) (hd : t.memDraw = s.memDraw) (i : Nat) :
    t.cellPat i = s.cellPat i := by
  simp [State.cellPat, byteAt_congr hm hd]

@[simp] theorem byteAt_complete (s : State) (e : Byte) (a : Nat) : (s.complete e).byteAt a = s.byteAt a := rfl

@[simp] theorem cellPat_complete (s : State) (e : Byte) (i : Nat) : (s.complete e).cellPat i = s.cellPat i := rfl

@[simp] theorem byteAt_setMissed (s : State) (n a : Nat) : (s.setMissed n).byteAt a = s.byteAt a := rfl

@[simp] theorem byteAt_setUnmatched (s : State) (n a : Nat) : (s.setUnmatched n).byteAt a = s.byteAt a := rfl

theorem byteAt_putByte (s : State) (a b : Nat) (v : Byte) :
    (s.putByte a v).byteAt b = if b = a then v else s.byteAt b := by
  simp only [State.byteAt, State.putByte, lookup_cellsPut]
  split <;> rfl

theorem byteAt_fillBytes (s : State) (lo n : Nat) (f : Nat → Byte) (a : Nat) :
    (s.fillBytes lo n f).byteAt a = if lo ≤ a ∧ a < lo + n then f (a - lo) else s.byteAt a := by
  simp only [State.byteAt, State.fillBytes, lookup_cellsFill]
  split <;> rfl

theorem byteAt_fillBytes_inside (s : State) (lo n : Nat) (f : Nat → Byte) (k : Nat) (h : k < n) :
    (s.fillBytes lo n f).byteAt (lo + k) = f k := by
  rw [byteAt_fillBytes, if_pos (by omega)]
  congr 1
  omega

theorem byteAt_fillBytes_outside (s : State) (lo n : Nat) (f : Nat → Byte) (a : Nat) (h : ¬ (lo ≤ a ∧ a < lo + n)) :
    (s.fillBytes lo n f).byteAt a = s.byteAt a := by
  rw [byteAt_fillBytes, if_neg h]

/-- After all of CELLPAT is written, byte 8i + r is row byte r of pattern i. -/
theorem byteAt_writeCells_inside (s : State) (f : Nat → Pattern) (i r : Nat) (hi : i < 768) (hr : r < 8) :
    (s.writeCells f).byteAt (cellpatBase + 8 * i + r) = rowByte (f i) r := by
  unfold State.writeCells
  rw [Nat.add_assoc, byteAt_fillBytes_inside _ _ _ _ _ (by omega)]
  congr 2 <;> omega

theorem byteAt_writeCells_outside (s : State) (f : Nat → Pattern) (a : Nat)
    (h : ¬ (cellpatBase ≤ a ∧ a < cellpatBase + 6144)) : (s.writeCells f).byteAt a = s.byteAt a :=
  byteAt_fillBytes_outside _ _ _ _ _ h

/-- After all of CELLPAT is written, cell i holds pattern i. -/
theorem cellPat_writeCells (s : State) (f : Nat → Pattern) (i : Nat) (hi : i < 768) :
    (s.writeCells f).cellPat i = f i := by
  unfold State.cellPat
  rw [packRows_congr (g := rowByte (f i)) (fun r hr => byteAt_writeCells_inside s f i r hi hr), packRows_rowByte]

/-- The row bytes of a cell are its bytes of the window. -/
theorem rowByte_cellPat (s : State) (i r : Nat) (hr : r < 8) :
    rowByte (s.cellPat i) r = s.byteAt (cellpatBase + 8 * i + r) := by
  rw [State.cellPat, rowByte_packRows _ r hr]

theorem byteAt_foldl_putByte (f : Nat → Byte) (off n : Nat) (s : State) (a : Nat) :
    ((List.range n).foldl (fun t k => t.putByte (off + k) (f k)) s).byteAt a =
      if off ≤ a ∧ a < off + n then f (a - off) else s.byteAt a := by
  induction n with
  | zero => simp
  | succ n ih =>
    rw [List.range_succ, List.foldl_append]
    simp only [List.foldl_cons, List.foldl_nil, byteAt_putByte, ih]
    by_cases h : a = off + n
    · subst h; simp
    · rw [if_neg h]
      split_ifs <;> first | rfl | omega

/-- A little-endian store writes byte k of the data at off + k and nothing else. -/
theorem byteAt_storeBytes (s : State) (off : Nat) (size : Size) (v : Word) (a : Nat) :
    (s.storeBytes off size v).byteAt a =
      if off ≤ a ∧ a < off + size.bytes then dataByte v (a - off) else s.byteAt a :=
  byteAt_foldl_putByte (dataByte v) off size.bytes s a

/-! ### The canonical form is kept -/

theorem reset_memory_wf : Memory.wf State.reset.mem := List.Pairwise.nil

theorem putByte_wf {s : State} (h : Memory.wf s.mem) (a : Nat) (v : Byte) : Memory.wf (s.putByte a v).mem :=
  cellsPut_sorted h a v

theorem fillBytes_wf {s : State} (h : Memory.wf s.mem) (lo n : Nat) (f : Nat → Byte) :
    Memory.wf (s.fillBytes lo n f).mem :=
  cellsFill_sorted h lo n f

theorem writeCells_wf {s : State} (h : Memory.wf s.mem) (f : Nat → Pattern) : Memory.wf (s.writeCells f).mem :=
  fillBytes_wf h _ _ _

theorem storeBytes_wf {s : State} (h : Memory.wf s.mem) (off : Nat) (size : Size) (v : Word) :
    Memory.wf (s.storeBytes off size v).mem := by
  unfold State.storeBytes
  generalize List.range size.bytes = l
  induction l generalizing s with
  | nil => exact h
  | cons k l ih => exact ih (putByte_wf h _ _)

theorem scramble_wf {s : State} (h : Memory.wf s.mem) (d : Nat) (xs : List Extent) :
    Memory.wf (xs.foldl (State.scramble d) s).mem := by
  induction xs generalizing s with
  | nil => exact h
  | cons x xs ih => exact ih (fillBytes_wf h _ _ _)

end Sys2Proof.Machine
end

