-- ==== Sys2Proof/Laws/Bus.lean ====
section
/-! SUPPORT. What a host access does to the machine: the region of an offset, the step of a read and of a write, and the
bytes of a little-endian data word. -/

namespace Sys2Proof.Machine

/-! ### Regions -/

theorem cleanBytes_le {p : Config.Params} (h : p.Ok) : cleanBytes p ≤ 524288 := by
  obtain ⟨-, -, -, -, -, -, h⟩ := h
  unfold cleanBytes
  omega

theorem srcBytes_le {p : Config.Params} (h : p.Ok) : srcBytes p ≤ 16777216 := by
  obtain ⟨-, -, -, -, -, -, h⟩ := h
  unfold srcBytes
  omega

theorem le_srcBytes {p : Config.Params} (h : p.Ok) : 196608 ≤ srcBytes p := by
  obtain ⟨-, -, h1, -, h2, -, -⟩ := h
  have := Nat.mul_le_mul h1 h2
  unfold srcBytes
  omega

/-- The six window bases (spec/20_memory.md R105). -/
theorem bases : cellpatBase = 0x10000 ∧ rawBase = 0x20000 ∧ dfBase = 0x30000 ∧ mapBase = 0x40000 ∧
    cleanBase = 0x80000 ∧ srcBase = 0x1000000 := by decide

theorem regionOf_registers {p : Config.Params} {a : Nat} (h : a < 0x10000) : regionOf p a = .registers := by
  rw [regionOf, if_pos h]

theorem regionOf_cellpat {p : Config.Params} {a : Nat} (h : cellpatBase ≤ a ∧ a < cellpatBase + 6144) :
    regionOf p a = .cellpat := by
  have := bases
  unfold regionOf
  split_ifs <;> first | rfl | omega

theorem regionOf_raw {p : Config.Params} {a : Nat} (h : rawBase ≤ a ∧ a < rawBase + 768) : regionOf p a = .raw := by
  have := bases
  unfold regionOf
  split_ifs <;> first | rfl | omega

theorem regionOf_df {p : Config.Params} {a : Nat} (h : dfBase ≤ a ∧ a < dfBase + 6912) : regionOf p a = .df := by
  have := bases
  unfold regionOf
  split_ifs <;> first | rfl | omega

theorem regionOf_map {p : Config.Params} {a : Nat} (h : mapBase ≤ a ∧ a < mapBase + 96) : regionOf p a = .map := by
  have := bases
  unfold regionOf
  split_ifs <;> first | rfl | omega

theorem regionOf_clean {p : Config.Params} {a : Nat} (h : cleanBase ≤ a ∧ a < cleanBase + cleanBytes p) :
    regionOf p a = .clean := by
  have := bases
  unfold regionOf
  split_ifs <;> first | rfl | omega

theorem regionOf_src {p : Config.Params} {a : Nat} (hp : p.Ok) (h : srcBase ≤ a ∧ a < srcBase + srcBytes p) :
    regionOf p a = .src := by
  have := cleanBytes_le hp
  have := bases
  unfold regionOf
  split_ifs <;> first | rfl | omega

/-- What a window's region says of the offset. -/
theorem regionOf_bounds (p : Config.Params) (a : Nat) :
    (regionOf p a = .cellpat → cellpatBase ≤ a ∧ a < cellpatBase + 6144) ∧
      (regionOf p a = .raw → rawBase ≤ a ∧ a < rawBase + 768) ∧
        (regionOf p a = .df → dfBase ≤ a ∧ a < dfBase + 6912) ∧
          (regionOf p a = .map → mapBase ≤ a ∧ a < mapBase + 96) ∧
            (regionOf p a = .clean → cleanBase ≤ a ∧ a < cleanBase + cleanBytes p) ∧
              (regionOf p a = .src → srcBase ≤ a ∧ a < srcBase + srcBytes p) := by
  unfold regionOf
  refine ⟨?_, ?_, ?_, ?_, ?_, ?_⟩ <;> intro h <;> split_ifs at h <;> assumption

/-- Every byte of an aligned access to a writable window lies in that window. -/
theorem regionOf_aligned {p : Config.Params} {off : Nat} {size : Size} (hp : p.Ok) (ha : off % size.bytes = 0)
    (h : regionOf p off ∈ [Region.cellpat, .raw, .df, .src]) {k : Nat} (hk : k < size.bytes) :
    regionOf p (off + k) = regionOf p off := by
  have hb := bases
  obtain ⟨h1, h2, h3, -, -, h4⟩ := regionOf_bounds p off
  have hs : ∀ n, 4 * n + off % size.bytes = 4 * n → off < 4 * n → off + k < 4 * n := by
    intro n _ hn
    cases size <;> simp only [Size.bytes] at ha hk <;> omega
  have hsrc : srcBytes p = 4 * (p.srcMaxW * p.srcMaxH) := rfl
  simp only [List.mem_cons, List.not_mem_nil, or_false] at h
  rcases h with h | h | h | h <;> rw [h]
  · have := h1 h
    exact regionOf_cellpat ⟨by omega, by have := hs 17920 (by omega) (by omega); omega⟩
  · have := h2 h
    exact regionOf_raw ⟨by omega, by have := hs 32960 (by omega) (by omega); omega⟩
  · have := h3 h
    exact regionOf_df ⟨by omega, by have := hs 50880 (by omega) (by omega); omega⟩
  · have := h4 h
    exact regionOf_src hp
      ⟨by omega, by have := hs (4194304 + p.srcMaxW * p.srcMaxH) (by omega) (by omega); omega⟩

/-- The bytes of the six memories are those of the six windows. -/
theorem liveByte_eq {p : Config.Params} {a : Nat} :
    liveByte p a = true ↔ regionOf p a ≠ .registers ∧ regionOf p a ≠ .reserved := by
  unfold liveByte
  split <;> simp_all

/-! ### Accesses -/

/-- An access of the register region without an ERROR is an aligned word access. -/
theorem accessError_register {off : Nat} {size : Size} (h : off < 0x10000) (ha : accessError off size = false) :
    size = .word ∧ off % 4 = 0 := by
  cases size <;> simp [accessError, Size.bytes] at ha <;> simp <;> omega

theorem accessError_word {off : Nat} (h : off % 4 = 0) : accessError off .word = false := by
  simp [accessError, Size.bytes, h]

theorem accessError_window {off : Nat} {size : Size} (h : 0x10000 ≤ off) (ha : off % size.bytes = 0) :
    accessError off size = false := by
  simp [accessError, ha, show ¬ off < 65536 by omega]

/-- An aligned access, of word size in the register region, gets OKAY (R103). -/
theorem accessError_ok {off : Nat} {size : Size} (h : off % size.bytes = 0) (hw : off < 0x10000 → size = .word) :
    accessError off size = false := by
  by_cases hr : off < 0x10000
  · obtain rfl := hw hr
    exact accessError_word h
  · exact accessError_window (Nat.le_of_not_lt hr) h

/-- The step of a write that gets OKAY. -/
theorem step_write {s : State} {off : Nat} {size : Size} {v : Word} {rest : List Event}
    (he : s.events = .access (.write off size v) :: rest) (h : off < 0x2000000) (ha : accessError off size = false) :
    step s = .next (({ s with events := rest }.writeData off size v).respond .writeOkay) := by
  rw [step_event he]
  simp only [runEvent, busAccess, blockSize, if_neg (Nat.not_le.2 h), busWrite, ha, Bool.false_eq_true, if_false]

/-- The step of a write to a register. -/
theorem step_write_register {s : State} {off : Nat} {v : Word} {r : Reg} {rest : List Event}
    (he : s.events = .access (.write off .word v) :: rest) (h : off < 0x10000) (ha : off % 4 = 0)
    (hr : regAt off = some r) :
    step s = .next (({ s with events := rest }.writeReg r v).respond .writeOkay) := by
  rw [step_write he (by omega) (accessError_word ha)]
  simp only [State.writeData, regionOf_registers h, hr]

/-- The step of a read that gets OKAY. -/
theorem step_read {s : State} {off : Nat} {size : Size} {rest : List Event}
    (he : s.events = .access (.read off size) :: rest) (h : off < 0x2000000) (ha : accessError off size = false) :
    step s =
      .next { s with
        events := rest
        draws := if s.busy then s.draws + 1 else s.draws
        responses := .readOkay (s.readData off size) :: s.responses } := by
  rw [step_event he]
  simp only [runEvent, busAccess, blockSize, if_neg (Nat.not_le.2 h), busRead, ha, Bool.false_eq_true, if_false]
  rfl

/-- The step of a write that gets an ERROR. -/
theorem step_write_error {s : State} {off : Nat} {size : Size} {v : Word} {rest : List Event}
    (he : s.events = .access (.write off size v) :: rest) (h : off < 0x2000000) (ha : accessError off size = true) :
    step s = .next { s with events := rest, responses := .writeError :: s.responses } := by
  rw [step_event he]
  simp only [runEvent, busAccess, blockSize, if_neg (Nat.not_le.2 h), busWrite, ha, if_true]
  rfl

/-- The step of a read that gets an ERROR: its data are a draw. -/
theorem step_read_error {s : State} {off : Nat} {size : Size} {rest : List Event}
    (he : s.events = .access (.read off size) :: rest) (h : off < 0x2000000) (ha : accessError off size = true) :
    ∃ d, step s =
      .next { s with events := rest, draws := s.draws + 1, responses := .readError d :: s.responses } := by
  rw [step_event he]
  simp only [runEvent, busAccess, blockSize, if_neg (Nat.not_le.2 h), busRead, ha, if_true]
  exact ⟨_, rfl⟩

/-- The step of a read outside the block. -/
theorem step_read_outside {s : State} {off : Nat} {size : Size} {rest : List Event}
    (he : s.events = .access (.read off size) :: rest) (h : 0x2000000 ≤ off) : step s = .fault (.notDecoded off) := by
  rw [step_event he]
  exact if_pos h

/-- The step of a write outside the block. -/
theorem step_write_outside {s : State} {off : Nat} {size : Size} {v : Word} {rest : List Event}
    (he : s.events = .access (.write off size v) :: rest) (h : 0x2000000 ≤ off) :
    step s = .fault (.notDecoded off) := by
  rw [step_event he]
  exact if_pos h

/-! ### What a write can do -/

/-- A store of bytes changes the memory alone. -/
theorem storeBytes_eq (s : State) (off : Nat) (size : Size) (v : Word) :
    s.storeBytes off size v = { s with mem := (s.storeBytes off size v).mem } := by
  unfold State.storeBytes
  generalize List.range size.bytes = l
  induction l generalizing s with
  | nil => rfl
  | cons k l ih => rw [List.foldl_cons, ih]; rfl

/-- Everything a write that gets OKAY can do, by its target. -/
theorem writeData_cases (s : State) (off : Nat) (size : Size) (v : Word) :
    s.writeData off size v = s ∨ s.writeData off size v = { s with busyWrite := true } ∨
      (regionOf s.params off = .registers ∧ ∃ r, regAt off = some r ∧ s.writeData off size v = s.writeReg r v) ∨
        (s.busy = false ∧ regionOf s.params off ∈ [Region.cellpat, .raw, .df, .src] ∧
          s.writeData off size v = s.storeBytes off size v) := by
  unfold State.writeData
  split
  · rename_i h
    split
    · exact .inl rfl
    · exact .inr (.inr (.inl ⟨h, _, by assumption, rfl⟩))
  all_goals
    first
    | exact .inl rfl
    | (split
       · exact .inr (.inl rfl)
       · rename_i h hb
         exact .inr (.inr (.inr ⟨by simpa using hb, by simp [h], rfl⟩)))

/-- Everything a write to a register can do. -/
theorem writeReg_cases (s : State) (r : Reg) (v : Word) :
    s.writeReg r v = s ∨ s.writeReg r v = { s with busyWrite := true } ∨
      s.writeReg r v = { s with cmdOverrun := true } ∨
        (r = .ctrl ∧ v.getLsbD 0 = true ∧ s.writeReg r v = s.softReset) ∨
          (r = .ctrl ∧ s.busy = false ∧ s.writeReg r v = { s with gtLock := s.gtLock || v.getLsbD 1 }) ∨
            (r = .status ∧ s.writeReg r v = s.clearStatus v) ∨
              (r = .cmd ∧ s.busy = false ∧ s.writeReg r v = s.accept v) ∨
                (r = .intEn ∧ s.writeReg r v = s.setIntEn v) ∨
                  (r = .intStatus ∧ s.writeReg r v = s.acknowledge v) ∨
                    (r.isPlain = true ∧ s.busy = false ∧ s.writeReg r v = s.storeReg r v) := by
  cases r <;> cases hb : s.busy <;> cases hv : v.getLsbD 0 <;>
    simp [State.writeReg, Reg.isPlain, hb, hv, -BitVec.getLsbD_eq_getElem]

/-- A plain register write changes that register's field alone. -/
theorem storeReg_kept (s : State) (r : Reg) (v : Word) :
    s.storeReg r v =
      { s with
        srcW := (s.storeReg r v).srcW
        srcH := (s.storeReg r v).srcH
        reqOffX := (s.storeReg r v).reqOffX
        reqOffY := (s.storeReg r v).reqOffY
        usedOffX := (s.storeReg r v).usedOffX
        usedOffY := (s.storeReg r v).usedOffY
        modelSel := (s.storeReg r v).modelSel
        attrFill := (s.storeReg r v).attrFill
        inLen := (s.storeReg r v).inLen
        gtPatLo := (s.storeReg r v).gtPatLo
        gtPatHi := (s.storeReg r v).gtPatHi
        gtCode := (s.storeReg r v).gtCode } := by
  cases r <;> rfl

/-! ### Flags -/

/-- The bits of a one-flag word. -/
theorem flagAt_getLsbD (b : Bool) {k j : Nat} (hk : k < 32) (hj : j < 32) :
    (flagAt b k).getLsbD j = if j = k then b else false := by
  cases b
  · simp [flagAt]
  · exact (by decide : ∀ k j : Fin 32, (flagAt true k).getLsbD j = if j.val = k.val then true else false) ⟨k, hk⟩ ⟨j, hj⟩

/-! ### Data words -/

/-- Byte k of a little-endian data word. -/
theorem dataByte_dataWord (n : Nat) (f : Nat → Byte) (k : Nat) (h : k < 4) :
    dataByte (dataWord n f) k = if k < n then f k else 0 := by
  apply BitVec.eq_of_getLsbD_eq
  intro i hi
  interval_cases k <;> simp only [dataByte, dataWord, BitVec.getLsbD_extractLsb', hi, BitVec.getLsbD_append] <;> simp <;>
    interval_cases i <;> simp

theorem memMask_idle {s : State} (h : s.busy = false) (a : Nat) : s.memMask a = 0 := by
  simp [State.memMask, State.running, h]

theorem regMask_idle {s : State} (h : s.busy = false) (r : Reg) : s.regMask r = 0 := by
  simp [State.regMask, State.running, h]

@[simp] theorem mixBits_zero {w : Nat} (cur free : BitVec w) : mixBits 0#w cur free = cur := by simp [mixBits]

/-- Bit j of a mixture: the free bit where the mask is 1, the current one elsewhere. -/
theorem mixBits_getLsbD {w : Nat} (mask cur free : BitVec w) (j : Nat) :
    (mixBits mask cur free).getLsbD j = if mask.getLsbD j then free.getLsbD j else cur.getLsbD j := by
  unfold mixBits
  split
  · rename_i h; simp [h]
  · by_cases hj : j < w
    · simp only [BitVec.getLsbD_or, BitVec.getLsbD_and, BitVec.getLsbD_not, hj, decide_true, Bool.true_and]
      cases mask.getLsbD j <;> simp
    · simp [BitVec.getLsbD_of_ge _ _ (Nat.le_of_not_lt hj)]

end Sys2Proof.Machine
end

