-- ==== Sys2Proof/Laws/Effects.lean ====
section
/-! SUPPORT. What each primitive step leaves when it succeeds: one lemma per primitive, and the fields that none of them
writes. -/

namespace Sys2Proof.Machine

/-! ### Each primitive's success -/

theorem gtWrite_ok {bank : Bank} {index : Nat} {s u : State} (h : gtWrite bank index s = .ok u) :
    s.gtLock = false ∧ index < s.params.gtEntries ∧ holdsElsewhere (s.bank bank) index s.stagedPattern = false ∧
      u = s.setBank bank (cellsPut (s.bank bank) index ⟨true, s.stagedPattern, s.gtCode⟩) := by
  unfold gtWrite at h
  split_ifs at h with h1 h2 h3
  cases h
  exact ⟨by simpa using h1, by omega, by simpa using h3, rfl⟩

theorem gtInval_ok {bank : Bank} {index : Nat} {s u : State} (h : gtInval bank index s = .ok u) :
    s.gtLock = false ∧ index < s.params.gtEntries ∧ u = s.setBank bank (invalidateAt (s.bank bank) index) := by
  unfold gtInval at h
  split_ifs at h with h1 h2
  cases h
  exact ⟨by simpa using h1, by omega, rfl⟩

theorem gtClear_ok {bank : Bank} {s u : State} (h : gtClear bank s = .ok u) :
    s.gtLock = false ∧ u = s.setBank bank (invalidateAll (s.bank bank)) := by
  unfold gtClear at h
  split_ifs at h with h1
  cases h
  exact ⟨by simpa using h1, rfl⟩

/-- A glyph lookup always succeeds and writes RESULT. -/
theorem gtLookup_ok (bank : Bank) (s : State) : ∃ r, gtLookup bank s = .ok { s with result := r } := by
  unfold gtLookup
  split <;> exact ⟨_, rfl⟩

/-- A reverse lookup always succeeds and writes RESULT and RESULT_PAT. -/
theorem gtReverse_ok (bank : Bank) (code : Nat) (s : State) :
    ∃ r hi lo, gtReverse bank code s = .ok { s with result := r, resultPatHi := hi, resultPatLo := lo } := by
  unfold gtReverse
  split <;> exact ⟨_, _, _, rfl⟩

theorem cellAddr_ok {row subrow : Nat} {s u : State} (h : cellAddr row subrow s = .ok u) :
    row < 24 ∧ u = { s with result := BitVec.ofNat 32 (cellAddress row subrow) } := by
  unfold cellAddr at h
  split_ifs at h with h1
  cases h
  exact ⟨by omega, rfl⟩

theorem layoutDec_ok {s u : State} (h : layoutDec s = .ok u) : s.inLen = 6912 ∧ u = s.writeCells s.planePattern := by
  unfold layoutDec at h
  split_ifs at h with h1
  cases h
  exact ⟨by simpa using h1, rfl⟩

theorem sample_ok {x y : Nat} {s u : State} (h : sample x y s = .ok u) :
    s.legalDims ∧ x < s.srcW.toNat ∧ y < s.srcH.toNat ∧ u = { s with result := if s.inkAt x y then 1 else 0 } := by
  unfold sample at h
  split_ifs at h with h1 h2
  all_goals cases h; exact ⟨h1, by omega, by omega, by simp [*]⟩

theorem binarize_ok {s u : State} (h : binarize s = .ok u) :
    s.legalDims ∧ u = s.fillBytes cleanBase ((s.srcW.toNat * s.srcH.toNat + 7) / 8) s.cleanByte := by
  unfold binarize at h
  split_ifs at h with h1
  cases h
  exact ⟨h1, rfl⟩

theorem matchCell_ok {x y : Nat} {s u : State} (h : matchCell x y s = .ok u) :
    s.legalDims ∧ x + 8 ≤ s.srcW.toNat ∧ y + 8 ≤ s.srcH.toNat ∧
      ∃ r, u = { s with
        resultPatHi := (s.extract x y).extractLsb' 32 32
        resultPatLo := (s.extract x y).extractLsb' 0 32
        result := r } := by
  unfold matchCell at h
  split_ifs at h with h1 h2
  cases h
  exact ⟨h1, by omega, by omega, _, rfl⟩

theorem matchAll_ok {s u : State} (h : matchAll s = .ok u) :
    s.legalDims ∧ scaleTest s.srcW.toNat s.srcH.toNat = false ∧ s.windowFits ∧ u = matchWrites s := by
  unfold matchAll at h
  split_ifs at h with h1 h2 h3
  cases h
  exact ⟨h1, by simpa using h2, h3, rfl⟩

theorem charsToCells_ok {s u : State} (h : charsToCells s = .ok u) :
    s.inLen = 768 ∧ u = (s.writeCells s.charPattern).setMissed s.charMisses := by
  unfold charsToCells at h
  split_ifs at h with h1
  cases h
  exact ⟨by simpa using h1, rfl⟩

/-! ### What no primitive writes -/

/-- The fields no primitive step writes. -/
structure Kept (s u : State) : Prop where
  params : u.params = s.params
  gtLock : u.gtLock = s.gtLock
  busy : u.busy = s.busy
  cmdOverrun : u.cmdOverrun = s.cmdOverrun
  busyWrite : u.busyWrite = s.busyWrite
  cmd : u.cmd = s.cmd
  errCause : u.errCause = s.errCause
  doneEn : u.doneEn = s.doneEn
  errEn : u.errEn = s.errEn
  intDone : u.intDone = s.intDone
  intErr : u.intErr = s.intErr
  reqOffX : u.reqOffX = s.reqOffX
  reqOffY : u.reqOffY = s.reqOffY
  modelSel : u.modelSel = s.modelSel
  attrFill : u.attrFill = s.attrFill
  inLen : u.inLen = s.inLen
  gtPatLo : u.gtPatLo = s.gtPatLo
  gtPatHi : u.gtPatHi = s.gtPatHi
  gtCode : u.gtCode = s.gtCode
  seqStep : u.seqStep = s.seqStep
  memDraw : u.memDraw = s.memDraw
  draws : u.draws = s.draws
  events : u.events = s.events
  responses : u.responses = s.responses

/-- What a primitive step that is no glyph bank command leaves: also both banks and both counts. -/
structure Quiet (s u : State) : Prop extends Kept s u where
  gtA : u.gtA = s.gtA
  gtB : u.gtB = s.gtB
  gtCountA : u.gtCountA = s.gtCountA
  gtCountB : u.gtCountB = s.gtCountB

theorem setBank_kept (s : State) (b : Bank) (g : GlyphBank) : Kept s (s.setBank b g) := by
  cases b <;> constructor <;> rfl

theorem matchWrites_quiet (s : State) : Quiet s (matchWrites s) := by
  refine ⟨?_, ?_, ?_, ?_, ?_⟩
  · constructor <;> simp [matchWrites]
  all_goals simp [matchWrites]

theorem calibrate_quiet {s u : State} (h : calibrate s = .ok u) : Quiet s u := by
  cases h
  exact { toKept := by constructor <;> rfl, gtA := rfl, gtB := rfl, gtCountA := rfl, gtCountB := rfl }

theorem matchAll_quiet {s u : State} (h : matchAll s = .ok u) : Quiet s u := by
  obtain ⟨-, -, -, rfl⟩ := matchAll_ok h
  exact matchWrites_quiet s

theorem layoutEnc_quiet {s u : State} (h : layoutEnc s = .ok u) : Quiet s u := by
  cases h
  exact { toKept := by constructor <;> rfl, gtA := rfl, gtB := rfl, gtCountA := rfl, gtCountB := rfl }

theorem layoutDec_quiet {s u : State} (h : layoutDec s = .ok u) : Quiet s u := by
  obtain ⟨-, rfl⟩ := layoutDec_ok h
  exact { toKept := by constructor <;> rfl, gtA := rfl, gtB := rfl, gtCountA := rfl, gtCountB := rfl }

theorem charsToCells_quiet {s u : State} (h : charsToCells s = .ok u) : Quiet s u := by
  obtain ⟨-, rfl⟩ := charsToCells_ok h
  refine ⟨?_, ?_, ?_, ?_, ?_⟩
  · constructor <;> simp
  all_goals simp

theorem paint_quiet {s u : State} (h : paint s = .ok u) : Quiet s u := by
  cases h
  exact { toKept := by constructor <;> rfl, gtA := rfl, gtB := rfl, gtCountA := rfl, gtCountB := rfl }

theorem result_quiet (s : State) (r hi lo : Word) :
    Quiet s { s with result := r, resultPatHi := hi, resultPatLo := lo } :=
  { toKept := by constructor <;> rfl, gtA := rfl, gtB := rfl, gtCountA := rfl, gtCountB := rfl }

/-- A quiet step changes at most the fields named here. -/
theorem quiet_eq {s u : State} (h : Quiet s u) :
    u = { s with
      partialMatch := u.partialMatch
      scaled := u.scaled
      decPartial := u.decPartial
      srcW := u.srcW
      srcH := u.srcH
      usedOffX := u.usedOffX
      usedOffY := u.usedOffY
      effW := u.effW
      effH := u.effH
      unmatchedCnt := u.unmatchedCnt
      decMissCnt := u.decMissCnt
      result := u.result
      resultPatLo := u.resultPatLo
      resultPatHi := u.resultPatHi
      mem := u.mem } := by
  rw [← h.params, ← h.gtLock, ← h.busy, ← h.cmdOverrun, ← h.busyWrite, ← h.cmd, ← h.errCause, ← h.doneEn, ← h.errEn,
    ← h.intDone, ← h.intErr, ← h.reqOffX, ← h.reqOffY, ← h.modelSel, ← h.attrFill, ← h.inLen, ← h.gtPatLo,
    ← h.gtPatHi, ← h.gtCode, ← h.seqStep, ← h.memDraw, ← h.draws, ← h.events, ← h.responses, ← h.gtA, ← h.gtB,
    ← h.gtCountA, ← h.gtCountB]

@[simp] theorem matchWrites_scaled (s : State) : (matchWrites s).scaled = s.scaled := by simp [matchWrites]
@[simp] theorem matchWrites_decPartial (s : State) : (matchWrites s).decPartial = s.decPartial := by simp [matchWrites]
@[simp] theorem matchWrites_srcW (s : State) : (matchWrites s).srcW = s.srcW := by simp [matchWrites]
@[simp] theorem matchWrites_srcH (s : State) : (matchWrites s).srcH = s.srcH := by simp [matchWrites]
@[simp] theorem matchWrites_usedOffX (s : State) : (matchWrites s).usedOffX = s.usedOffX := by simp [matchWrites]
@[simp] theorem matchWrites_usedOffY (s : State) : (matchWrites s).usedOffY = s.usedOffY := by simp [matchWrites]
@[simp] theorem matchWrites_effW (s : State) : (matchWrites s).effW = s.effW := by simp [matchWrites]
@[simp] theorem matchWrites_effH (s : State) : (matchWrites s).effH = s.effH := by simp [matchWrites]
@[simp] theorem matchWrites_decMissCnt (s : State) : (matchWrites s).decMissCnt = s.decMissCnt := by simp [matchWrites]
@[simp] theorem matchWrites_result (s : State) : (matchWrites s).result = s.result := by simp [matchWrites]
@[simp] theorem matchWrites_resultPatLo (s : State) : (matchWrites s).resultPatLo = s.resultPatLo := by simp [matchWrites]
@[simp] theorem matchWrites_resultPatHi (s : State) : (matchWrites s).resultPatHi = s.resultPatHi := by simp [matchWrites]

/-- MATCH's writes change the memory, the count and the flag alone. -/
theorem matchWrites_eq (s : State) :
    matchWrites s =
      { s with
        mem := (matchWrites s).mem
        unmatchedCnt := (matchWrites s).unmatchedCnt
        partialMatch := (matchWrites s).partialMatch } := by
  have h := quiet_eq (matchWrites_quiet s)
  simpa only [matchWrites_scaled, matchWrites_decPartial, matchWrites_srcW, matchWrites_srcH, matchWrites_usedOffX,
    matchWrites_usedOffY, matchWrites_effW, matchWrites_effH, matchWrites_decMissCnt,
    matchWrites_result, matchWrites_resultPatLo, matchWrites_resultPatHi] using h

/-- A primitive that succeeds, to its completion. -/
theorem next_settle_ok {s u : State} {p : State → Effect} (h : p s = .ok u) :
    (Host.Outcome.next (s.settle (p s)) : Host.Outcome State Fault Refusal) =
      .next { u with errCause := 0, busy := false, intDone := true, seqStep := 0 } := by
  rw [h, settle_ok, complete_zero]

/-- A primitive that fails, to its completion. -/
theorem next_settle_error {s : State} {e : ErrorCode} {p : State → Effect} (h : p s = .error e) :
    (Host.Outcome.next (s.settle (p s)) : Host.Outcome State Fault Refusal) =
      .next { s with errCause := e.code, busy := false, intDone := true, intErr := true, seqStep := 0 } := by
  rw [h, settle_error, complete_error]

/-- Every primitive step that succeeds is quiet, or is a glyph bank command of an unlocked block. -/
theorem primitive_ok {i : Instr} {p : State → Effect} {s u : State} (hp : p ∈ stepsOf i) (h : p s = .ok u) :
    Quiet s u ∨
      (s.gtLock = false ∧
        ((∃ b index, i = .gtWrite b index ∧ gtWrite b index s = .ok u) ∨
          (∃ b index, i = .gtInval b index ∧ gtInval b index s = .ok u) ∨
            ∃ b, i = .gtClear b ∧ gtClear b s = .ok u)) := by
  cases i <;> simp only [stepsOf, List.mem_cons, List.not_mem_nil, or_false] at hp
  case gtWrite b index => subst hp; exact .inr ⟨(gtWrite_ok h).1, .inl ⟨b, index, rfl, h⟩⟩
  case gtInval b index => subst hp; exact .inr ⟨(gtInval_ok h).1, .inr (.inl ⟨b, index, rfl, h⟩)⟩
  case gtClear b => subst hp; exact .inr ⟨(gtClear_ok h).1, .inr (.inr ⟨b, rfl, h⟩)⟩
  all_goals left
  case gtLookup b =>
    subst hp
    obtain ⟨r, hr⟩ := gtLookup_ok b s
    cases hr.symm.trans h
    exact result_quiet s _ _ _
  case gtReverse b code =>
    subst hp
    obtain ⟨r, hi, lo, hr⟩ := gtReverse_ok b code s
    cases hr.symm.trans h
    exact result_quiet s _ _ _
  case nop => subst hp; cases h; exact result_quiet s s.result s.resultPatHi s.resultPatLo
  case cellAddr row subrow => subst hp; obtain ⟨-, rfl⟩ := cellAddr_ok h; exact result_quiet s _ _ _
  case sample x y => subst hp; obtain ⟨-, -, -, rfl⟩ := sample_ok h; exact result_quiet s _ _ _
  case matchCell x y => subst hp; obtain ⟨-, -, -, r, rfl⟩ := matchCell_ok h; exact result_quiet s _ _ _
  case binarize =>
    subst hp
    obtain ⟨-, rfl⟩ := binarize_ok h
    exact { toKept := by constructor <;> rfl, gtA := rfl, gtB := rfl, gtCountA := rfl, gtCountB := rfl }
  case calibrate => subst hp; exact calibrate_quiet h
  case matchAll => subst hp; exact matchAll_quiet h
  case layoutEnc => subst hp; exact layoutEnc_quiet h
  case layoutDec => subst hp; exact layoutDec_quiet h
  case charsToCells => subst hp; exact charsToCells_quiet h
  case paint => subst hp; exact paint_quiet h
  case encode => rcases hp with rfl | rfl | rfl; exacts [calibrate_quiet h, matchAll_quiet h, layoutEnc_quiet h]
  case decodeDf => rcases hp with rfl | rfl; exacts [layoutDec_quiet h, paint_quiet h]
  case decodeRaw => rcases hp with rfl | rfl; exacts [charsToCells_quiet h, paint_quiet h]

/-- No primitive step writes the fields of `Kept`. -/
theorem primitive_kept {i : Instr} {p : State → Effect} {s u : State} (hp : p ∈ stepsOf i) (h : p s = .ok u) :
    Kept s u := by
  rcases primitive_ok hp h with hq | ⟨-, ⟨b, index, -, hw⟩ | ⟨b, index, -, hw⟩ | ⟨b, -, hw⟩⟩
  · exact hq.toKept
  · obtain ⟨-, -, -, rfl⟩ := gtWrite_ok hw
    exact setBank_kept _ _ _
  · obtain ⟨-, -, rfl⟩ := gtInval_ok hw
    exact setBank_kept _ _ _
  · obtain ⟨-, rfl⟩ := gtClear_ok hw
    exact setBank_kept _ _ _

end Sys2Proof.Machine
end

