-- ==== Sys2Proof/Laws/Control.lean ====
section
/-! SUPPORT. The primitives of the sequences neither read nor write what a completion writes, so a sequence's steps and
the primitives issued one by one have the same effects. -/

namespace Sys2Proof.Machine

/-- The state with other values in the fields a successful completion writes, and another step index. -/
def State.control (s : State) (e : Byte) (busy done : Bool) (k : Nat) : State :=
  { s with errCause := e, busy := busy, intDone := done, seqStep := k }

/-- The effect with other values in those fields of the state it leaves. -/
def controlEffect (e : Byte) (busy done : Bool) (k : Nat) : Effect → Effect
  | .ok t => .ok (t.control e busy done k)
  | .error c => .error c

/-- A completion without an error is such a change. -/
theorem complete_zero_eq_control (s : State) : s.complete 0 = s.control 0 false true 0 := by
  rw [complete_zero, State.control]

variable (s : State) (e : Byte) (b d : Bool) (k : Nat)

@[simp] theorem State.control_control (e' : Byte) (b' d' : Bool) (k' : Nat) :
    (s.control e b d k).control e' b' d' k' = s.control e' b' d' k' := rfl
@[simp] theorem State.control_busy : (s.control e b d k).busy = b := rfl
@[simp] theorem State.control_intDone : (s.control e b d k).intDone = d := rfl
@[simp] theorem State.control_errCause : (s.control e b d k).errCause = e := rfl
@[simp] theorem State.control_seqStep : (s.control e b d k).seqStep = k := rfl
@[simp] theorem State.control_inLen : (s.control e b d k).inLen = s.inLen := rfl
@[simp] theorem State.control_events : (s.control e b d k).events = s.events := rfl
@[simp] theorem State.control_cmd : (s.control e b d k).cmd = s.cmd := rfl
@[simp] theorem byteAt_control (a : Nat) : (s.control e b d k).byteAt a = s.byteAt a := rfl

theorem calibrate_control : calibrate (s.control e b d k) = controlEffect e b d k (calibrate s) := rfl

theorem layoutEnc_control : layoutEnc (s.control e b d k) = controlEffect e b d k (layoutEnc s) := rfl

theorem paint_control : paint (s.control e b d k) = controlEffect e b d k (paint s) := rfl

theorem layoutDec_control : layoutDec (s.control e b d k) = controlEffect e b d k (layoutDec s) := by
  unfold layoutDec
  rw [State.control_inLen]
  split <;> rfl

theorem charsToCells_control : charsToCells (s.control e b d k) = controlEffect e b d k (charsToCells s) := by
  have hm : (s.control e b d k).charMisses = s.charMisses := by unfold State.charMisses; exact Eq.refl _
  have hp : (s.control e b d k).charPattern = s.charPattern := rfl
  have hs : ∀ n, ((s.control e b d k).writeCells s.charPattern).setMissed n =
      ((s.writeCells s.charPattern).setMissed n).control e b d k := fun _ => rfl
  unfold charsToCells
  rw [hm, hp, hs, State.control_inLen]
  split <;> rfl

theorem matchWrites_control : matchWrites (s.control e b d k) = (matchWrites s).control e b d k := by
  have hp : (s.control e b d k).pePattern = s.pePattern := rfl
  have hr : (s.control e b d k).peResolve = s.peResolve := rfl
  have hu : (s.control e b d k).peUnmatched = s.peUnmatched := by unfold State.peUnmatched; rw [hr]
  have hs : ∀ (f : Nat → Pattern) (g h : Nat → Byte) (n : Nat),
      ((((s.control e b d k).writeCells f).fillBytes rawBase 768 g).fillBytes mapBase 96 h).setUnmatched n =
        ((((s.writeCells f).fillBytes rawBase 768 g).fillBytes mapBase 96 h).setUnmatched n).control e b d k :=
    fun _ _ _ _ => rfl
  unfold matchWrites
  rw [hp, hr, hu, hs]

theorem matchAll_control : matchAll (s.control e b d k) = controlEffect e b d k (matchAll s) := by
  unfold matchAll
  rw [matchWrites_control]
  by_cases h1 : s.legalDims
  · rw [if_neg (not_not.2 h1), if_neg (not_not.2 (show (s.control e b d k).legalDims from h1))]
    by_cases h2 : scaleTest s.srcW.toNat s.srcH.toNat = true
    · rw [if_pos h2]
      exact if_pos h2
    · rw [if_neg h2]
      refine (if_neg h2).trans ?_
      by_cases h3 : s.windowFits
      · rw [if_neg (not_not.2 h3)]
        exact if_neg (not_not.2 h3)
      · rw [if_pos h3]
        exact if_pos h3
  · rw [if_pos h1]
    exact if_pos h1

end Sys2Proof.Machine
end

