-- ==== Sys2Proof/Laws/Reset.lean ====
section
/-! SUPPORT. What a soft reset leaves: every field but the memory and the draw counter at its reset value, and every bit
of memory that the aborted command may not write. -/

namespace Sys2Proof.Machine

/-- A soft reset is the reset of the registers, with other memory bytes and another draw number after an abort. -/
theorem softReset_eq (s : State) :
    s.softReset = { s.resetRegisters with mem := s.softReset.mem, draws := s.softReset.draws } := by
  have hs : ∀ (d : Nat) (xs : List Extent) (u : State),
      xs.foldl (State.scramble d) u = { u with mem := (xs.foldl (State.scramble d) u).mem } := by
    intro d xs
    induction xs with
    | nil => intro u; rfl
    | cons x xs ih => intro u; rw [List.foldl_cons, ih]; rfl
  unfold State.softReset
  split
  · rfl
  · rw [hs]; rfl

theorem upperBits_getLsbD (n j : Nat) (hj : j < 8) : (upperBits n).getLsbD j = decide (7 - j < n) := by
  unfold upperBits
  split
  · interval_cases j <;> simp <;> omega
  · have hn : n < 8 := by omega
    interval_cases n <;> interval_cases j <;> rfl

/-- Bit j of the byte at `a` lies in an extent when its position, first bit in bit 7, does. -/
theorem mask_getLsbD (x : Extent) (a j : Nat) (hj : j < 8) :
    (x.mask a).getLsbD j = decide (x.base ≤ a ∧ 8 * (a - x.base) + (7 - j) < x.bits) := by
  unfold Extent.mask
  split
  · rw [decide_eq_false (by omega)]; simp
  · rw [upperBits_getLsbD _ _ hj, decide_eq_decide]; omega

theorem foldl_or_getLsbD (xs : List Extent) (a j : Nat) (b : Byte) :
    (xs.foldl (fun m x => m ||| x.mask a) b).getLsbD j = (b.getLsbD j || xs.any (fun x => (x.mask a).getLsbD j)) := by
  induction xs generalizing b with
  | nil => simp
  | cons x xs ih => rw [List.foldl_cons, ih]; simp only [BitVec.getLsbD_or, List.any_cons, Bool.or_assoc]

/-- The scrambled bits of one extent. -/
theorem byteAt_scramble (d : Nat) (s : State) (x : Extent) (a j : Nat) (h : (x.mask a).getLsbD j = false) :
    ((s.scramble d x).byteAt a).getLsbD j = (s.byteAt a).getLsbD j := by
  unfold State.scramble
  rw [byteAt_fillBytes]
  split
  · rw [mixBits_getLsbD, show x.base + (a - x.base) = a by omega, h]; simp
  · rfl

/-- A soft reset keeps every bit of memory the running command may not write. -/
theorem byteAt_softReset (s : State) (a j : Nat) (h : (s.memMask a).getLsbD j = false) :
    (s.softReset.byteAt a).getLsbD j = (s.byteAt a).getLsbD j := by
  have hs : ∀ (d : Nat) (xs : List Extent) (u : State), xs.any (fun x => (x.mask a).getLsbD j) = false →
      ((xs.foldl (State.scramble d) u).byteAt a).getLsbD j = (u.byteAt a).getLsbD j := by
    intro d xs
    induction xs with
    | nil => intro u _; rfl
    | cons x xs ih =>
      intro u hx
      rw [List.any_cons, Bool.or_eq_false_iff] at hx
      rw [List.foldl_cons, ih _ hx.2, byteAt_scramble _ _ _ _ _ hx.1]
  have hd : ∀ (d : Nat) (xs : List Extent) (u : State), (xs.foldl (State.scramble d) u).memDraw = u.memDraw := by
    intro d xs
    induction xs with
    | nil => intro u; rfl
    | cons x xs ih => intro u; rw [List.foldl_cons, ih]; rfl
  unfold State.memMask at h
  unfold State.softReset
  split
  · rfl
  · rename_i i hr
    simp only [hr, foldl_or_getLsbD, Bool.or_eq_false_iff] at h
    rw [← hs s.draws (s.memFootprint i) s h.2]
    exact congrArg (fun b => BitVec.getLsbD b j) (byteAt_congr rfl rfl a)

end Sys2Proof.Machine
end

