-- ==== Sys2Proof/Laws/Footprint.lean ====
section
/-! SUPPORT. What a running command may write, bit by bit: the masks of the machine against the terms of Safety. A bit
outside is current in a read (spec/70_reset_and_hazards.md R461) and kept by an abort (R453). -/

namespace Sys2Proof.Machine

/-- The masks in use, each with the positions of its ones. -/
theorem mask_positions : ∀ j : Fin 32,
    ((0xFFFF : Word).getLsbD j = true → j.val < 16) ∧ ((0x1FFFF : Word).getLsbD j = true → j.val < 17) ∧
      ((0x3FF : Word).getLsbD j = true → j.val < 10) ∧ ((0x2 : Word).getLsbD j = true → j.val = 1) ∧
        ((0x4 : Word).getLsbD j = true → j.val = 2) ∧ ((0x8 : Word).getLsbD j = true → j.val = 3) := by decide

theorem calibrationMask_bit {r : Reg} {j : Nat} (h : (calibrationMask r).getLsbD j = true) : calibrationBit r j := by
  have hp := mask_positions ⟨j, BitVec.lt_of_getLsbD h⟩
  unfold calibrationMask at h
  split_ifs at h with h1 h2 h3
  · exact .inl ⟨h1, hp.1 h⟩
  · exact h2.elim (fun h => .inr (.inl h)) (fun h => .inr (.inr (.inl h)))
  · exact .inr (.inr (.inr ⟨h3, hp.2.2.2.2.1 h⟩))
  · simp at h

theorem matchingMask_bit {r : Reg} {j : Nat} (h : (matchingMask r).getLsbD j = true) : matchingBit r j := by
  have hp := mask_positions ⟨j, BitVec.lt_of_getLsbD h⟩
  unfold matchingMask at h
  split_ifs at h with h1 h2
  · exact .inl ⟨h1, hp.2.2.1 h⟩
  · exact .inr ⟨h2, hp.2.2.2.1 h⟩
  · simp at h

theorem missingMask_bit {r : Reg} {j : Nat} (h : (missingMask r).getLsbD j = true) : missingBit r j := by
  have hp := mask_positions ⟨j, BitVec.lt_of_getLsbD h⟩
  unfold missingMask at h
  split_ifs at h with h1 h2
  · exact .inl ⟨h1, hp.2.2.1 h⟩
  · exact .inr ⟨h2, hp.2.2.2.2.2 h⟩
  · simp at h

theorem dimensionMask_bit {r : Reg} {j : Nat} (h : (dimensionMask r).getLsbD j = true) : dimensionBit r j := by
  have hp := mask_positions ⟨j, BitVec.lt_of_getLsbD h⟩
  unfold dimensionMask at h
  split_ifs at h with h1
  · exact ⟨h1, hp.1 h⟩
  · simp at h

theorem resultMask_bit {r : Reg} {j : Nat} (h : (resultMask r).getLsbD j = true) : r = .result := by
  unfold resultMask at h
  split_ifs at h with h1
  · exact h1
  · simp at h

theorem patternMask_bit {r : Reg} {j : Nat} (h : (patternMask r).getLsbD j = true) :
    r = .resultPatLo ∨ r = .resultPatHi := by
  unfold patternMask at h
  split_ifs at h with h1
  · exact h1
  · simp at h

/-- A one in a command's register mask is a bit the command may write. -/
theorem regFootprint_bit {i : Instr} {r : Reg} {j : Nat} (h : (regFootprint i r).getLsbD j = true) :
    mayWriteReg i r j := by
  have hcount : ∀ b : Bank, (if r = countReg b then (0x1FFFF : Word) else 0).getLsbD j = true →
      ((b = .modelA ∧ r = .gtCountA) ∨ (b = .modelB ∧ r = .gtCountB)) ∧ j < 17 := by
    intro b hb
    split_ifs at hb with h1
    · refine ⟨?_, (mask_positions ⟨j, BitVec.lt_of_getLsbD hb⟩).2.1 hb⟩
      cases b
      · exact .inl ⟨rfl, h1⟩
      · exact .inr ⟨rfl, h1⟩
    · simp at hb
  cases i <;> simp only [regFootprint, BitVec.getLsbD_or, Bool.or_eq_true] at h
  case calibrate => exact calibrationMask_bit h
  case matchAll => exact matchingMask_bit h
  case charsToCells => exact missingMask_bit h
  case paint | decodeDf => exact dimensionMask_bit h
  case encode => exact h.imp calibrationMask_bit matchingMask_bit
  case decodeRaw => exact h.imp missingMask_bit dimensionMask_bit
  case sample | cellAddr | gtLookup => exact resultMask_bit h
  case matchCell | gtReverse => exact h.imp resultMask_bit patternMask_bit
  case gtWrite b _ | gtInval b _ | gtClear b => exact hcount b h
  case nop | binarize | layoutEnc | layoutDec => simp at h

/-- A register bit the running command may not write is not masked. -/
theorem regMask_bit {s : State} {r : Reg} {j : Nat} (h : ∀ i, s.running = some i → ¬ mayWriteReg i r j) :
    (s.regMask r).getLsbD j = false := by
  unfold State.regMask
  split
  · simp
  · rename_i i hr
    exact Bool.eq_false_iff.2 fun hc => h i hr (regFootprint_bit hc)

/-- A memory bit the running command may not write is not masked. -/
theorem memMask_bit {s : State} {a j : Nat} (hj : j < 8) (h : ∀ i, s.running = some i → ¬ mayWriteBit s i a j) :
    (s.memMask a).getLsbD j = false := by
  unfold State.memMask
  split
  · simp
  rename_i i hr
  have h := h i hr
  rw [foldl_or_getLsbD, Bool.or_eq_false_iff, List.any_eq_false]
  refine ⟨by simp, fun x hx => ?_⟩
  rw [mask_getLsbD _ _ _ hj, decide_eq_true_eq]
  have := bases
  cases i <;> simp only [State.memFootprint, List.mem_cons, List.not_mem_nil, or_false] at hx
  case binarize =>
    subst hx
    rintro ⟨h1, h2⟩
    simp only at h1 h2
    exact h ⟨8 * (a - cleanBase) + (7 - j), by omega, by omega, by omega⟩
  all_goals simp only [mayWriteBit] at h
  all_goals rcases hx with rfl | rfl | rfl | rfl
  all_goals rintro ⟨h1, h2⟩
  all_goals simp only at h1 h2
  all_goals omega

/-- The live bytes past the register region, by the numbers of R105. -/
theorem liveByte_iff {p : Config.Params} {a : Nat} (h : 0x10000 ≤ a) : liveByte p a = true ↔ liveOffset p a := by
  have := bases
  unfold liveByte regionOf liveOffset cleanBytes srcBytes inRange
  split_ifs <;> simp <;> omega

/-- The table of R60 is the register map of the machine. -/
theorem regAt_of_table {off : Nat} {r : Reg} (h : (off, r) ∈ registerTable) : regAt off = some r ∧ off < 0x80 :=
  (by decide : ∀ q ∈ registerTable, regAt q.1 = some q.2 ∧ q.1 < 0x80) _ h

end Sys2Proof.Machine
end

