-- ==== Sys2Proof/Laws/PerInstr.lean ====
section
/-! SUPPORT. Two facts about the word of each command, one lemma per constructor (spec/30_encoding.md R152, R160): the low
byte is the opcode, and the reserved-zero bits of the format are 0. -/

namespace Sys2Proof

/-- The low byte of the command's word is its opcode (R152). -/
def Laws.OpcodeByte.Statement (i : Instr) : Prop := (encode i).extractLsb' 0 8 = i.opcode

/-- The reserved-zero bits of the command's word are 0 (R160). -/
def Laws.ReservedZero.Statement (i : Instr) : Prop := encode i &&& i.reservedMask = 0

/-- The low byte of a word whose lowest field is the byte `b`. -/
theorem low_byte_append {n : Nat} (x : BitVec n) (b : Byte) : (x ++ b).extractLsb' 0 8 = b :=
  BitVec.extractLsb'_append_eq_right

theorem Laws.OpcodeByte.nop : Statement .nop := low_byte_append _ _
theorem Laws.OpcodeByte.calibrate : Statement .calibrate := low_byte_append _ _
theorem Laws.OpcodeByte.binarize : Statement .binarize := low_byte_append _ _
theorem Laws.OpcodeByte.matchAll : Statement .matchAll := low_byte_append _ _
theorem Laws.OpcodeByte.layoutEnc : Statement .layoutEnc := low_byte_append _ _
theorem Laws.OpcodeByte.layoutDec : Statement .layoutDec := low_byte_append _ _
theorem Laws.OpcodeByte.charsToCells : Statement .charsToCells := low_byte_append _ _
theorem Laws.OpcodeByte.paint : Statement .paint := low_byte_append _ _
theorem Laws.OpcodeByte.encode : Statement .encode := low_byte_append _ _
theorem Laws.OpcodeByte.decodeDf : Statement .decodeDf := low_byte_append _ _
theorem Laws.OpcodeByte.decodeRaw : Statement .decodeRaw := low_byte_append _ _
theorem Laws.OpcodeByte.sample (x y : Nat) : Statement (.sample x y) := low_byte_append _ _
theorem Laws.OpcodeByte.matchCell (x y : Nat) : Statement (.matchCell x y) := low_byte_append _ _
theorem Laws.OpcodeByte.cellAddr (row subrow : Nat) : Statement (.cellAddr row subrow) := low_byte_append _ _
theorem Laws.OpcodeByte.gtWrite (bank : Bank) (index : Nat) : Statement (.gtWrite bank index) := low_byte_append _ _
theorem Laws.OpcodeByte.gtInval (bank : Bank) (index : Nat) : Statement (.gtInval bank index) := low_byte_append _ _
theorem Laws.OpcodeByte.gtClear (bank : Bank) : Statement (.gtClear bank) := low_byte_append _ _
theorem Laws.OpcodeByte.gtLookup (bank : Bank) : Statement (.gtLookup bank) := low_byte_append _ _
theorem Laws.OpcodeByte.gtReverse (bank : Bank) (code : Nat) : Statement (.gtReverse bank code) := low_byte_append _ _

theorem Laws.ReservedZero.nop : Statement .nop := rfl
theorem Laws.ReservedZero.calibrate : Statement .calibrate := rfl
theorem Laws.ReservedZero.binarize : Statement .binarize := rfl
theorem Laws.ReservedZero.matchAll : Statement .matchAll := rfl
theorem Laws.ReservedZero.layoutEnc : Statement .layoutEnc := rfl
theorem Laws.ReservedZero.layoutDec : Statement .layoutDec := rfl
theorem Laws.ReservedZero.charsToCells : Statement .charsToCells := rfl
theorem Laws.ReservedZero.paint : Statement .paint := rfl
theorem Laws.ReservedZero.encode : Statement .encode := rfl
theorem Laws.ReservedZero.decodeDf : Statement .decodeDf := rfl
theorem Laws.ReservedZero.decodeRaw : Statement .decodeRaw := rfl
theorem Laws.ReservedZero.sample (x y : Nat) : Statement (.sample x y) := BitVec.and_zero
theorem Laws.ReservedZero.matchCell (x y : Nat) : Statement (.matchCell x y) := BitVec.and_zero

/-- A word whose bits are 0 wherever the mask is 1 has no reserved bit set. -/
theorem and_mask_eq_zero (w m : Word) (h : ∀ i, i < 32 → m.getLsbD i = true → w.getLsbD i = false) : w &&& m = 0 := by
  apply BitVec.eq_of_getLsbD_eq
  intro i hi
  have := h i hi
  cases hm : m.getLsbD i <;> simp_all

theorem Laws.ReservedZero.cellAddr (row subrow : Nat) : Statement (.cellAddr row subrow) := by
  apply and_mask_eq_zero
  intro i hi hm
  change (0xFFFF0000#32).getLsbD i = true at hm
  simp only [Sys2Proof.encode, BitVec.getLsbD_append]
  interval_cases i <;> first | exact absurd hm (by decide) | simp

/-- The reserved bits of a glyph write's word are 0. -/
theorem glyph_write_reserved_zero (index bank : Nat) (op : Byte) :
    (BitVec.ofNat 16 index ++ 0#7 ++ BitVec.ofNat 1 bank ++ op) &&& (0x0000FE00 : Word) = 0 := by
  apply and_mask_eq_zero
  intro i hi hm
  interval_cases i <;> first | exact absurd hm (by decide) | (simp only [BitVec.getLsbD_append]; simp)

theorem Laws.ReservedZero.gtWrite (bank : Bank) (index : Nat) : Statement (.gtWrite bank index) :=
  glyph_write_reserved_zero index bank.toNat 0x20

theorem Laws.ReservedZero.gtInval (bank : Bank) (index : Nat) : Statement (.gtInval bank index) :=
  glyph_write_reserved_zero index bank.toNat 0x21

theorem Laws.ReservedZero.gtClear (bank : Bank) : Statement (.gtClear bank) := by cases bank <;> rfl
theorem Laws.ReservedZero.gtLookup (bank : Bank) : Statement (.gtLookup bank) := by cases bank <;> rfl

theorem Laws.ReservedZero.gtReverse (bank : Bank) (code : Nat) : Statement (.gtReverse bank code) := by
  apply and_mask_eq_zero
  intro i hi hm
  change (0xFFFE0000#32).getLsbD i = true at hm
  simp only [Sys2Proof.encode, BitVec.getLsbD_append]
  interval_cases i <;> first | exact absurd hm (by decide) | simp

end Sys2Proof
end

