-- ==== Sys2Proof/Laws/Raster.lean ====
section
/-! SUPPORT. The raster and the cells: the bits a pattern takes from the raster, and what MATCH's writes leave in CELLPAT,
RAW and MAP. -/

namespace Sys2Proof.Machine

/-- Row r, column c of an extracted block is the bit of its pixel (R321). -/
theorem patternBit_extract (s : State) (x y r c : Nat) (hr : r < 8) (hc : c < 8) :
    patternBit (s.extract x y) r c = s.inkAt (x + c) (y + r) := by
  rw [State.extract, patternBit_packRows _ _ _ hr hc, byteMsb_getLsbD _ _ hc]

/-- A pixel's bit depends on SRC_W and on the SRC memory alone. -/
theorem inkAt_congr {s t : State} (h : ∀ a, srcBase ≤ a → a % 4 ≠ 3 → t.byteAt a = s.byteAt a) (hw : t.srcW = s.srcW)
    (x y : Nat) : t.inkAt x y = s.inkAt x y := by
  have hb := bases
  simp only [State.inkAt, State.srcPix, State.pixelOffset, hw]
  rw [h _ (by omega) (by omega), h _ (by omega) (by omega), h _ (by omega) (by omega)]

theorem foundResult_eq (c : Byte) : foundResult c = BitVec.ofNat 32 (0x100 + c.toNat) := by
  apply BitVec.eq_of_toNat_eq
  have := c.isLt
  unfold foundResult
  rw [BitVec.toNat_append, ← Nat.shiftLeft_add_eq_or_of_lt c.isLt, Nat.shiftLeft_eq]
  simp
  omega

/-! ### What MATCH leaves -/

theorem byteAt_matchWrites (s : State) (a : Nat) :
    (matchWrites s).byteAt a =
      if mapBase ≤ a ∧ a < mapBase + 96 then byteLsb (fun j => (s.peResolve (8 * (a - mapBase) + j)).2)
      else if rawBase ≤ a ∧ a < rawBase + 768 then (s.peResolve (a - rawBase)).1
      else (s.writeCells s.pePattern).byteAt a := by
  rw [matchWrites, byteAt_setUnmatched, byteAt_fillBytes, byteAt_fillBytes]

theorem byteAt_matchWrites_outside (s : State) (a : Nat) (h1 : ¬ inRange cellpatBase 6144 a)
    (h2 : ¬ inRange rawBase 768 a) (h3 : ¬ inRange mapBase 96 a) : (matchWrites s).byteAt a = s.byteAt a := by
  rw [byteAt_matchWrites, if_neg h3, if_neg h2, byteAt_writeCells_outside _ _ _ h1]

theorem cellPat_matchWrites (s : State) (i : Nat) (hi : i < 768) : (matchWrites s).cellPat i = s.pePattern i := by
  have hb := bases
  rw [← cellPat_writeCells s s.pePattern i hi]
  refine packRows_congr (fun r hr => ?_)
  rw [byteAt_matchWrites, if_neg (by omega), if_neg (by omega)]

theorem rawCode_matchWrites (s : State) (i : Nat) (hi : i < 768) : (matchWrites s).rawCode i = (s.peResolve i).1 := by
  have hb := bases
  rw [State.rawCode, byteAt_matchWrites, if_neg (by omega), if_pos (by omega), Nat.add_sub_cancel_left]

theorem mapBit_matchWrites (s : State) (i : Nat) (hi : i < 768) : (matchWrites s).mapBit i = (s.peResolve i).2 := by
  rw [State.mapBit, byteAt_matchWrites, if_pos (by omega), byteLsb_getLsbD _ _ (by omega), Nat.add_sub_cancel_left,
    show 8 * (i / 8) + i % 8 = i by omega]

theorem peUnmatched_le (s : State) : s.peUnmatched ≤ 768 := List.countP_le_length.trans (by simp)

theorem unmatchedCnt_matchWrites (s : State) : (matchWrites s).unmatchedCnt.toNat = s.peUnmatched := by
  have := peUnmatched_le s
  rw [matchWrites, State.setUnmatched_unmatchedCnt, BitVec.toNat_ofNat]
  omega

theorem partialMatch_matchWrites (s : State) : (matchWrites s).partialMatch = decide (s.peUnmatched ≠ 0) := by
  rw [matchWrites, State.setUnmatched_partialMatch]

/-- The address function in plain arithmetic (R231). -/
theorem cellAddress_eq (line subrow : Nat) (h : line < 32) :
    cellAddress line subrow = line / 8 * 2048 + subrow * 256 + line % 8 * 32 := by
  unfold cellAddress
  interval_cases line <;> simp <;> omega

/-- The map that LAYOUT_ENC inverts. -/
theorem planeCell_cellAddress (line subrow col : Nat) (h1 : line < 24) (h2 : subrow < 8) (h3 : col < 32) :
    planeCell (cellAddress line subrow + col) = (line, subrow, col) := by
  rw [cellAddress_eq _ _ (by omega)]
  simp only [planeCell, Prod.mk.injEq]
  exact ⟨by omega, by omega, by omega⟩

theorem charMisses_le (s : State) : s.charMisses ≤ 768 := List.countP_le_length.trans (by simp)

end Sys2Proof.Machine
end

