-- ==== Sys2Proof/Laws/Step.lean ====
section
/-! SUPPORT. Everything one step can do. -/

namespace Sys2Proof.Machine

/-- Everything the engine's turn can do: nothing, a completion that changes nothing else, or the effect `u` of a primitive
step of the running command, followed by its completion or by the next step. -/
theorem engineTurn_cases {s t : State} (h : engineTurn s = .next t) :
    (s.busy = false ∧ t = s) ∨ (s.busy = true ∧ ∃ e : Byte, e.toNat ≤ 8 ∧ t = s.complete e) ∨
      ∃ i, s.running = some i ∧ ∃ p ∈ stepsOf i, ∃ u, p s = .ok u ∧
        (t = u.complete 0 ∨ (s.seqStep + 1 < (stepsOf i).length ∧ t = { u with seqStep := s.seqStep + 1 })) := by
  cases hb : s.busy with
  | false =>
    rw [engineTurn_idle hb] at h
    cases h
    exact .inl ⟨rfl, rfl⟩
  | true =>
    right
    cases hr : s.running with
    | none =>
      have hd : ∀ i, decode s.cmd ≠ .ok i := by
        rcases running_eq_none.1 hr with h | h
        · rw [hb] at h; cases h
        · exact h
      rw [engineTurn_illegal hb hd] at h
      cases h
      exact .inl ⟨rfl, 0x01, by decide, rfl⟩
    | some i =>
      rw [engineTurn_running hr] at h
      obtain ⟨t', ht', hc⟩ := exec_cases i s
      cases ht'.symm.trans h
      rcases hc with ⟨e, he, rfl⟩ | ⟨p, hp, u, hu, hc⟩
      · exact .inl ⟨rfl, e, he, rfl⟩
      · exact .inr ⟨i, rfl, p, hp, u, hu, hc⟩

/-- Everything a step can do, on the state without the event it takes: the engine's turn, a hardware reset, an access that
changes no state of the block, or a write that gets OKAY. -/
theorem step_cases {s t : State} (h : step s = .next t) :
    ∃ rest,
      ((s.events = [] ∧ rest = [] ∨ s.events = .engineTurn :: rest) ∧ engineTurn { s with events := rest } = .next t) ∨
        (s.events = .hardwareReset :: rest ∧ t = { s with events := rest }.hardReset) ∨
          ((∃ a, s.events = .access a :: rest) ∧ ∃ n r, t = { s with events := rest, draws := n, responses := r }) ∨
            ∃ off size v, s.events = .access (.write off size v) :: rest ∧ off < 0x2000000 ∧
              accessError off size = false ∧
                t = ({ s with events := rest }.writeData off size v).respond .writeOkay := by
  rcases he : s.events with _ | ⟨e, rest⟩
  · refine ⟨[], .inl ⟨.inl ⟨rfl, rfl⟩, ?_⟩⟩
    rw [step_no_event he] at h
    rw [← h, ← he]
  · refine ⟨rest, ?_⟩
    cases e with
    | engineTurn =>
      rw [step_event he] at h
      exact .inl ⟨.inr rfl, h⟩
    | hardwareReset =>
      rw [step_event he] at h
      cases h
      exact .inr (.inl ⟨rfl, rfl⟩)
    | access a =>
      right
      right
      cases a with
      | read off size =>
        left
        refine ⟨⟨_, rfl⟩, ?_⟩
        by_cases ho : off < 0x2000000
        · cases ha : accessError off size with
          | true =>
            obtain ⟨d, hd⟩ := step_read_error he ho ha
            cases hd.symm.trans h
            exact ⟨_, _, rfl⟩
          | false =>
            cases (step_read he ho ha).symm.trans h
            exact ⟨_, _, rfl⟩
        · cases (step_read_outside he (Nat.not_lt.1 ho)).symm.trans h
      | write off size v =>
        by_cases ho : off < 0x2000000
        · cases ha : accessError off size with
          | true =>
            cases (step_write_error he ho ha).symm.trans h
            exact .inl ⟨⟨_, rfl⟩, s.draws, _, rfl⟩
          | false =>
            cases (step_write he ho ha).symm.trans h
            exact .inr ⟨off, size, v, rfl, ho, ha, rfl⟩
        · cases (step_write_outside he (Nat.not_lt.1 ho)).symm.trans h

end Sys2Proof.Machine
end

