-- ==== Sys2Proof/Tests/Slice0.lean ====
section
/-! SUPPORT. The model's own tests. Expected values are those of spec/95_test_vectors.md or worked out from the rule named; a
`witness_` theorem shows values that meet all hypotheses of the obligation of that name. -/

namespace Sys2Proof.Tests

open Sys2Proof.Machine

/-! ### Decoding (spec/95_test_vectors.md §3.1, spec/30_encoding.md R153 to R160) -/

/-- Format F0: the opcode alone. -/
theorem test_decode_f0 :
    decode 0x00000000 = .ok .nop ∧ decode 0x00000001 = .ok .calibrate ∧ decode 0x00000002 = .ok .binarize ∧
      decode 0x00000003 = .ok .matchAll ∧ decode 0x00000004 = .ok .layoutEnc ∧ decode 0x00000005 = .ok .layoutDec ∧
        decode 0x00000006 = .ok .charsToCells ∧ decode 0x00000007 = .ok .paint ∧ decode 0x00000008 = .ok .encode ∧
          decode 0x00000009 = .ok .decodeDf ∧ decode 0x0000000A = .ok .decodeRaw := by decide

/-- Format FXY: y in bits 31:20, x in bits 19:8. -/
theorem test_decode_fxy :
    decode 0x00200310 = .ok (.sample 3 2) ∧ decode 0xFFFFF010 = .ok (.sample 0xFF0 0xFFF) ∧
      decode 0x0B80F811 = .ok (.matchCell 248 184) := by decide

/-- Format FRS: subrow in bits 15:13, row in bits 12:8. -/
theorem test_decode_frs :
    decode 0x00006912 = .ok (.cellAddr 9 3) ∧ decode 0x0000F712 = .ok (.cellAddr 23 7) := by decide

/-- Formats FBI and FB: bank in bit 8, index in bits 31:16. -/
theorem test_decode_fbi :
    decode 0x00050020 = .ok (.gtWrite .modelA 5) ∧ decode 0x00030121 = .ok (.gtInval .modelB 3) ∧
      decode 0x00000022 = .ok (.gtClear .modelA) ∧ decode 0x00000123 = .ok (.gtLookup .modelB) := by decide

/-- Format FBC: code in bits 15:8, bank in bit 16. -/
theorem test_decode_fbc :
    decode 0x00018024 = .ok (.gtReverse .modelB 0x80) ∧ decode 0x00009924 = .ok (.gtReverse .modelA 0x99) := by decide

/-- Reserved opcodes (R161). -/
theorem test_decode_reserved_opcode :
    ∀ w ∈ [0x0B, 0x0F, 0x13, 0x1F, 0x25, 0xFF], decode (BitVec.ofNat 32 w) = .error .reservedOpcode := by decide

/-- Reserved bits (R162). -/
theorem test_decode_reserved_bits :
    ∀ w ∈ [0x100, 0x80000003, 0x16912, 0x50220, 0x222, 0x20024, 0xFE20],
      decode (BitVec.ofNat 32 w) = .error .reservedBits := by decide

/-- The words of the same vectors, from their commands. -/
theorem test_encode :
    encode (.sample 3 2) = 0x00200310 ∧ encode (.matchCell 248 184) = 0x0B80F811 ∧
      encode (.cellAddr 9 3) = 0x00006912 ∧ encode (.gtWrite .modelA 5) = 0x00050020 ∧
        encode (.gtInval .modelB 3) = 0x00030121 ∧ encode (.gtClear .modelB) = 0x00000122 ∧
          encode (.gtLookup .modelB) = 0x00000123 ∧ encode (.gtReverse .modelB 0x80) = 0x00018024 ∧
            encode .encode = 0x00000008 := by decide

/-- The opcode table's numbering: one 32-bit word. -/
theorem test_decodeTableWord :
    decodeTableWord 32 0x0B80F811 = some (.matchCell 248 184) ∧ decodeTableWord 32 0x0000000B = none := by decide

/-- An ill-formed command for each check, refused (R165). -/
theorem test_illformed_refused :
    (Instr.sample 4096 0).wellFormed = false ∧ (Instr.sample 0 4096).wellFormed = false ∧
      (Instr.matchCell 4096 0).wellFormed = false ∧ (Instr.matchCell 0 4096).wellFormed = false ∧
        (Instr.cellAddr 32 0).wellFormed = false ∧ (Instr.cellAddr 0 8).wellFormed = false ∧
          (Instr.gtWrite .modelA 65536).wellFormed = false ∧ (Instr.gtInval .modelB 65536).wellFormed = false ∧
            (Instr.gtReverse .modelA 256).wellFormed = false := by decide

/-- The largest operands of each field are well-formed. -/
theorem test_wellformed_accepted :
    (Instr.sample 4095 4095).wellFormed = true ∧ (Instr.matchCell 4095 4095).wellFormed = true ∧
      (Instr.cellAddr 31 7).wellFormed = true ∧ (Instr.gtWrite .modelB 65535).wellFormed = true ∧
        (Instr.gtReverse .modelB 255).wellFormed = true := by decide

/-! ### Helpers -/

/-- The outcome is a next state with the property. -/
def after (o : Host.Outcome State Fault Refusal) (p : State → Bool) : Bool :=
  match o with
  | .next t => p t
  | .fault _ => false
  | .refused _ => false

/-- Bank A after rows 1 and 2 of §3.2, with A_PAT staged under code 0x42. -/
def bankState : State :=
  { State.reset with
    gtA := [(0, ⟨true, 0, 0x20⟩), (1, ⟨true, 0x003C42427E424200, 0x41⟩)]
    gtCountA := 2
    gtPatHi := 0x003C4242
    gtPatLo := 0x7E424200
    gtCode := 0x42 }

/-- Bank B after row 12 of §3.2. -/
def bankBState : State :=
  { State.reset with
    gtB := [(3, ⟨true, 0xFF00FF00FF00FF00, 0x80⟩), (7, ⟨true, 0x0101010101010101, 0x80⟩)]
    gtCountB := 2 }

/-- A raster of the given size with the given window origin. -/
def raster (w h : Half) (x y : Word) : State := { State.reset with srcW := w, srcH := h, usedOffX := x, usedOffY := y }

/-- Row 0 of §3.5's raster. -/
def pixels : State :=
  { raster 8 1 0 0 with
    mem :=
      ([(128, 128, 128), (127, 255, 255), (255, 127, 255), (255, 255, 127), (255, 255, 255), (0, 0, 0), (200, 200, 128),
        (128, 0, 255)] : List (Nat × Nat × Nat)).zipIdx.flatMap (fun q =>
          [(srcBase + 4 * q.2, BitVec.ofNat 8 q.1.1), (srcBase + 4 * q.2 + 1, BitVec.ofNat 8 q.1.2.1),
            (srcBase + 4 * q.2 + 2, BitVec.ofNat 8 q.1.2.2)]) }

/-- An 8×8 raster with the pattern drawn at (0, 0). -/
def drawn (p : Pattern) : State :=
  (raster 8 8 0 0).fillBytes srcBase 256 (fun k => if patternBit p (k / 32) (k / 4 % 8) then 0x00 else 0xFF)

/-- The state with one event to come. -/
def withEvent (s : State) (e : Event) : State := { s with events := [e] }

/-! ### Commands, one step each -/

/-- §3.7: NOP. -/
theorem test_nop : after (exec .nop (State.reset.accept 0)) (fun t =>
    t == { State.reset with intDone := true }) = true := by decide

/-- §3.4: 640 × 512. -/
theorem test_calibrate : after (exec .calibrate (raster 640 512 0 0)) (fun t =>
    t.effW == 320 && t.effH == 256 && t.usedOffX == 32 && t.usedOffY == 33 && t.scaled && t.errCause == 0) = true := by
  decide

/-- §3.4: 200 × 150 gives negative offsets; 352 × 296 rounds a tie up. -/
theorem test_calibrate_signs :
    after (exec .calibrate (raster 200 150 0 0)) (fun t => t.usedOffX == 0xFFFFFFE4 && t.usedOffY == 0xFFFFFFEB) = true ∧
      after (exec .calibrate (raster 352 296 0 0)) (fun t => t.effH == 269 && t.usedOffY == 39) = true := by decide

/-- §3.5: the bit of one pixel, by channel. -/
theorem test_sample : ([1, 2, 3, 5, 7].all fun x => after (exec (.sample x 0) pixels) (fun t => t.result == 1)) = true ∧
    ([0, 4, 6].all fun x => after (exec (.sample x 0) pixels) (fun t => t.result == 0)) = true := by decide

/-- §3.5: a pixel outside the raster, and a raster wider than SRC_MAX_W. -/
theorem test_sample_errors :
    after (exec (.sample 8 0) pixels) (fun t => t.errCause == 2 && t.intErr && t.result == 0) = true ∧
      after (exec (.sample 0 0) (raster 1025 1 0 0)) (fun t => t.errCause == 3) = true := by decide

/-- §3.5: CLEAN byte 0 is 0x75. -/
theorem test_binarize : after (exec .binarize pixels) (fun t => t.byteAt 0x80000 == 0x75) = true := by decide +kernel

/-- §3.5: SRC_W = 0. -/
theorem test_binarize_dimensions : after (exec .binarize (raster 0 2 0 0)) (fun t => t.errCause == 3) = true := by decide

/-- §3.6: a miss gives the placeholder and the pattern. -/
theorem test_matchCell : after (exec (.matchCell 0 0) (drawn 0x8100000000000081)) (fun t =>
    t.result == 0x3F && t.resultPatHi == 0x81000000 && t.resultPatLo == 0x00000081) = true := by decide +kernel

/-- §3.6: a block that does not fit. -/
theorem test_matchCell_outside : after (exec (.matchCell 249 0) (raster 256 192 0 0)) (fun t => t.errCause == 2) = true := by
  decide

/-- §3.6: the checks of MATCH, in order. -/
theorem test_match_checks :
    after (exec .matchAll (raster 256 192 1 0)) (fun t => t.errCause == 6) = true ∧
      after (exec .matchAll (raster 256 192 0xFFFFFFFF 0)) (fun t => t.errCause == 6) = true ∧
        after (exec .matchAll (raster 321 257 0 0)) (fun t => t.errCause == 5) = true ∧
          after (exec .matchAll (raster 0 192 0 0)) (fun t => t.errCause == 3) = true := by decide

/-- §3.6: the window that touches both edges fits. -/
theorem test_match_edges : (raster 320 256 64 64).windowFits ∧ ¬ (raster 320 256 64 65).windowFits := by decide

/-- §3.3: CELLPAT[33] = 0x8000000000000001 puts 0x80 at DF[33] and 0x01 at DF[1825]. -/
theorem test_layoutEnc : after (exec .layoutEnc { State.reset with
    mem := (List.range 8).map (fun r => (0x10108 + r, rowByte 0x8000000000000001 r)) }) (fun t =>
      t.dfByte 33 == 0x80 && t.dfByte 1825 == 0x01 && t.dfByte 6144 == 0x38) = true := by decide +kernel

/-- §3.3: DF[2848] = 0xFF gives CELLPAT[288] = 0x000000FF00000000. -/
theorem test_layoutDec : after (exec .layoutDec { State.reset with
    inLen := 6912
    mem := (List.range 8).map (fun r => (dfBase + 2080 + 256 * r, if r = 3 then 0xFF else 0x00)) }) (fun t =>
      t.cellPat 288 == 0x000000FF00000000) = true := by decide +kernel

/-- §3.3 and §3.7: the wrong IN_LEN. -/
theorem test_input_size : ([Instr.layoutDec, .decodeDf].all fun i =>
    after (exec i { State.reset with inLen := 768 }) (fun t => t.errCause == 4)) = true ∧
      ([Instr.charsToCells, .decodeRaw].all fun i =>
        after (exec i { State.reset with inLen := 6912 }) (fun t => t.errCause == 4)) = true := by decide

/-- P4: code 0x41 becomes A_PAT, code 0x99 the blank cell. -/
theorem test_charsToCells : after (exec .charsToCells { bankState with
    inLen := 768
    mem := [(rawBase, 0x41), (rawBase + 1, 0x99)] }) (fun t =>
      t.cellPat 0 == 0x003C42427E424200 && t.cellPat 1 == 0) = true := by decide +kernel

/-- R355, R356: an ink pixel is 00 00 00 FF, a paper pixel FF FF FF FF. -/
theorem test_paint_bytes : ((List.range 8).map ({ State.reset with
    mem := (List.range 8).map (fun r => (0x10000 + r, rowByte 0x8000000000000001 r)) } : State).paintByte) =
      [0x00, 0x00, 0x00, 0xFF, 0xFF, 0xFF, 0xFF, 0xFF] := by decide +kernel

/-- R356: PAINT sets the dimensions. -/
theorem test_paint_dimensions : after (exec .paint State.reset) (fun t => t.srcW == 256 && t.srcH == 192) = true := by
  decide

/-- P5: ENCODE of a 640 × 512 raster keeps CALIBRATE's results and completes with SCALE_REQUIRED. -/
theorem test_encode_scale : after (exec .encode ((raster 640 512 0 0).accept 8)) (fun s₁ =>
    s₁.busy && !s₁.intDone && after (exec .encode s₁) (fun t =>
      t.errCause == 5 && t.effW == 320 && t.effH == 256 && t.usedOffY == 33 && t.intErr && !t.busy)) = true := by decide

/-- §3.3: CELL_ADDR 9, 3 and CELL_ADDR 24, 0. -/
theorem test_cellAddr : after (exec (.cellAddr 9 3) State.reset) (fun t => t.result == 2848) = true ∧
    after (exec (.cellAddr 24 0) State.reset) (fun t => t.errCause == 2 && t.result == 0) = true := by decide

/-- §3.2 rows 3 and 4: the same pattern at another index, then at its own. -/
theorem test_gtWrite :
    after (exec (.gtWrite .modelA 2) bankState) (fun t => t.errCause == 8 && t.gtA == bankState.gtA) = true ∧
      after (exec (.gtWrite .modelA 1) bankState) (fun t => t.errCause == 0 && t.gtCountA == 2 &&
        t.gtA.lookup 1 == some ⟨true, 0x003C42427E424200, 0x42⟩) = true := by decide

/-- §3.2 rows 6 and 18: the index check, and the lock check before it. -/
theorem test_gtWrite_checks :
    after (exec (.gtWrite .modelA 1024) bankState) (fun t => t.errCause == 2) = true ∧
      after (exec (.gtWrite .modelA 1024) { bankState with gtLock := true }) (fun t => t.errCause == 7) = true := by decide

/-- §3.2 row 14. -/
theorem test_gtInval : after (exec (.gtInval .modelB 3) bankBState) (fun t =>
    t.gtCountB == 1 && lookupCode t.gtB 0x80 == some 0x0101010101010101) = true := by decide

/-- §3.2 row 16. -/
theorem test_gtClear : after (exec (.gtClear .modelA) { bankState with gtB := bankBState.gtB, gtCountB := 2 }) (fun t =>
    t.gtCountA == 0 && t.gtCountB == 2 && lookupPattern t.gtA 0 == none) = true := by decide

/-- §3.2 rows 8 and 9: a miss is 0, the blank pattern is found with code 0x20. -/
theorem test_gtLookup :
    after (exec (.gtLookup .modelA) { bankState with gtPatHi := 0xDEADBEEF, gtPatLo := 0 }) (fun t => t.result == 0) = true ∧
      after (exec (.gtLookup .modelA) { bankState with gtPatHi := 0, gtPatLo := 0 }) (fun t => t.result == 0x120) = true := by
  decide

/-- §3.2 rows 11 and 13: a miss gives the code alone, a shared code the lowest index. -/
theorem test_gtReverse :
    after (exec (.gtReverse .modelA 0x99) bankState) (fun t =>
      t.result == 0x99 && t.resultPatHi == 0 && t.resultPatLo == 0) = true ∧
      after (exec (.gtReverse .modelB 0x80) bankBState) (fun t =>
        t.result == 0x180 && t.resultPatHi == 0xFF00FF00 && t.resultPatLo == 0xFF00FF00) = true := by decide

/-! ### Host accesses, reset and the step -/

/-- §3.9: reads of the register region. -/
theorem test_register_reads :
    ([(0x000, 0x474D5045), (0x004, 0x00010000), (0x048, 0x3F), (0x080, 0), (0x078, 0x400), (0x07C, 0x04000400),
      (0x028, 0xFFFFFFFF), (0x044, 0x38)] : List (Nat × Word)).all (fun q =>
        after (step (withEvent State.reset (.access (.read q.1 .word)))) (fun t => t.responses == [.readOkay q.2])) = true := by
  decide

/-- §3.9: little-endian reads of a pixel, by size. -/
theorem test_window_reads :
    ([(0x1000004, .word, 0x40302010), (0x1000006, .half, 0x4030), (0x1000005, .byte, 0x20)] :
      List (Nat × Size × Word)).all (fun q =>
        after (step (withEvent { State.reset with
          mem := [(0x1000004, 0x10), (0x1000005, 0x20), (0x1000006, 0x30), (0x1000007, 0x40)] }
            (.access (.read q.1 q.2.1)))) (fun t => t.responses == [.readOkay q.2.2])) = true := by decide

/-- §3.9: accesses that get ERROR. -/
theorem test_bus_errors :
    ([(0x000, .byte), (0x002, .half), (0x006, .word), (0x1000005, .half)] : List (Nat × Size)).all (fun q =>
      accessError q.1 q.2) = true := by decide

/-- §3.9 and R105: where windows end. -/
theorem test_regions : regionOf State.reset.params 0x31AFF = .df ∧ regionOf State.reset.params 0x31B00 = .reserved ∧
    regionOf State.reset.params 0x20300 = .reserved ∧ regionOf State.reset.params 0x4005F = .map ∧
      regionOf State.reset.params 0x9FFFF = .clean ∧ regionOf State.reset.params 0xA0000 = .reserved ∧
        regionOf State.reset.params 0x13FFFFF = .src := by decide

/-- R102: a word write stores its low byte at the lowest address. -/
theorem test_window_write : after (step (withEvent State.reset (.access (.write 0x20004 .word 0x40302010)))) (fun t =>
    t.mem == [(0x20004, 0x10), (0x20005, 0x20), (0x20006, 0x30), (0x20007, 0x40)]) = true := by decide

/-- §3.8: a CMD write while BUSY is dropped; writing 0x20 to STATUS clears CMD_OVERRUN. -/
theorem test_overrun :
    after (step (withEvent (State.reset.accept 8) (.access (.write 0x010 .word 1)))) (fun t =>
      t.cmd == 8 && t.readReg .status == 0x21 &&
        after (step (withEvent t (.access (.write 0x00C .word 0x20)))) (fun u => u.readReg .status == 1)) = true := by decide

/-- §3.2 row 20: a soft reset ignores the lock bit of the same write. -/
theorem test_softReset :
    after (step (withEvent { bankState with gtLock := true } (.access (.write 0x008 .word 3)))) (fun t =>
      !t.gtLock && t.gtCountA == 0 && lookupPattern t.gtA 0 == none && t.readReg .ctrl == 0) = true := by decide

/-- The memory after reset is canonical. -/
theorem test_reset_memory : Memory.wf State.reset.mem := by decide

/-- A word placed for the next step runs as the first command: CELL_ADDR 9, 3. -/
theorem test_withFetchWord : after (step (State.reset.withFetchWord 32 0x6912)) (fun t => t.result == 2848 && !t.busy) = true := by
  decide

/-- §3.8: the interrupt line. -/
theorem test_irq : { State.reset with doneEn := true, intDone := true, intErr := true }.irq = true ∧
    { State.reset with doneEn := true, intErr := true }.irq = false ∧
      { State.reset with errEn := true, intDone := true }.irq = false := by decide

/-! ### Witnesses: values that meet the hypotheses of each obligation -/

/-- An outcome that passes a test is a next state that passes it. -/
theorem of_after {o : Host.Outcome State Fault Refusal} {p : State → Bool} (h : after o p = true) :
    ∃ t, o = .next t ∧ p t = true := by
  cases o with
  | next t => exact ⟨t, rfl, h⟩
  | fault _ => cases h
  | refused _ => cases h

/-- A host write to come, to an IDLE block. -/
def idleWrite (off : Nat) (size : Size) (v : Word) : State := withEvent State.reset (.access (.write off size v))

/-- A host write to come while ENCODE runs. -/
def busyWrite (off : Nat) (size : Size) (v : Word) : State :=
  withEvent (State.reset.accept 8) (.access (.write off size v))

/-- The banks after reset are well formed. -/
theorem reset_banksOk (s : State) (ha : s.gtA = []) (hb : s.gtB = []) : s.BanksOk := by
  intro b
  cases b
  · exact (congrArg (BankOk s.params.gtEntries) ha).mpr (bankOk_nil _)
  · exact (congrArg (BankOk s.params.gtEntries) hb).mpr (bankOk_nil _)

/-- The banks of `bankState` are well formed. -/
theorem bankState_banksOk : bankState.BanksOk := by
  intro b
  cases b
  · exact ⟨by decide, by decide, by decide⟩
  · exact bankOk_nil _

/-- The largest operands of every format. -/
theorem witness_DecodeOfEncode : ∀ i ∈ [Instr.decodeRaw, .sample 4095 4095, .cellAddr 31 7, .gtWrite .modelB 65535,
    .gtClear .modelB, .gtReverse .modelB 255], i.wellFormed = true := by decide

theorem witness_EncodeOfDecode : decode 0x0B80F811 = .ok (.matchCell 248 184) := by decide

/-- The ends of each range of reserved opcodes. -/
theorem witness_ReservedOpcodeIsIllegal : State.reset.ready ∧
    ∀ w ∈ [0x0B, 0x0F, 0x13, 0x1F, 0x25, 0xFF],
      let n := ((BitVec.ofNat 32 w).extractLsb' 0 8).toNat
      (0x0B ≤ n ∧ n ≤ 0x0F) ∨ (0x13 ≤ n ∧ n ≤ 0x1F) ∨ 0x25 ≤ n := by decide

/-- A lowest reserved bit of each format set. -/
theorem witness_ReservedBitIsIllegal : State.reset.ready ∧
    ∀ q ∈ ([(0x100, .nop), (0x10012, .cellAddr 0 0), (0x220, .gtWrite .modelA 0), (0x222, .gtClear .modelA),
      (0x20024, .gtReverse .modelA 0)] : List (Nat × Instr)),
      (BitVec.ofNat 32 q.1).extractLsb' 0 8 = q.2.opcode ∧ BitVec.ofNat 32 q.1 &&& q.2.reservedMask ≠ 0 := by decide

theorem witness_StepRunsLatchedCommand : (State.reset.accept 8).busy = true ∧ decode (State.reset.accept 8).cmd = .ok .encode ∧
    (State.reset.accept 8).events = [] ∧ (withEvent (State.reset.accept 8) .engineTurn).events = [.engineTurn] := by decide

theorem witness_CmdWriteIsAccepted : (idleWrite 0x010 .word 8).busy = false ∧
    (idleWrite 0x010 .word 8).events = [.access (.write 0x010 .word 8)] := by decide

theorem witness_CmdWriteWhileBusyOverruns : (busyWrite 0x010 .word 1).busy = true ∧
    (busyWrite 0x010 .word 1).events = [.access (.write 0x010 .word 1)] := by decide

/-- Each clause at its ends. -/
theorem witness_BusyWriteIsDropped :
    ∀ q ∈ ([(0x008, .word), (0x020, .word), (0x06C, .word), (0x10000, .byte), (0x117FF, .byte), (0x20000, .word),
      (0x202FE, .half), (0x30000, .word), (0x31AFC, .word), (0x1000000, .word), (0x13FFFFC, .word)] : List (Nat × Size)),
      let s := busyWrite q.1 q.2 2
      s.params.Ok ∧ s.busy = true ∧ q.1 % q.2.bytes = 0 ∧ (q.1 < 0x10000 → q.2 = .word) ∧
        s.events = [.access (.write q.1 q.2 2)] ∧
        ((q.1 = 0x008 ∧ (2 : Word).getLsbD 0 = false) ∨
          q.1 ∈ [0x020, 0x024, 0x028, 0x02C, 0x030, 0x034, 0x040, 0x044, 0x054, 0x064, 0x068, 0x06C] ∨
          inRange 0x10000 6144 q.1 ∨ inRange 0x20000 768 q.1 ∨ inRange 0x30000 6912 q.1 ∨
          (inRange 0x1000000 (4 * (s.params.srcMaxW * s.params.srcMaxH)) q.1 ∧ q.1 < 0x2000000)) := by decide

/-- Each clause at its ends: BUSY and IDLE, and the parts past the live sizes while IDLE. -/
theorem witness_ReadOnlyWriteIsIgnored :
    (∀ q ∈ ([(0x000, .word), (0x07C, .word), (0x080, .word), (0xFFFC, .word), (0x40000, .byte), (0x4FFFF, .byte),
      (0x50000, .word), (0x7FFFF, .byte), (0x80000, .half), (0xFFFFF, .byte), (0x100000, .word), (0xFFFFFE, .half)] :
        List (Nat × Size)),
      q.1 % q.2.bytes = 0 ∧ (q.1 < 0x10000 → q.2 = .word) ∧
        (busyWrite q.1 q.2 1).events = [.access (.write q.1 q.2 1)] ∧
        (idleWrite q.1 q.2 1).events = [.access (.write q.1 q.2 1)] ∧
        (q.1 ∈ [0x000, 0x004, 0x014, 0x038, 0x03C, 0x048, 0x04C, 0x050, 0x058, 0x05C, 0x060, 0x070, 0x074, 0x078, 0x07C] ∨
          (0x080 ≤ q.1 ∧ q.1 < 0x10000) ∨ inRange 0x40000 0x10000 q.1 ∨ inRange 0x80000 0x80000 q.1 ∨
          (0x50000 ≤ q.1 ∧ q.1 < 0x80000) ∨ (0x100000 ≤ q.1 ∧ q.1 < 0x1000000))) ∧
    ∀ q ∈ ([(0x11800, .word), (0x1FFFF, .byte), (0x20300, .half), (0x2FFFF, .byte), (0x31B00, .word), (0x3FFFF, .byte),
      (0x1400000, .word), (0x1FFFFFF, .byte)] : List (Nat × Size)),
      let s := idleWrite q.1 q.2 1
      s.busy = false ∧ q.1 % q.2.bytes = 0 ∧ s.events = [.access (.write q.1 q.2 1)] ∧
        ((0x10000 + 6144 ≤ q.1 ∧ q.1 < 0x20000) ∨ (0x20000 + 768 ≤ q.1 ∧ q.1 < 0x30000) ∨
          (0x30000 + 6912 ≤ q.1 ∧ q.1 < 0x40000) ∨
          (0x1000000 + 4 * (s.params.srcMaxW * s.params.srcMaxH) ≤ q.1 ∧ q.1 < 0x2000000)) := by decide

/-- A size error at each end of the register region, and misaligned accesses at each end of the block. -/
theorem witness_BusErrorHasNoEffect :
    ∀ q ∈ ([(0x000, .byte), (0xFFFE, .half), (0x002, .word), (0x10001, .half), (0x1FFFFFE, .word)] : List (Nat × Size)),
      q.1 < 0x2000000 ∧ ((q.1 < 0x10000 ∧ q.2 ≠ .word) ∨ q.1 % q.2.bytes ≠ 0) ∧
        (idleWrite q.1 q.2 1).events = [.access (.write q.1 q.2 1)] ∧
        (withEvent State.reset (.access (.read q.1 q.2))).events = [.access (.read q.1 q.2)] := by decide

/-- IDLE and BUSY: a register, a reserved register offset, each window at its ends, the first byte past each, and reserved
space; and, while ENCODE runs, a register bit and a memory bit it may not write. -/
theorem witness_ReadGivesCurrentValue :
    (∀ q ∈ ([(0x000, .word), (0x07C, .word), (0x080, .word), (0xFFFC, .word), (0x10000, .byte), (0x117FF, .byte),
      (0x11800, .byte), (0x202FF, .byte), (0x31AFE, .half), (0x4005F, .byte), (0x40060, .byte), (0x50000, .word),
      (0x9FFFF, .byte), (0xA0000, .byte), (0x13FFFFC, .word), (0x1FFFFFF, .byte)] : List (Nat × Size)),
      q.1 < 0x2000000 ∧ q.1 % q.2.bytes = 0 ∧ (q.1 < 0x10000 → q.2 = .word) ∧
        ∀ s ∈ [withEvent State.reset (.access (.read q.1 q.2)), withEvent (State.reset.accept 8) (.access (.read q.1 q.2))],
          s.events = [.access (.read q.1 q.2)]) ∧
    ((0x00C, Reg.status) ∈ registerTable ∧ (0x058, Reg.result) ∈ registerTable) ∧
    (liveOffset State.reset.params 0x9FFFF ∧ ¬ liveOffset State.reset.params 0xA0000 ∧
      liveOffset State.reset.params 0x13FFFFF ∧ ¬ liveOffset State.reset.params 0x1400000) ∧
    ∀ i, (State.reset.accept 8).running = some i →
      ¬ mayWriteReg i .status 0 ∧ ¬ mayWriteReg i .errCause 7 ∧ ¬ mayWriteBit (State.reset.accept 8) i 0x1000000 0 := by
  refine ⟨by decide, by decide, by decide, fun i hi => ?_⟩
  have h : (State.reset.accept 8).running = some .encode := by decide
  obtain rfl : Instr.encode = i := Option.some.inj (h.symm.trans hi)
  simp [mayWriteReg, mayWriteBit, calibrationBit, matchingBit, inRange]

/-- Each window at its ends. -/
theorem witness_IdleWindowWriteIsLittleEndian :
    ∀ q ∈ ([(0x10000, .word), (0x117FC, .word), (0x20000, .byte), (0x202FF, .byte), (0x30000, .half), (0x31AFE, .half),
      (0x1000000, .word), (0x13FFFFC, .word)] : List (Nat × Size)),
      let s := idleWrite q.1 q.2 0x40302010
      s.params.Ok ∧ s.busy = false ∧ q.1 % q.2.bytes = 0 ∧ q.1 < 0x2000000 ∧
        (inRange cellpatBase 6144 q.1 ∨ inRange rawBase 768 q.1 ∨ inRange dfBase 6912 q.1 ∨
          inRange srcBase (4 * (s.params.srcMaxW * s.params.srcMaxH)) q.1) ∧
        s.events = [.access (.write q.1 q.2 0x40302010)] := by decide

/-- A plain register IDLE, and INT_EN while BUSY and IDLE. -/
theorem witness_RegisterWriteReadsBack :
    ((idleWrite 0x044 .word 0xFFFFFFFF).busy = false ∧
      ((0x044, .attrFill, 0xFF) : Nat × Reg × Word) ∈ ([(0x020, .srcW, 0xFFFF), (0x024, .srcH, 0xFFFF),
        (0x028, .reqOffX, 0xFFFFFFFF), (0x02C, .reqOffY, 0xFFFFFFFF), (0x030, .usedOffX, 0xFFFFFFFF),
        (0x034, .usedOffY, 0xFFFFFFFF), (0x040, .modelSel, 1), (0x044, .attrFill, 0xFF), (0x054, .inLen, 0xFFFF),
        (0x064, .gtPatLo, 0xFFFFFFFF), (0x068, .gtPatHi, 0xFFFFFFFF), (0x06C, .gtCode, 0xFF)] :
          List (Nat × Reg × Word)) ∧
      (idleWrite 0x044 .word 0xFFFFFFFF).events = [.access (.write 0x044 .word 0xFFFFFFFF)]) ∧
    (busyWrite 0x018 .word 2).events = [.access (.write 0x018 .word 2)] ∧
      (idleWrite 0x018 .word 3).events = [.access (.write 0x018 .word 3)] := by decide

theorem witness_AcknowledgeClearsWrittenBits :
    (busyWrite 0x01C .word 1).events = [.access (.write 0x01C .word 1)] ∧
      (idleWrite 0x01C .word 2).events = [.access (.write 0x01C .word 2)] ∧
        (busyWrite 0x00C .word 0x20).events = [.access (.write 0x00C .word 0x20)] ∧
          (idleWrite 0x00C .word 0x40).events = [.access (.write 0x00C .word 0x40)] := by decide

theorem witness_HardResetValues : (withEvent bankState .hardwareReset).events = [.hardwareReset] := rfl

/-- BUSY and IDLE; ENCODE may not write a byte of SRC. -/
theorem witness_SoftResetState : (3 : Word).getLsbD 0 = true ∧
    (busyWrite 0x008 .word 3).events = [.access (.write 0x008 .word 3)] ∧
      (idleWrite 0x008 .word 3).events = [.access (.write 0x008 .word 3)] ∧
        (busyWrite 0x008 .word 3).running = some .encode ∧
          ∀ i, (busyWrite 0x008 .word 3).running = some i → ¬ mayWriteBit (busyWrite 0x008 .word 3) i 0x1000000 0 := by
  refine ⟨by decide, by decide, by decide, by decide, fun i hi => ?_⟩
  have h : (busyWrite 0x008 .word 3).running = some .encode := by decide
  obtain rfl : Instr.encode = i := Option.some.inj (h.symm.trans hi)
  show ¬ (inRange _ _ _ ∨ inRange _ _ _ ∨ inRange _ _ _ ∨ inRange _ _ _)
  decide

/-- The last row of the screen, and the first row past it. -/
theorem witness_CellAddrResult : (7 < 8 ∧ 23 < 24) ∧ (0 < 8 ∧ 24 ≤ 24) := by decide

/-- Each clause: locked; unlocked and one past the last index; the duplicate at another index. -/
theorem witness_GlyphBankChecks :
    { bankState with gtLock := true }.gtLock = true ∧ (bankState.gtLock = false ∧ bankState.params.gtEntries ≤ 1024) ∧
      (bankState.gtLock = false ∧ 1023 < bankState.params.gtEntries ∧
        ∃ e ∈ bankState.bank .modelA, e.1 ≠ 1023 ∧ e.2.valid = true ∧
          e.2.pattern = bankState.gtPatHi ++ bankState.gtPatLo) := by decide

theorem witness_GtWriteStoresEntry : bankState.params.Ok ∧ bankState.BanksOk ∧ bankState.gtLock = false ∧
    1 < bankState.params.gtEntries ∧ ∀ e ∈ bankState.bank .modelA, e.2.valid = true →
      e.2.pattern = bankState.gtPatHi ++ bankState.gtPatLo → e.1 = 1 :=
  ⟨by decide, bankState_banksOk, by decide, by decide, by decide⟩

theorem witness_GtInvalAndClearInvalidate : bankState.params.Ok ∧ bankState.BanksOk ∧ bankState.gtLock = false ∧
    1023 < bankState.params.gtEntries := ⟨by decide, bankState_banksOk, by decide, by decide⟩

theorem witness_ForwardLookupFindsTheEntry : BankOk 1024 bankState.gtA := bankState_banksOk .modelA

theorem witness_ReverseLookupFindsTheLowestIndex : BankOk 8 bankBState.gtB := ⟨by decide, by decide, by decide⟩

theorem witness_LookupCommandResults : 255 < 256 := by decide

theorem witness_ReverseThenForwardReturnsTheCode : bankState.BanksOk ∧ bankState.gtLock = false ∧
    1023 < bankState.params.gtEntries ∧ ∀ e ∈ bankState.bank .modelB, e.2.valid = true →
      e.2.pattern = bankState.gtPatHi ++ bankState.gtPatLo → e.1 = 1023 :=
  ⟨bankState_banksOk, by decide, by decide, by decide⟩

theorem witness_SampleResult : pixels.legalDims ∧ 7 < pixels.srcW.toNat ∧ 0 < pixels.srcH.toNat := by decide

/-- Each clause: no row; the pixel and the block one past the edge. -/
theorem witness_PixelCommandChecks : ¬ (raster 256 0 0 0).legalDims ∧ ¬ (raster 1025 1 0 0).legalDims ∧
    ((raster 256 192 0 0).legalDims ∧ (raster 256 192 0 0).srcW.toNat ≤ 256 ∧ (raster 256 192 0 0).srcW.toNat < 249 + 8 ∧
      (raster 256 192 0 0).srcH.toNat < 185 + 8) := by decide

theorem witness_BinarizeResult : (raster 1024 1024 0 0).legalDims ∧ 1023 < (raster 1024 1024 0 0).srcW.toNat := by decide

/-- Each clause: no column; 321 × 257; and every edge of the window missed by one. -/
theorem witness_RasterCommandChecks : ¬ (raster 0 192 0 0).legalDims ∧
    ((raster 321 257 0 0).legalDims ∧ 320 < (raster 321 257 0 0).srcW.toNat ∧ 256 < (raster 321 257 0 0).srcH.toNat) ∧
      ((raster 256 192 0 0).legalDims ∧ ¬ (320 < (raster 256 192 0 0).srcW.toNat ∧ 256 < (raster 256 192 0 0).srcH.toNat) ∧
        (raster 256 192 0xFFFFFFFF 0).usedOffX.toInt < 0 ∧ (raster 256 192 0 0xFFFFFFFF).usedOffY.toInt < 0 ∧
        ((raster 256 192 1 0).srcW.toNat : Int) < (raster 256 192 1 0).usedOffX.toInt + 256 ∧
        ((raster 256 192 0 1).srcH.toNat : Int) < (raster 256 192 0 1).usedOffY.toInt + 192) := by decide

theorem witness_MatchCellResult : (raster 256 192 0 0).legalDims ∧ 248 + 8 ≤ (raster 256 192 0 0).srcW.toNat ∧
    184 + 8 ≤ (raster 256 192 0 0).srcH.toNat := by decide

/-- The smallest raster, and a wide one of 256 rows with the window at its far corner. -/
theorem witness_MatchResult : ∀ s ∈ [raster 256 192 0 0, raster 1024 256 768 64],
    s.legalDims ∧ ¬ (320 < s.srcW.toNat ∧ 256 < s.srcH.toNat) ∧ s.windowFits := by decide

/-- The lengths of a display file and of a character stream: each is the other clause of the other command. -/
theorem witness_input_lengths : { State.reset with inLen := 6912 }.inLen = 6912 ∧
    { State.reset with inLen := 768 }.inLen = 768 ∧ { State.reset with inLen := 768 }.inLen ≠ 6912 ∧
      { State.reset with inLen := 6912 }.inLen ≠ 768 := by decide

theorem witness_LayoutDecResult : { State.reset with inLen := 6912 }.inLen = 6912 ∧ State.reset.inLen ≠ 6912 := by decide

theorem witness_CharsToCellsResult : { State.reset with inLen := 768 }.inLen = 768 ∧ State.reset.inLen ≠ 768 := by decide

theorem witness_RoundIsNearestTiesUp : (0 : Int) < 1 := by decide

/-- 640 × 512: effective 320 × 256, centred at (32, 33) with the correction. -/
theorem witness_CalibrateResult :
    let s := raster 640 512 0 0
    (320 : Int) = (if 320 < s.srcW.toNat ∧ 256 < s.srcH.toNat then (if s.srcW.toNat % 256 = 0 then 256 else 320)
        else (s.srcW.toNat : Int)) ∧
      (256 : Int) = (if 320 < s.srcW.toNat ∧ 256 < s.srcH.toNat then
        (2 * (s.srcH.toNat * (320 : Int)) + s.srcW.toNat) / (2 * s.srcW.toNat) else (s.srcH.toNat : Int)) ∧
      (32 : Int) = (2 * (320 - 256) + 2) / 4 ∧ (33 : Int) = (2 * (256 - 192) + 2) / 4 + 1 := by decide

/-- Both clauses: automatic and requested offsets. -/
theorem witness_CalibrateDeterminedByDimensions :
    (State.reset.reqOffX.toInt < 0 ∧ State.reset.reqOffY.toInt < 0) ∧
      (0 ≤ { State.reset with reqOffX := 0, reqOffY := 64 }.reqOffX.toInt ∧
        0 ≤ { State.reset with reqOffX := 0, reqOffY := 64 }.reqOffY.toInt) := by decide

theorem witness_CalibrateIdempotentOnResized :
    ∃ t, exec .calibrate (raster 640 512 0 0) = .next t ∧ t.scaled = true ∧ (raster 320 256 0 0).srcW = t.effW ∧
      (raster 320 256 0 0).srcH = t.effH ∧ (raster 320 256 0 0).reqOffX = (raster 640 512 0 0).reqOffX ∧
        (raster 320 256 0 0).reqOffY = (raster 640 512 0 0).reqOffY := by
  obtain ⟨t, ht, h⟩ := of_after (o := exec .calibrate (raster 640 512 0 0))
    (p := fun t => t.scaled && (320 == t.effW) && (256 == t.effH)) (by decide)
  simp only [Bool.and_eq_true, beq_iff_eq] at h
  exact ⟨t, ht, h.1.1, h.1.2, h.2, rfl, rfl⟩

/-- 320 × 256 with automatic offsets, which the correction puts at (32, 33). -/
theorem witness_EncodeIsItsThreeSteps :
    let s := raster 320 256 0 0
    s.seqStep = 0 ∧ s.legalDims ∧ ¬ (320 < s.srcW.toNat ∧ 256 < s.srcH.toNat) ∧
      (32 : Int) = overrideOffset s.reqOffX (centreX s.srcW.toNat) ∧
      (33 : Int) = overrideOffset s.reqOffY (centreY s.srcW.toNat s.srcH.toNat) ∧ (0 : Int) ≤ 32 ∧ (0 : Int) ≤ 33 ∧
      (32 : Int) + 256 ≤ s.srcW.toNat ∧ (33 : Int) + 192 ≤ s.srcH.toNat := by decide

theorem witness_EncodeKeepsCalibrationWhenMatchFails :
    ∃ c m, (raster 640 512 0 0).seqStep = 0 ∧ exec .calibrate (raster 640 512 0 0) = .next c ∧
      exec .matchAll c = .next m ∧ m.errCause ≠ 0 := by
  obtain ⟨c, hc, h⟩ := of_after (o := exec .calibrate (raster 640 512 0 0))
    (p := fun c => after (exec .matchAll c) (fun m => m.errCause == 5)) (by decide)
  obtain ⟨m, hm, h⟩ := of_after h
  exact ⟨c, m, rfl, hc, hm, by rw [beq_iff_eq.mp h]; decide⟩

theorem witness_DecodeSequencesAreTheirTwoSteps : State.reset.seqStep = 0 ∧
    { State.reset with inLen := 6912 }.inLen = 6912 ∧ { State.reset with inLen := 768 }.inLen = 768 ∧
      State.reset.inLen ≠ 6912 ∧ State.reset.inLen ≠ 768 := by decide

theorem witness_CellAddressForms : 23 < 24 ∧ 7 < 8 := by decide

theorem witness_CellAddressTilesThePlane : 6143 < 6144 := by decide

theorem witness_LayoutInverseLaws : { State.reset with inLen := 6912 }.inLen = 6912 := rfl

theorem witness_DisplayFileRoundTrip :
    let s := { State.reset with inLen := 6912 }
    s.ready ∧ s.params.Ok ∧ s.inLen = 6912 ∧ s.reqOffX.toInt < 0 ∧ s.reqOffY.toInt < 0 := by decide

theorem witness_CharacterStreamRoundTrip :
    let s := { bankState with inLen := 768 }
    s.ready ∧ s.params.Ok ∧ s.BanksOk ∧ s.inLen = 768 ∧ s.reqOffX.toInt < 0 ∧ s.reqOffY.toInt < 0 :=
  ⟨by decide, by decide, bankState_banksOk, rfl, by decide, by decide⟩

/-- A white raster. -/
theorem witness_AllPaperScenario :
    let s := (raster 256 192 0 0).fillBytes srcBase 196608 (fun _ => 0xFF)
    s.ready ∧ s.params.Ok ∧ s.srcW = 256 ∧ s.srcH = 192 ∧ s.reqOffX.toInt < 0 ∧ s.reqOffY.toInt < 0 ∧
      ∀ x y, x < 256 → y < 192 → ∀ ch, ch < 3 → 127 < (s.byteAt (srcBase + 4 * (y * 256 + x) + ch)).toNat := by
  refine ⟨⟨rfl, rfl⟩, by decide, rfl, rfl, by decide, by decide, fun x y hx hy ch hc => ?_⟩
  rw [Nat.add_assoc, byteAt_fillBytes_inside _ _ _ _ _ (by omega)]
  decide

/-- A byte of RAW written to empty memory. -/
theorem witness_StepKeepsMemoryCanonical :
    ∃ t, (idleWrite 0x20000 .byte 0x41).params.Ok ∧ (idleWrite 0x20000 .byte 0x41).MemOk ∧
      step (idleWrite 0x20000 .byte 0x41) = .next t :=
  ⟨_, by decide, ⟨List.Pairwise.nil, by decide⟩, rfl⟩

/-- A GT_WRITE about to run. -/
theorem witness_StepKeepsBanksAndCounts :
    let s := bankState.accept 0x00010020
    ∃ t, s.params.Ok ∧ s.BanksOk ∧ s.CountsOk ∧ step s = .next t := by
  obtain ⟨t, ht, _⟩ := of_after (o := step (bankState.accept 0x00010020)) (p := fun t => t.gtCountA == 2) (by decide)
  exact ⟨t, by decide, bankState_banksOk, fun b => by cases b <;> decide, ht⟩

/-- The second step of an ENCODE about to run. -/
theorem witness_StepKeepsFlagsAndSequence :
    let s := { (raster 640 512 0 0).accept 8 with seqStep := 1 }
    ∃ t, s.FlagsOk ∧ s.EngineOk ∧ step s = .next t := by
  obtain ⟨t, ht, _⟩ := of_after (o := step { (raster 640 512 0 0).accept 8 with seqStep := 1 })
    (p := fun t => t.errCause == 5) (by decide)
  exact ⟨t, ⟨by decide, by decide, by decide, by decide, by decide⟩, Nat.le_of_ble_eq_true rfl, ht⟩

theorem witness_StepKeepsParameters : ∃ t, step (State.reset.accept 0) = .next t := ⟨_, rfl⟩

/-- Two states that differ in an alpha byte of SRC and in an attribute byte. -/
theorem witness_UnreadBytesDoNotMatter :
    AgreeOffUnread { State.reset with mem := [(0x31800, 0x38), (0x1000003, 0x00)] }
        { State.reset with mem := [(0x31800, 0x07), (0x1000003, 0xFF)] } := by
  refine ⟨rfl, fun a ha => ?_⟩
  have h : a ≠ 0x31800 ∧ a ≠ 0x1000003 := by
    constructor
    · rintro rfl
      exact ha (by decide)
    · rintro rfl
      exact ha (by decide)
  simp [State.byteAt, List.lookup, beq_eq_false_iff_ne.mpr h.1, beq_eq_false_iff_ne.mpr h.2]

/-- CELL_ADDR changes RESULT; MATCH_CELL changes RESULT_PAT. -/
theorem witness_OnlyQueriesWriteResult :
    (∃ t, exec (.cellAddr 9 3) State.reset = .next t ∧ t.result ≠ State.reset.result) ∧
      ∃ t, exec (.gtReverse .modelB 0x80) bankBState = .next t ∧ t.resultPatLo ≠ bankBState.resultPatLo := by
  obtain ⟨t, ht, h⟩ := of_after (o := exec (.cellAddr 9 3) State.reset) (p := fun t => t.result != 0) (by decide)
  obtain ⟨u, hu, hv⟩ := of_after (o := exec (.gtReverse .modelB 0x80) bankBState) (p := fun t => t.resultPatLo != 0) (by decide)
  exact ⟨⟨t, ht, bne_iff_ne.mp h⟩, u, hu, bne_iff_ne.mp hv⟩

/-- BINARIZE of one ink pixel changes CLEAN byte 0. -/
theorem witness_OnlyTheirWritersChangeCleanAndMap :
    let s := { (raster 1 1 0 0).accept 2 with
      mem := [(0x80000, 0), (0x1000000, 0), (0x1000001, 0), (0x1000002, 0)] }
    ∃ t, s.params.Ok ∧ step s = .next t ∧ (∀ rest, s.events ≠ .hardwareReset :: rest) ∧
      t.byteAt 0x80000 ≠ s.byteAt 0x80000 ∧ inRange cleanBase (cleanBytes s.params) 0x80000 := by
  intro s
  obtain ⟨t, ht, h⟩ := of_after (o := step s) (p := fun t => t.byteAt 0x80000 != s.byteAt 0x80000) (by decide +kernel)
  exact ⟨t, by decide, ht, nofun, bne_iff_ne.mp h, by decide⟩

/-- Both values of bit 1 written while IDLE, and a GT_WRITE about to be turned away by the lock. -/
theorem witness_LockHoldsUntilReset :
    ((idleWrite 0x008 .word 0).busy = false ∧ (0 : Word).getLsbD 0 = false ∧ (2 : Word).getLsbD 0 = false ∧
      (idleWrite 0x008 .word 0).events = [.access (.write 0x008 .word 0)] ∧
      (idleWrite 0x008 .word 2).events = [.access (.write 0x008 .word 2)]) ∧
    ∃ s t : State, s.gtLock = true ∧ step s = .next t ∧ ∀ e ∈ s.events.head?, isReset e = false := by
  obtain ⟨t, ht, _⟩ := of_after (o := step ({ bankState with gtLock := true }.accept 0x00010020))
    (p := fun t => t.errCause == 7) (by decide)
  exact ⟨by decide, _, t, rfl, ht, fun _ he => by cases he⟩

theorem witness_EveryCommandCompletes : (State.reset.accept 8).events = [] ∧ (State.reset.accept 8).busy = true := by decide

end Sys2Proof.Tests
end

section
/-! The scope of an instance (spec/00_scope.md R6, R7): no step changes its parameters, and the block starts inside its
invariants. -/

namespace Sys2Proof.Machine

/-! ### What keeps the parameters: host writes -/

@[simp] theorem State.storeBytes_params (s : State) (off : Nat) (size : Size) (v : Word) :
    (s.storeBytes off size v).params = s.params := by
  rw [storeBytes_eq]

@[simp] theorem State.storeReg_params (s : State) (r : Reg) (v : Word) : (s.storeReg r v).params = s.params := by
  rw [storeReg_kept]

@[simp] theorem State.softReset_params (s : State) : s.softReset.params = s.params := by
  rw [softReset_eq, State.resetRegisters_params]

@[simp] theorem State.writeReg_params (s : State) (r : Reg) (v : Word) : (s.writeReg r v).params = s.params := by
  rcases writeReg_cases s r v with h | h | h | ⟨-, -, h⟩ | ⟨-, -, h⟩ | ⟨-, h⟩ | ⟨-, -, h⟩ | ⟨-, h⟩ | ⟨-, h⟩ |
    ⟨-, -, h⟩ <;> simp [h]

@[simp] theorem State.writeData_params (s : State) (off : Nat) (size : Size) (v : Word) :
    (s.writeData off size v).params = s.params := by
  rcases writeData_cases s off size v with h | h | ⟨-, r, -, h⟩ | ⟨-, -, h⟩ <;> simp [h]

/-! ### What keeps the parameters: the engine's turn and every step -/

/-- Neither a completion nor the effect of a primitive step writes the parameters. -/
theorem engineTurn_params {s t : State} (h : engineTurn s = .next t) : t.params = s.params := by
  rcases engineTurn_cases h with ⟨-, rfl⟩ | ⟨-, e, -, rfl⟩ | ⟨i, -, p, hp, u, hu, rfl | ⟨-, rfl⟩⟩
  · rfl
  · exact State.complete_params s e
  · exact (State.complete_params u 0).trans (primitive_kept hp hu).params
  · exact (primitive_kept hp hu).params

theorem step_params {s t : State} (h : step s = .next t) : t.params = s.params := by
  obtain ⟨rest, ⟨-, hturn⟩ | ⟨-, rfl⟩ | ⟨-, n, r, rfl⟩ | ⟨off, size, v, -, -, -, rfl⟩⟩ := step_cases h
  · exact (engineTurn_params hturn :)
  · exact State.hardReset_params _
  · rfl
  · rw [State.respond_params, State.writeData_params]

/-- PARAM0 shows nothing but the parameters (R58). -/
theorem readReg_param0_congr {s t : State} (h : t.params = s.params) : t.readReg .param0 = s.readReg .param0 := by
  simp only [State.readReg, h]

/-- PARAM1 shows nothing but the parameters (R59). -/
theorem readReg_param1_congr {s t : State} (h : t.params = s.params) : t.readReg .param1 = s.readReg .param1 := by
  simp only [State.readReg, h]

/-- Settles O54: every case of `step_cases` keeps the parameters, and the two registers read them alone. -/
theorem stepKeepsParameters : Obligations.StepKeepsParameters := by
  intro s t h
  have hp := step_params h
  exact ⟨hp, readReg_param0_congr hp, readReg_param1_congr hp⟩

/-! ### The state after reset -/

/-- No byte of memory is written yet (R91). -/
theorem State.reset_memOk : State.reset.MemOk := ⟨List.Pairwise.nil, fun _ hc => absurd hc List.not_mem_nil⟩

/-- No glyph entry is listed, so none is valid (R92). -/
theorem State.reset_bank (b : Bank) : State.reset.bank b = [] := by cases b <;> rfl

theorem State.reset_banksOk : State.reset.BanksOk := by
  intro b
  rw [State.reset_bank]
  exact bankOk_nil _

theorem State.reset_countsOk : State.reset.CountsOk := by
  intro b
  cases b <;> rfl

theorem State.reset_flagsOk : State.reset.FlagsOk where
  unmatched := by decide
  unmatched_le := by decide
  missed := by decide
  missed_le := by decide
  cause := by decide

/-- The engine is IDLE on step 0 (R90). -/
theorem State.reset_engineOk : State.reset.EngineOk := Nat.zero_lt_one

/-- Settles O50: the reference configuration is in range, and memory, banks, counts, flags and engine are at rest. -/
theorem resetMeetsInvariant : Obligations.ResetMeetsInvariant where
  params := by decide
  mem := State.reset_memOk
  banks := State.reset_banksOk
  counts := State.reset_countsOk
  flags := State.reset_flagsOk
  engine := State.reset_engineOk

end Sys2Proof.Machine
end

section
/-! What a step does to the block, said once for the statements of spec/10_state.md: the kinds of move it can be, and
what a primitive step of a command writes. -/

namespace Sys2Proof.Machine

/-! ### What a primitive step writes -/

/-- What a primitive step of command `i` that succeeds on `s` can leave. -/
inductive PrimitiveWrites (i : Instr) (s : State) : State → Prop
  /-- NOP (R350) -/
  | nothing : PrimitiveWrites i s s
  /-- SAMPLE, CELL_ADDR and GT_LOOKUP (R53) -/
  | answer (r : Word) (hi : i.opcode.toNat ∈ [0x10, 0x12, 0x23]) : PrimitiveWrites i s { s with result := r }
  /-- MATCH_CELL and GT_REVERSE (R53, R54) -/
  | patternAnswer (r hi lo : Word) (h : i.opcode.toNat ∈ [0x11, 0x24]) :
      PrimitiveWrites i s { s with result := r, resultPatHi := hi, resultPatLo := lo }
  /-- CALIBRATE (R266) -/
  | calibration (ew eh : Half) (ox oy : Word) (sc : Bool) :
      PrimitiveWrites i s { s with effW := ew, effH := eh, usedOffX := ox, usedOffY := oy, scaled := sc }
  /-- the glyph bank commands (R200 to R202) -/
  | bank (b : Bank) (g : GlyphBank) : PrimitiveWrites i s (s.setBank b g)
  /-- BINARIZE, LAYOUT_ENC and LAYOUT_DEC (R293, R235, R236) -/
  | fill (x : Extent) (hx : x ∈ s.memFootprint i) (f : Nat → Byte) : PrimitiveWrites i s (s.fillBytes x.base x.bytes f)
  /-- CHARS_TO_CELLS (R353) -/
  | characters (x : Extent) (hx : x ∈ s.memFootprint i) (f : Nat → Byte) (n : Nat) (hn : n ≤ 768) :
      PrimitiveWrites i s ((s.fillBytes x.base x.bytes f).setMissed n)
  /-- PAINT (R356) -/
  | painting (x : Extent) (hx : x ∈ s.memFootprint i) (f : Nat → Byte) (w h : Half) :
      PrimitiveWrites i s { s.fillBytes x.base x.bytes f with srcW := w, srcH := h }
  /-- MATCH (R325) -/
  | matching (hi : i = .matchAll ∨ i = .encode) : PrimitiveWrites i s (matchWrites s)

/-- The raster of legal dimensions lies inside CLEAN (R72, R403). -/
theorem legalDims_raster_le {s : State} (h : s.legalDims) :
    s.srcW.toNat * s.srcH.toNat ≤ 8 * cleanBytes s.params := by
  obtain ⟨⟨-, hw⟩, -, hh⟩ := h
  have := Nat.mul_le_mul hw hh
  unfold cleanBytes
  omega

theorem binarize_writes {s u : State} (h : binarize s = .ok u) : PrimitiveWrites .binarize s u := by
  obtain ⟨hd, rfl⟩ := binarize_ok h
  have hx := PrimitiveWrites.fill (i := .binarize) (s := s) _ (List.mem_singleton_self _) s.cleanByte
  rwa [Extent.bytes, Nat.min_eq_left (legalDims_raster_le hd)] at hx

theorem paint_writes {i : Instr} {s u : State} (hi : ⟨srcBase, 8 * 196608⟩ ∈ s.memFootprint i) (h : paint s = .ok u) :
    PrimitiveWrites i s u := by
  cases h
  exact .painting _ hi _ _ _

theorem layoutEnc_writes {i : Instr} {s u : State} (hi : ⟨dfBase, 8 * 6912⟩ ∈ s.memFootprint i)
    (h : layoutEnc s = .ok u) : PrimitiveWrites i s u := by
  cases h
  exact .fill _ hi _

theorem layoutDec_writes {i : Instr} {s u : State} (hi : ⟨cellpatBase, 8 * 6144⟩ ∈ s.memFootprint i)
    (h : layoutDec s = .ok u) : PrimitiveWrites i s u := by
  obtain ⟨-, rfl⟩ := layoutDec_ok h
  exact .fill _ hi _

theorem charsToCells_writes {i : Instr} {s u : State} (hi : ⟨cellpatBase, 8 * 6144⟩ ∈ s.memFootprint i)
    (h : charsToCells s = .ok u) : PrimitiveWrites i s u := by
  obtain ⟨-, rfl⟩ := charsToCells_ok h
  exact .characters _ hi _ _ (charMisses_le s)

theorem matchAll_writes {i : Instr} {s u : State} (hi : i = .matchAll ∨ i = .encode) (h : matchAll s = .ok u) :
    PrimitiveWrites i s u := by
  obtain ⟨-, -, -, rfl⟩ := matchAll_ok h
  exact .matching hi

theorem calibrate_writes {i : Instr} {s u : State} (h : calibrate s = .ok u) : PrimitiveWrites i s u := by
  cases h
  exact .calibration _ _ _ _ _

/-- Every primitive step of every command writes in one of these ways. -/
theorem primitive_writes {i : Instr} {p : State → Effect} {s u : State} (hp : p ∈ stepsOf i) (h : p s = .ok u) :
    PrimitiveWrites i s u := by
  cases i <;> simp only [stepsOf, List.mem_cons, List.not_mem_nil, or_false] at hp
  case encode =>
    rcases hp with rfl | rfl | rfl
    exacts [calibrate_writes h, matchAll_writes (.inr rfl) h, layoutEnc_writes (by simp [State.memFootprint]) h]
  case decodeDf =>
    rcases hp with rfl | rfl
    exacts [layoutDec_writes (by simp [State.memFootprint]) h, paint_writes (by simp [State.memFootprint]) h]
  case decodeRaw =>
    rcases hp with rfl | rfl
    exacts [charsToCells_writes (by simp [State.memFootprint]) h, paint_writes (by simp [State.memFootprint]) h]
  all_goals subst hp
  case nop => cases h; exact .nothing
  case calibrate => exact calibrate_writes h
  case binarize => exact binarize_writes h
  case matchAll => exact matchAll_writes (.inl rfl) h
  case layoutEnc => exact layoutEnc_writes (List.mem_singleton_self _) h
  case layoutDec => exact layoutDec_writes (List.mem_singleton_self _) h
  case charsToCells => exact charsToCells_writes (List.mem_singleton_self _) h
  case paint => exact paint_writes (List.mem_singleton_self _) h
  case sample x y => obtain ⟨-, -, -, rfl⟩ := sample_ok h; exact .answer _ (by simp [Instr.opcode])
  case matchCell x y => obtain ⟨-, -, -, r, rfl⟩ := matchCell_ok h; exact .patternAnswer _ _ _ (by simp [Instr.opcode])
  case cellAddr row subrow => obtain ⟨-, rfl⟩ := cellAddr_ok h; exact .answer _ (by simp [Instr.opcode])
  case gtWrite b index => obtain ⟨-, -, -, rfl⟩ := gtWrite_ok h; exact .bank _ _
  case gtInval b index => obtain ⟨-, -, rfl⟩ := gtInval_ok h; exact .bank _ _
  case gtClear b => obtain ⟨-, rfl⟩ := gtClear_ok h; exact .bank _ _
  case gtLookup b =>
    obtain ⟨r, hr⟩ := gtLookup_ok b s
    cases hr.symm.trans h
    exact .answer _ (by simp [Instr.opcode])
  case gtReverse b code =>
    obtain ⟨r, hi, lo, hr⟩ := gtReverse_ok b code s
    cases hr.symm.trans h
    exact .patternAnswer _ _ _ (by simp [Instr.opcode])

/-! ### What a move of the host or the engine makes of the block -/

/-- `u` is `s` but for registers a host write sets and for the model's own draws, events and responses; the lock, once
set, stays. -/
structure HostKept (s u : State) : Prop where
  params : u.params = s.params
  gtLock : s.gtLock = true → u.gtLock = true
  busy : u.busy = s.busy
  partialMatch : u.partialMatch = s.partialMatch
  decPartial : u.decPartial = s.decPartial
  cmd : u.cmd = s.cmd
  errCause : u.errCause = s.errCause
  unmatchedCnt : u.unmatchedCnt = s.unmatchedCnt
  decMissCnt : u.decMissCnt = s.decMissCnt
  gtCountA : u.gtCountA = s.gtCountA
  gtCountB : u.gtCountB = s.gtCountB
  gtA : u.gtA = s.gtA
  gtB : u.gtB = s.gtB
  seqStep : u.seqStep = s.seqStep
  mem : u.mem = s.mem
  memDraw : u.memDraw = s.memDraw

/-- The kinds of move, `e` being the event a step takes, if one is left. -/
inductive Move (e : Option Event) (s : State) : State → Prop
  /-- a read, a write that is dropped, or a write of a register that only the host sets -/
  | host {t : State} (h : HostKept s t) : Move e s t
  /-- a CMD write accepted (R150) -/
  | accept (w : Word) (hb : s.busy = false) : Move e s (s.accept w)
  /-- a write to the live part of a writable window (R105) -/
  | store (off : Nat) (size : Size) (v : Word) (ha : off % size.bytes = 0)
      (hr : regionOf s.params off ∈ [Region.cellpat, .raw, .df, .src]) : Move e s (s.storeBytes off size v)
  /-- a completion that changes nothing else (R411) -/
  | complete (c : Byte) (hc : c.toNat ≤ 8) : Move e s (s.complete c)
  /-- the command's last or only primitive step, and its completion (R410) -/
  | finish {i : Instr} {p : State → Effect} {u : State} (hi : s.running = some i) (hp : p ∈ stepsOf i)
      (hu : p s = .ok u) : Move e s (u.complete 0)
  /-- a step of a sequence that is not its last (R351) -/
  | advance {i : Instr} {p : State → Effect} {u : State} (hi : s.running = some i) (hp : p ∈ stepsOf i)
      (hu : p s = .ok u) (hl : s.seqStep + 1 < (stepsOf i).length) : Move e s { u with seqStep := s.seqStep + 1 }
  /-- a CTRL write with SOFT_RESET = 1 (R452) -/
  | softReset {v : Word} (he : e = some (.access (.write 0x008 .word v))) (hv : v.getLsbD 0 = true) :
      Move e s s.softReset
  /-- a hardware reset (R451) -/
  | hardReset (he : e = some .hardwareReset) : Move e s s.hardReset

/-- The model's own draws, events and responses are nothing of the block. -/
theorem HostKept.ofModel (s : State) (n : Nat) (es : List Event) (rs : List Response) :
    HostKept s { s with draws := n, events := es, responses := rs } :=
  ⟨rfl, id, rfl, rfl, rfl, rfl, rfl, rfl, rfl, rfl, rfl, rfl, rfl, rfl, rfl, rfl⟩

theorem HostKept.refl (s : State) : HostKept s s := .ofModel s s.draws s.events s.responses

/-- CTRL, STATUS, INT_EN and INT_STATUS: the lock and the flags that only the host sets or clears. -/
theorem HostKept.ofFlags (s : State) {lock : Bool} (hl : s.gtLock = true → lock = true)
    (overrun dropped doneEn errEn done err : Bool) :
    HostKept s { s with
      gtLock := lock
      cmdOverrun := overrun
      busyWrite := dropped
      doneEn := doneEn
      errEn := errEn
      intDone := done
      intErr := err } :=
  ⟨rfl, hl, rfl, rfl, rfl, rfl, rfl, rfl, rfl, rfl, rfl, rfl, rfl, rfl, rfl, rfl⟩

theorem HostKept.ofStoreReg (s : State) (r : Reg) (v : Word) : HostKept s (s.storeReg r v) := by
  rw [storeReg_kept]
  exact ⟨rfl, id, rfl, rfl, rfl, rfl, rfl, rfl, rfl, rfl, rfl, rfl, rfl, rfl, rfl, rfl⟩

/-- A register's offset lies in the first 128 bytes (R60). -/
theorem lt_of_regAt {off : Nat} {r : Reg} (h : regAt off = some r) : off < 0x80 := by
  have hlt : off / 4 < 32 := (List.getElem?_eq_some_iff.1 h).1
  omega

/-- CTRL stands at offset 8 alone (R60). -/
theorem off_of_regAt_ctrl {off : Nat} (ha : off % 4 = 0) (h : regAt off = some .ctrl) : off = 8 := by
  have hk := (by decide : ∀ k < 32, registerMap[k]? = some .ctrl → k = 2) (off / 4)
    (by have := lt_of_regAt h; omega) h
  omega

/-- An access that gets OKAY is aligned (R103, R104). -/
theorem aligned_of_accessError {off : Nat} {size : Size} (h : accessError off size = false) : off % size.bytes = 0 := by
  simpa using (Bool.or_eq_false_iff.1 h).1

/-- The move of a register write that gets OKAY. -/
theorem move_writeReg (s : State) {off : Nat} {size : Size} {r : Reg} (v : Word) (hr : regAt off = some r)
    (ha : accessError off size = false) : Move (some (.access (.write off size v))) s (s.writeReg r v) := by
  rcases writeReg_cases s r v with h | h | h | ⟨rfl, hv, h⟩ | ⟨-, -, h⟩ | ⟨-, h⟩ | ⟨-, hb, h⟩ | ⟨-, h⟩ | ⟨-, h⟩ |
    ⟨-, -, h⟩ <;> rw [h]
  · exact .host (.refl s)
  · exact .host (.ofFlags s id _ _ _ _ _ _)
  · exact .host (.ofFlags s id _ _ _ _ _ _)
  · obtain ⟨rfl, h4⟩ := accessError_register (by have := lt_of_regAt hr; omega) ha
    obtain rfl := off_of_regAt_ctrl h4 hr
    exact .softReset rfl hv
  · exact .host (.ofFlags s (fun hl => by rw [hl, Bool.true_or]) _ _ _ _ _ _)
  · exact .host (.ofFlags s id _ _ _ _ _ _)
  · exact .accept v hb
  · exact .host (.ofFlags s id _ _ _ _ _ _)
  · exact .host (.ofFlags s id _ _ _ _ _ _)
  · exact .host (.ofStoreReg s r v)

/-- The move of a write that gets OKAY. -/
theorem move_writeData (s : State) {off : Nat} {size : Size} (v : Word) (ha : accessError off size = false) :
    Move (some (.access (.write off size v))) s (s.writeData off size v) := by
  rcases writeData_cases s off size v with h | h | ⟨-, r, hr, h⟩ | ⟨-, hr, h⟩ <;> rw [h]
  · exact .host (.refl s)
  · exact .host (.ofFlags s id _ _ _ _ _ _)
  · exact move_writeReg s v hr ha
  · exact .store off size v (aligned_of_accessError ha) hr

/-- The move of the engine's turn. -/
theorem move_engineTurn {e : Option Event} {s t : State} (h : engineTurn s = .next t) : Move e s t := by
  rcases engineTurn_cases h with ⟨-, rfl⟩ | ⟨-, c, hc, rfl⟩ | ⟨i, hi, p, hp, u, hu, rfl | ⟨hl, rfl⟩⟩
  · exact .host (.refl _)
  · exact .complete c hc
  · exact .finish hi hp hu
  · exact .advance hi hp hu hl

/-- Everything a step can do: one move, between changes of the model's own fields. -/
theorem step_move {s t : State} (h : step s = .next t) :
    ∃ u v, HostKept s u ∧ Move s.events.head? u v ∧ HostKept v t := by
  obtain ⟨rest, ⟨-, hturn⟩ | ⟨he, rfl⟩ | ⟨-, n, r, rfl⟩ | ⟨off, size, v, he, -, ha, rfl⟩⟩ := step_cases h
  · exact ⟨_, t, .ofModel s s.draws rest s.responses, move_engineTurn hturn, .refl t⟩
  · exact ⟨_, _, .ofModel s s.draws rest s.responses, .hardReset (by rw [he]; rfl), .refl _⟩
  · exact ⟨s, s, .refl s, .host (.refl s), .ofModel s n rest r⟩
  · rw [he]
    exact ⟨_, _, .ofModel s s.draws rest s.responses, move_writeData _ v ha, .ofModel _ _ _ _⟩

end Sys2Proof.Machine
end

section
/-! The six memories (spec/10_state.md R70 to R76): every move writes only bytes of the extents R453 gives the running
command, or of a writable window, so the memory stays canonical, and CLEAN and MAP have no other writer. -/

namespace Sys2Proof.Machine

/-! ### Memory written in extents -/

/-- The second memory comes from the first by filling extents of the list. -/
inductive Fills (xs : List Extent) (m : Memory) : Memory → Prop
  | refl : Fills xs m m
  | fill {m' : Memory} (h : Fills xs m m') (x : Extent) (hx : x ∈ xs) (f : Nat → Byte) :
      Fills xs m (cellsFill m' x.base x.bytes f)

/-- The whole bytes of an extent of `n` bytes. -/
theorem bytes_mul_eight (base n : Nat) : Extent.bytes ⟨base, 8 * n⟩ = n := by
  simp only [Extent.bytes]
  omega

/-- A fill of an extent of `n` bytes. -/
theorem Fills.fillBytes {xs : List Extent} {m m' : Memory} (h : Fills xs m m') {base n : Nat}
    (hx : ⟨base, 8 * n⟩ ∈ xs) (f : Nat → Byte) : Fills xs m (cellsFill m' base n f) := by
  have := h.fill _ hx f
  rwa [bytes_mul_eight] at this

theorem Fills.sorted {xs : List Extent} {m m' : Memory} (h : Fills xs m m') (hm : Memory.wf m) : Memory.wf m' := by
  induction h with
  | refl => exact hm
  | fill _ x _ f ih => exact cellsFill_sorted ih x.base x.bytes f

/-- A cell of the filled memory was there before or lies in one of the extents. -/
theorem Fills.mem {xs : List Extent} {m m' : Memory} (h : Fills xs m m') {c : Host.Cell} (hc : c ∈ m') :
    c ∈ m ∨ ∃ x ∈ xs, inRange x.base x.bytes c.1 := by
  induction h with
  | refl => exact .inl hc
  | fill _ x hx f ih =>
    rcases mem_cellsFill hc with hr | hc
    · exact .inr ⟨x, hx, hr⟩
    · exact ih hc

/-- A byte outside the extents stays. -/
theorem Fills.lookup {xs : List Extent} {m m' : Memory} (h : Fills xs m m') {a : Nat}
    (ha : ∀ x ∈ xs, ¬ inRange x.base x.bytes a) : m'.lookup a = m.lookup a := by
  induction h with
  | refl => rfl
  | fill _ x hx f ih => rw [lookup_cellsFill, if_neg (ha x hx), ih]

/-- A primitive step fills extents its command may write. -/
theorem PrimitiveWrites.fills {i : Instr} {s u : State} (h : PrimitiveWrites i s u) :
    Fills (s.memFootprint i) s.mem u.mem := by
  cases h with
  | nothing | answer | patternAnswer | calibration => exact .refl
  | bank b g => rw [State.setBank_mem]; exact .refl
  | fill x hx f | characters x hx f n | painting x hx f => exact .fill .refl x hx f
  | matching hi =>
    have hc : ⟨cellpatBase, 8 * 6144⟩ ∈ s.memFootprint i ∧ ⟨rawBase, 8 * 768⟩ ∈ s.memFootprint i ∧
        ⟨mapBase, 8 * 96⟩ ∈ s.memFootprint i := by
      rcases hi with rfl | rfl <;> simp [State.memFootprint]
    obtain ⟨hcells, hraw, hmap⟩ := hc
    exact ((Fills.refl.fillBytes hcells _).fillBytes hraw _).fillBytes hmap _

/-- An abort fills extents the aborted command may write. -/
theorem fills_scramble (d : Nat) (ys : List Extent) {xs : List Extent} {m : Memory} {s : State} (h : Fills xs m s.mem)
    (hy : ∀ x ∈ ys, x ∈ xs) : Fills xs m (ys.foldl (State.scramble d) s).mem := by
  induction ys generalizing s with
  | nil => exact h
  | cons y ys ih =>
    exact ih (h.fill y (hy y (by simp)) _) (fun x hx => hy x (by simp [hx]))

theorem softReset_fills (s : State) :
    s.softReset.mem = s.mem ∨ ∃ i, s.running = some i ∧ Fills (s.memFootprint i) s.mem s.softReset.mem := by
  unfold State.softReset
  split
  · exact .inl rfl
  · rename_i i hi
    exact .inr ⟨i, hi, fills_scramble s.draws _ .refl (fun _ => id)⟩

/-- A soft reset keeps the draw of the memories: what no writer has written stays. -/
@[simp] theorem State.softReset_memDraw (s : State) : s.softReset.memDraw = s.memDraw := by
  rw [softReset_eq, State.resetRegisters_memDraw]

@[simp] theorem State.storeBytes_memDraw (s : State) (off : Nat) (size : Size) (v : Word) :
    (s.storeBytes off size v).memDraw = s.memDraw := by
  rw [storeBytes_eq]

/-- What a store writes is a byte of its access. -/
theorem mem_storeBytes {s : State} {off : Nat} {size : Size} {v : Word} {c : Host.Cell}
    (hc : c ∈ (s.storeBytes off size v).mem) : c ∈ s.mem ∨ ∃ k < size.bytes, c.1 = off + k := by
  have hl : ∀ k ∈ List.range size.bytes, k < size.bytes := fun k => List.mem_range.1
  unfold State.storeBytes at hc
  generalize List.range size.bytes = l at hc hl
  induction l generalizing s with
  | nil => exact .inl hc
  | cons k l ih =>
    rcases ih hc (fun j hj => hl j (by simp [hj])) with h | h
    · rcases mem_cellsPut h with rfl | h
      · exact .inr ⟨k, hl k (by simp), rfl⟩
      · exact .inl h
    · exact .inr h

/-- What a move other than a hardware reset does to the memory: nothing, a store of the host, or fills in the running
command's extents. -/
theorem Move.mem_cases {e : Option Event} {s t : State} (h : Move e s t) :
    e = some .hardwareReset ∧ t = s.hardReset ∨
      (t.memDraw = s.memDraw ∧
        (t.mem = s.mem ∨ (∃ i, s.running = some i ∧ Fills (s.memFootprint i) s.mem t.mem) ∨
          ∃ off size v, off % size.bytes = 0 ∧ regionOf s.params off ∈ [Region.cellpat, .raw, .df, .src] ∧
            t.mem = (s.storeBytes off size v).mem)) := by
  cases h with
  | host h => exact .inr ⟨h.memDraw, .inl h.mem⟩
  | accept w hb => exact .inr ⟨rfl, .inl rfl⟩
  | store off size v ha hr =>
    exact .inr ⟨State.storeBytes_memDraw s off size v, .inr (.inr ⟨off, size, v, ha, hr, rfl⟩)⟩
  | complete c hc => exact .inr ⟨rfl, .inl rfl⟩
  | finish hi hp hu | advance hi hp hu hl =>
    exact .inr ⟨(primitive_kept hp hu).memDraw, .inr (.inl ⟨_, hi, (primitive_writes hp hu).fills⟩)⟩
  | softReset he hv =>
    exact .inr ⟨State.softReset_memDraw s, (softReset_fills s).imp id .inl⟩
  | hardReset he => exact .inl ⟨he, rfl⟩

/-! ### The extents of a command lie in the six memories -/

/-- The region of a byte a command may write: a writable window, CLEAN for BINARIZE, MAP for MATCH and ENCODE (R105,
R453). -/
theorem regionOf_memFootprint {s : State} {i : Instr} {x : Extent} {a : Nat} (hp : s.params.Ok)
    (hx : x ∈ s.memFootprint i) (ha : inRange x.base x.bytes a) :
    regionOf s.params a ∈ [Region.cellpat, .raw, .df, .src] ∨ (regionOf s.params a = .clean ∧ i = .binarize) ∨
      (regionOf s.params a = .map ∧ (i = .matchAll ∨ i = .encode)) := by
  have cellpat : x = ⟨cellpatBase, 8 * 6144⟩ → regionOf s.params a ∈ [Region.cellpat, .raw, .df, .src] := by
    rintro rfl
    rw [bytes_mul_eight] at ha
    simp [regionOf_cellpat ha]
  have raw : x = ⟨rawBase, 8 * 768⟩ → regionOf s.params a ∈ [Region.cellpat, .raw, .df, .src] := by
    rintro rfl
    rw [bytes_mul_eight] at ha
    simp [regionOf_raw ha]
  have df : x = ⟨dfBase, 8 * 6912⟩ → regionOf s.params a ∈ [Region.cellpat, .raw, .df, .src] := by
    rintro rfl
    rw [bytes_mul_eight] at ha
    simp [regionOf_df ha]
  have src : x = ⟨srcBase, 8 * 196608⟩ → regionOf s.params a ∈ [Region.cellpat, .raw, .df, .src] := by
    rintro rfl
    rw [bytes_mul_eight] at ha
    simp [regionOf_src hp ⟨ha.1, ha.2.trans_le (Nat.add_le_add_left (le_srcBytes hp) _)⟩]
  have map : x = ⟨mapBase, 8 * 96⟩ → regionOf s.params a = .map := by
    rintro rfl
    rw [bytes_mul_eight] at ha
    exact regionOf_map ha
  cases i <;> simp only [State.memFootprint, List.mem_cons, List.not_mem_nil, or_false] at hx
  case binarize =>
    subst hx
    refine .inr (.inl ⟨regionOf_clean ⟨ha.1, ha.2.trans_le ?_⟩, rfl⟩)
    simp only [Extent.bytes]
    omega
  case layoutEnc => exact .inl (df hx)
  case layoutDec | charsToCells => exact .inl (cellpat hx)
  case paint => exact .inl (src hx)
  case decodeDf | decodeRaw => exact .inl (hx.elim cellpat src)
  case matchAll =>
    rcases hx with h | h | h
    exacts [.inl (cellpat h), .inl (raw h), .inr (.inr ⟨map h, .inl rfl⟩)]
  case encode =>
    rcases hx with h | h | h | h
    exacts [.inl (cellpat h), .inl (raw h), .inr (.inr ⟨map h, .inr rfl⟩), .inl (df h)]

/-- A byte of the running command's extents is a byte of a memory. -/
theorem liveByte_memFootprint {s : State} {i : Instr} {x : Extent} {a : Nat} (hp : s.params.Ok)
    (hx : x ∈ s.memFootprint i) (ha : inRange x.base x.bytes a) : liveByte s.params a = true := by
  rw [liveByte_eq]
  rcases regionOf_memFootprint hp hx ha with h | ⟨h, -⟩ | ⟨h, -⟩
  · constructor <;> intro hr <;> simp [hr] at h
  · simp [h]
  · simp [h]

/-! ### The canonical form -/

theorem memOk_congr {s t : State} (hp : t.params = s.params) (hm : t.mem = s.mem) (h : s.MemOk) : t.MemOk :=
  ⟨hm ▸ h.sorted, hp ▸ hm ▸ h.live⟩

theorem HostKept.memOk {s u : State} (h : HostKept s u) (hm : s.MemOk) : u.MemOk := memOk_congr h.params h.mem hm

/-- No move changes the parameters (R6, R7). -/
theorem Move.params {e : Option Event} {s t : State} (h : Move e s t) : t.params = s.params := by
  cases h with
  | host h => exact h.params
  | accept w hb => rfl
  | store off size v ha hr => exact State.storeBytes_params s off size v
  | complete c hc => rfl
  | finish hi hp hu | advance hi hp hu hl => exact (primitive_kept hp hu).params
  | softReset he hv => exact State.softReset_params s
  | hardReset he => rfl

/-- Every move keeps the memory canonical and inside the six memories. -/
theorem Move.memOk {e : Option Event} {s t : State} (h : Move e s t) (hp : s.params.Ok) (hm : s.MemOk) : t.MemOk := by
  rcases h.mem_cases with ⟨-, rfl⟩ | ⟨-, hmem | ⟨i, hi, hf⟩ | ⟨off, size, v, ha, hr, hmem⟩⟩
  · exact ⟨List.Pairwise.nil, fun c hc => absurd hc List.not_mem_nil⟩
  · exact memOk_congr h.params hmem hm
  · refine ⟨hf.sorted hm.sorted, fun c hc => ?_⟩
    rw [h.params]
    rcases hf.mem hc with hc | ⟨x, hx, ha⟩
    · exact hm.live c hc
    · exact liveByte_memFootprint hp hx ha
  · refine ⟨hmem ▸ storeBytes_wf hm.sorted off size v, fun c hc => ?_⟩
    rw [h.params]
    rcases mem_storeBytes (hmem ▸ hc) with hc | ⟨k, hk, hc⟩
    · exact hm.live c hc
    · rw [hc, liveByte_eq, regionOf_aligned hp ha hr hk]
      constructor <;> intro hreg <;> simp [hreg] at hr

/-- Settles O51: a step is a move, and every fill and every store of a move lies in the six memories. -/
theorem stepKeepsMemoryCanonical : Obligations.StepKeepsMemoryCanonical := by
  intro s t hp hm h
  obtain ⟨u, v, hsu, hmove, hvt⟩ := step_move h
  exact hvt.memOk (hmove.memOk (hsu.params ▸ hp) (hsu.memOk hm))

/-! ### CLEAN and MAP -/

theorem HostKept.byteAt {s u : State} (h : HostKept s u) (a : Nat) : u.byteAt a = s.byteAt a :=
  byteAt_congr h.mem h.memDraw a

theorem HostKept.running {s u : State} (h : HostKept s u) : u.running = s.running := running_congr h.busy h.cmd

/-- A move that changes a byte of memory without a hardware reset writes a writable window, or is BINARIZE's and the
byte is of CLEAN, or MATCH's or ENCODE's and the byte is of MAP. -/
theorem Move.changed_byte {e : Option Event} {s t : State} (h : Move e s t) (hp : s.params.Ok)
    (he : e ≠ some .hardwareReset) {a : Nat} (ha : t.byteAt a ≠ s.byteAt a) :
    regionOf s.params a ∈ [Region.cellpat, .raw, .df, .src] ∨
      (regionOf s.params a = .clean ∧ s.running = some .binarize) ∨
        (regionOf s.params a = .map ∧ (s.running = some .matchAll ∨ s.running = some .encode)) := by
  rcases h.mem_cases with ⟨hr, -⟩ | ⟨hd, hmem | ⟨i, hi, hf⟩ | ⟨off, size, v, hal, hr, hmem⟩⟩
  · exact absurd hr he
  · exact absurd (byteAt_congr hmem hd a) ha
  · by_cases hx : ∃ x ∈ s.memFootprint i, inRange x.base x.bytes a
    · obtain ⟨x, hx, hin⟩ := hx
      rw [hi, Option.some_inj, Option.some_inj, Option.some_inj]
      exact regionOf_memFootprint hp hx hin
    · refine absurd ?_ ha
      rw [State.byteAt, State.byteAt, hd, hf.lookup (fun x hx' hin => hx ⟨x, hx', hin⟩)]
  · left
    have hb : t.byteAt a = (s.storeBytes off size v).byteAt a := byteAt_congr hmem (by simp [hd]) a
    rw [hb, byteAt_storeBytes] at ha
    split at ha
    · rename_i hin
      obtain ⟨k, rfl⟩ := Nat.exists_eq_add_of_le hin.1
      rw [regionOf_aligned hp hal hr (by omega)]
      exact hr
    · exact absurd rfl ha

/-- Settles O57: a step is a move, and the regions of the bytes a move changes are known. -/
theorem onlyTheirWritersChangeCleanAndMap : Obligations.OnlyTheirWritersChangeCleanAndMap := by
  intro s t a hp h he ha
  obtain ⟨u, v, hsu, hmove, hvt⟩ := step_move h
  have he' : s.events.head? ≠ some .hardwareReset := fun hh => by
    obtain ⟨rest, hr⟩ := List.head?_eq_some_iff.1 hh
    exact he rest hr
  rw [hvt.byteAt, ← hsu.byteAt] at ha
  have hc := hmove.changed_byte (hsu.params ▸ hp) he' ha
  rw [hsu.params, hsu.running] at hc
  constructor
  · intro hin
    rw [regionOf_clean hin] at hc
    simpa using hc
  · intro hin
    rw [regionOf_map hin] at hc
    simpa using hc

end Sys2Proof.Machine
end

section
/-! The glyph banks (spec/10_state.md R77 to R86): every move keeps them well formed and counted, a locked block keeps
them as they are, and the two lookups find what R78 and R79 say. -/

namespace Sys2Proof.Machine

/-! ### Well-formed and counted -/

theorem bank_congr {s t : State} (hA : t.gtA = s.gtA) (hB : t.gtB = s.gtB) (b : Bank) : t.bank b = s.bank b := by
  cases b
  · exact hA
  · exact hB

theorem countOf_congr {s t : State} (hA : t.gtCountA = s.gtCountA) (hB : t.gtCountB = s.gtCountB) (b : Bank) :
    t.countOf b = s.countOf b := by
  cases b
  · exact hA
  · exact hB

/-- Both banks are well formed, and their counts are right (R80, R81). -/
abbrev State.GlyphsOk (s : State) : Prop := s.BanksOk ∧ s.CountsOk

theorem glyphsOk_congr {s t : State} (hp : t.params = s.params) (hA : t.gtA = s.gtA) (hB : t.gtB = s.gtB)
    (hcA : t.gtCountA = s.gtCountA) (hcB : t.gtCountB = s.gtCountB) (h : s.GlyphsOk) : t.GlyphsOk := by
  refine ⟨fun b => ?_, fun b => ?_⟩
  · rw [hp, bank_congr hA hB]
    exact h.1 b
  · rw [bank_congr hA hB, countOf_congr hcA hcB]
    exact h.2 b

theorem HostKept.glyphsOk {s u : State} (h : HostKept s u) (hg : s.GlyphsOk) : u.GlyphsOk :=
  glyphsOk_congr h.params h.gtA h.gtB h.gtCountA h.gtCountB hg

/-- A bank's replacement by a well-formed one. -/
theorem glyphsOk_setBank {s : State} {b : Bank} {g : GlyphBank} (hp : s.params.Ok) (h : s.GlyphsOk)
    (hg : BankOk s.params.gtEntries g) : (s.setBank b g).GlyphsOk := by
  refine ⟨fun c => ?_, fun c => ?_⟩ <;> by_cases hc : c = b
  · subst hc
    rwa [setBank_bank, State.setBank_params]
  · rw [setBank_bank_other s g hc, State.setBank_params]
    exact h.1 c
  · subst hc
    rw [setBank_bank, setBank_countOf, toNat_validCount hp.2.1 hg]
  · rw [setBank_bank_other s g hc, setBank_countOf_other s g hc]
    exact h.2 c

/-- Every primitive step keeps the banks well formed and counted. -/
theorem glyphsOk_primitive {i : Instr} {p : State → Effect} {s u : State} (hp : p ∈ stepsOf i) (hu : p s = .ok u)
    (hpar : s.params.Ok) (h : s.GlyphsOk) : u.GlyphsOk := by
  rcases primitive_ok hp hu with hq | ⟨-, ⟨b, index, -, hw⟩ | ⟨b, index, -, hw⟩ | ⟨b, -, hw⟩⟩
  · exact glyphsOk_congr hq.params hq.gtA hq.gtB hq.gtCountA hq.gtCountB h
  · obtain ⟨-, hi, hd, rfl⟩ := gtWrite_ok hw
    exact glyphsOk_setBank hpar h (bankOk_cellsPut (h.1 b) hi hd)
  · obtain ⟨-, -, rfl⟩ := gtInval_ok hw
    exact glyphsOk_setBank hpar h (bankOk_invalidateAt (h.1 b) index)
  · obtain ⟨-, rfl⟩ := gtClear_ok hw
    exact glyphsOk_setBank hpar h (bankOk_invalidateAll (h.1 b))

theorem softReset_bank (s : State) (b : Bank) : s.softReset.bank b = invalidateAll (s.bank b) := by
  rw [softReset_eq]
  cases b <;> rfl

theorem softReset_countOf (s : State) (b : Bank) : s.softReset.countOf b = 0 := by
  rw [softReset_eq]
  cases b <;> rfl

/-- Every move keeps the banks well formed and counted. -/
theorem Move.glyphsOk {e : Option Event} {s t : State} (h : Move e s t) (hpar : s.params.Ok) (hg : s.GlyphsOk) :
    t.GlyphsOk := by
  cases h with
  | host h => exact h.glyphsOk hg
  | accept w hb => exact hg
  | store off size v ha hr =>
    rw [storeBytes_eq]
    exact hg
  | complete c hc => exact hg
  | finish hi hp hu | advance hi hp hu hl => exact (glyphsOk_primitive hp hu hpar hg :)
  | softReset he hv =>
    refine ⟨fun b => ?_, fun b => ?_⟩
    · rw [softReset_bank, State.softReset_params]
      exact bankOk_invalidateAll (hg.1 b)
    · rw [softReset_bank, softReset_countOf, validCount_invalidateAll]
      rfl
  | hardReset he =>
    refine ⟨fun b => ?_, fun b => ?_⟩ <;> cases b
    exacts [bankOk_nil _, bankOk_nil _, rfl, rfl]

/-- Settles O52: a step is a move, and every move keeps the banks well formed and counted. -/
theorem stepKeepsBanksAndCounts : Obligations.StepKeepsBanksAndCounts := by
  intro s t hp hb hc h
  obtain ⟨u, v, hsu, hmove, hvt⟩ := step_move h
  exact hvt.glyphsOk (hmove.glyphsOk (hsu.params ▸ hp) (hsu.glyphsOk ⟨hb, hc⟩))

/-! ### The lock -/

/-- `t` is locked and holds the glyph entries and counts of `s`. -/
structure LockedAs (s t : State) : Prop where
  gtLock : t.gtLock = true
  gtA : t.gtA = s.gtA
  gtB : t.gtB = s.gtB
  gtCountA : t.gtCountA = s.gtCountA
  gtCountB : t.gtCountB = s.gtCountB

theorem LockedAs.trans {s t u : State} (h : LockedAs s t) (h' : LockedAs t u) : LockedAs s u :=
  ⟨h'.gtLock, h'.gtA.trans h.gtA, h'.gtB.trans h.gtB, h'.gtCountA.trans h.gtCountA, h'.gtCountB.trans h.gtCountB⟩

theorem HostKept.lockedAs {s u : State} (h : HostKept s u) (hl : s.gtLock = true) : LockedAs s u :=
  ⟨h.gtLock hl, h.gtA, h.gtB, h.gtCountA, h.gtCountB⟩

/-- On a locked block every primitive step that succeeds is quiet (R86). -/
theorem lockedAs_primitive {i : Instr} {p : State → Effect} {s u : State} (hp : p ∈ stepsOf i) (hu : p s = .ok u)
    (hl : s.gtLock = true) : LockedAs s u := by
  rcases primitive_ok hp hu with hq | ⟨hl', -⟩
  · exact ⟨hq.gtLock.trans hl, hq.gtA, hq.gtB, hq.gtCountA, hq.gtCountB⟩
  · rw [hl] at hl'
    cases hl'

/-- A locked block keeps its glyph entries, its counts and the lock in every move but a reset. -/
theorem Move.lockedAs {e : Option Event} {s t : State} (h : Move e s t) (hl : s.gtLock = true)
    (he : ∀ x ∈ e, isReset x = false) : LockedAs s t := by
  cases h with
  | host h => exact h.lockedAs hl
  | accept w hb => exact ⟨hl, rfl, rfl, rfl, rfl⟩
  | store off size v ha hr =>
    rw [storeBytes_eq]
    exact ⟨hl, rfl, rfl, rfl, rfl⟩
  | complete c hc => exact ⟨hl, rfl, rfl, rfl, rfl⟩
  | finish hi hp hu | advance hi hp hu hlt =>
    obtain ⟨hlock, hA, hB, hcA, hcB⟩ := lockedAs_primitive hp hu hl
    exact ⟨hlock, hA, hB, hcA, hcB⟩
  | softReset he' hv =>
    subst he'
    have := he _ rfl
    simp only [isReset, hv] at this
    exact absurd this (by decide)
  | hardReset he' =>
    subst he'
    exact absurd (he _ rfl) (by decide)

/-- An IDLE write to CTRL without SOFT_RESET sets the lock or leaves it (R33). -/
theorem writeReg_ctrl_idle {s : State} {v : Word} (hb : s.busy = false) (hv : v.getLsbD 0 = false) :
    s.writeReg .ctrl v = { s with gtLock := s.gtLock || v.getLsbD 1 } := by
  simp only [State.writeReg, hb, hv, Bool.false_eq_true, if_false]

/-- Settles O58: the write of CTRL by its own rule; every other step is a move, and no move but a reset unlocks. -/
theorem lockHoldsUntilReset : Obligations.LockHoldsUntilReset := by
  refine ⟨fun s v rest hb hv he => ?_, fun s t hl h he => ?_⟩
  · rw [step_write_register he (by decide) (by decide) (r := .ctrl) rfl,
      writeReg_ctrl_idle (s := { s with events := rest }) hb hv]
    cases v.getLsbD 1 <;> simp [State.respond]
  · obtain ⟨u, v, hsu, hmove, hvt⟩ := step_move h
    have hu := hsu.lockedAs hl
    have hv := hmove.lockedAs hu.gtLock he
    obtain ⟨hlock, hA, hB, hcA, hcB⟩ := (hu.trans hv).trans (hvt.lockedAs hv.gtLock)
    exact ⟨hlock, hA, hB, hcA, hcB⟩

/-! ### The lookups -/

/-- Settles O23: a hit is a valid entry, and in a well-formed bank a pattern has one. -/
theorem forwardLookupFindsTheEntry : Obligations.ForwardLookupFindsTheEntry := by
  intro n g p c hg
  refine ⟨lookupPattern_some, ?_⟩
  rintro ⟨e, he, hev, rfl, rfl⟩
  cases hl : lookupPattern g e.2.pattern with
  | none => exact absurd rfl (lookupPattern_none.1 hl e he hev)
  | some c =>
    obtain ⟨f, hf, hfv, hfp, rfl⟩ := lookupPattern_some hl
    rw [bankOk_unique hg hf he hfv hev hfp]

/-- In a bank of rising indices the reverse lookup's hit has the lowest index of its code. -/
theorem lookupCode_lowest {g : GlyphBank} {c : Byte} {p : Pattern} (hs : CellsSorted g) (h : lookupCode g c = some p) :
    ∃ e ∈ g, e.2.valid = true ∧ e.2.code = c ∧ e.2.pattern = p ∧
      ∀ f ∈ g, f.2.valid = true → f.2.code = c → e.1 ≤ f.1 := by
  obtain ⟨e, he, rfl⟩ := Option.map_eq_some_iff.1 h
  obtain ⟨hpe, before, after, rfl, hb⟩ := List.find?_eq_some_iff_append.1 he
  simp only [Bool.and_eq_true, beq_iff_eq] at hpe
  refine ⟨e, by simp, hpe.1, hpe.2, rfl, fun f hf hfv hfc => ?_⟩
  obtain ⟨-, hea, -⟩ := List.pairwise_append.1 hs
  rcases List.mem_append.1 hf with hf | hf
  · simpa [hfv, hfc] using hb f hf
  · rcases List.mem_cons.1 hf with rfl | hf
    · exact le_rfl
    · exact ((List.pairwise_cons.1 hea).1 f hf).le

/-- Settles O24: the hit is the first listed entry with the code, so the one of lowest index. -/
theorem reverseLookupFindsTheLowestIndex : Obligations.ReverseLookupFindsTheLowestIndex := by
  intro n g c hg
  refine ⟨fun p => ⟨lookupCode_lowest hg.sorted, ?_⟩, lookupCode_none⟩
  rintro ⟨e, he, hev, hec, rfl, hle⟩
  cases hl : lookupCode g c with
  | none => exact absurd hec (lookupCode_none.1 hl e he hev)
  | some q =>
    obtain ⟨f, hf, hfv, hfc, rfl, hlf⟩ := lookupCode_lowest hg.sorted hl
    rw [cellsSorted_unique hg.sorted hf he (Nat.le_antisymm (hlf e he hev hec) (hle f hf hfv hfc))]

end Sys2Proof.Machine
end

section
/-! Flags, counts, the step index and the query results (spec/10_state.md R34, R50, R51, R53, R54, R85; R329, R400). -/

namespace Sys2Proof.Machine

/-! ### Flags and counts -/

theorem flagsOk_congr {s t : State} (h : s.FlagsOk) (hpm : t.partialMatch = s.partialMatch)
    (huc : t.unmatchedCnt = s.unmatchedCnt) (hdp : t.decPartial = s.decPartial) (hdm : t.decMissCnt = s.decMissCnt)
    (hec : t.errCause = s.errCause) : t.FlagsOk :=
  ⟨by rw [hpm, huc]; exact h.unmatched, huc ▸ h.unmatched_le, by rw [hdp, hdm]; exact h.missed, hdm ▸ h.missed_le,
    hec ▸ h.cause⟩

theorem HostKept.flagsOk {s u : State} (h : HostKept s u) (hf : s.FlagsOk) : u.FlagsOk :=
  flagsOk_congr hf h.partialMatch h.unmatchedCnt h.decPartial h.decMissCnt h.errCause

/-- A completion with a code of R400. -/
theorem flagsOk_complete {s : State} {c : Byte} (hc : c.toNat ≤ 8) (h : s.FlagsOk) : (s.complete c).FlagsOk :=
  ⟨h.unmatched, h.unmatched_le, h.missed, h.missed_le, hc⟩

/-- A count of cells fits its register. -/
theorem toNat_count {n : Nat} (hn : n ≤ 768) : (BitVec.ofNat 10 n).toNat = n := by
  rw [BitVec.toNat_ofNat]
  omega

/-- The flag of a count register says whether the count is 0 (R329, R353). -/
theorem countFlag_iff {n : Nat} {c : BitVec 10} (hc : c.toNat = n) : decide (n ≠ 0) = true ↔ c ≠ 0 := by
  rw [decide_eq_true_iff, ← hc, ne_eq, ne_eq, ← BitVec.toNat_inj]
  rfl

theorem flagsOk_setMissed {s : State} {n : Nat} (hn : n ≤ 768) (h : s.FlagsOk) : (s.setMissed n).FlagsOk :=
  ⟨h.unmatched, h.unmatched_le, countFlag_iff (toNat_count hn), (toNat_count hn).trans_le hn, h.cause⟩

theorem flagsOk_matchWrites {s : State} (h : s.FlagsOk) : (matchWrites s).FlagsOk := by
  have hn := unmatchedCnt_matchWrites s
  refine ⟨?_, hn.trans_le (peUnmatched_le s), ?_, ?_, ?_⟩
  · rw [partialMatch_matchWrites]
    exact countFlag_iff hn
  · rw [matchWrites_decPartial, matchWrites_decMissCnt]
    exact h.missed
  · rw [matchWrites_decMissCnt]
    exact h.missed_le
  · rw [(matchWrites_quiet s).errCause]
    exact h.cause

/-- Every primitive step keeps the flags in agreement with their counts. -/
theorem PrimitiveWrites.flagsOk {i : Instr} {s u : State} (h : PrimitiveWrites i s u) (hf : s.FlagsOk) : u.FlagsOk := by
  cases h with
  | nothing | answer | patternAnswer | calibration | fill | painting =>
    exact ⟨hf.unmatched, hf.unmatched_le, hf.missed, hf.missed_le, hf.cause⟩
  | bank b g => exact flagsOk_congr hf (by simp) (by simp) (by simp) (by simp) (by simp)
  | characters x hx f n hn =>
    exact flagsOk_setMissed hn ⟨hf.unmatched, hf.unmatched_le, hf.missed, hf.missed_le, hf.cause⟩
  | matching hi => exact flagsOk_matchWrites hf

/-- Every move keeps the flags in agreement with their counts. -/
theorem Move.flagsOk {e : Option Event} {s t : State} (h : Move e s t) (hf : s.FlagsOk) : t.FlagsOk := by
  cases h with
  | host h => exact h.flagsOk hf
  | accept w hb => exact flagsOk_congr hf rfl rfl rfl rfl rfl
  | store off size v ha hr =>
    rw [storeBytes_eq]
    exact flagsOk_congr hf rfl rfl rfl rfl rfl
  | complete c hc => exact flagsOk_complete hc hf
  | finish hi hp hu => exact flagsOk_complete (by decide) ((primitive_writes hp hu).flagsOk hf)
  | advance hi hp hu hl => exact flagsOk_congr ((primitive_writes hp hu).flagsOk hf) rfl rfl rfl rfl rfl
  | softReset he hv =>
    rw [softReset_eq]
    exact flagsOk_congr State.reset_flagsOk rfl rfl rfl rfl rfl
  | hardReset he => exact flagsOk_congr State.reset_flagsOk rfl rfl rfl rfl rfl

/-! ### The step index -/

theorem stepCount_pos (o : Option Instr) : 0 < stepCount o := by
  unfold stepCount
  split <;> decide

theorem stepCount_some (i : Instr) : stepCount (some i) = (stepsOf i).length := by cases i <;> rfl

/-- A step index of 0 is inside every sequence. -/
theorem engineOk_of_zero {s : State} (h : s.seqStep = 0) : s.EngineOk := by
  rw [State.EngineOk, h]
  exact stepCount_pos _

theorem HostKept.engineOk {s u : State} (h : HostKept s u) (he : s.EngineOk) : u.EngineOk := by
  rw [State.EngineOk, h.seqStep, h.running]
  exact he

/-- Every move keeps the step index inside its sequence. -/
theorem Move.engineOk {e : Option Event} {s t : State} (h : Move e s t) (he : s.EngineOk) : t.EngineOk := by
  cases h with
  | host h => exact h.engineOk he
  | accept w hb => exact engineOk_of_zero rfl
  | store off size v ha hr =>
    rw [storeBytes_eq]
    exact he
  | complete c hc => exact engineOk_of_zero rfl
  | finish hi hp hu => exact engineOk_of_zero rfl
  | @advance i p u hi hp hu hl =>
    have hk := primitive_kept hp hu
    have hr : { u with seqStep := s.seqStep + 1 }.running = some i := (running_congr hk.busy hk.cmd).trans hi
    rw [State.EngineOk, hr, stepCount_some]
    exact hl
  | softReset he' hv =>
    rw [softReset_eq]
    exact engineOk_of_zero rfl
  | hardReset he' => exact engineOk_of_zero rfl

/-- Settles O53: a step is a move, and every move keeps the flags and the step index. -/
theorem stepKeepsFlagsAndSequence : Obligations.StepKeepsFlagsAndSequence := by
  intro s t hf he h
  obtain ⟨u, v, hsu, hmove, hvt⟩ := step_move h
  exact ⟨hvt.flagsOk (hmove.flagsOk (hsu.flagsOk hf)), hvt.engineOk (hmove.engineOk (hsu.engineOk he))⟩

/-! ### The query results -/

/-- `t` differs from `s` in RESULT only after a query, in RESULT_PAT only after a query for a pattern (R53, R54). -/
def QueriesOnly (i : Instr) (s t : State) : Prop :=
  (t.result ≠ s.result → i.opcode.toNat ∈ [0x10, 0x11, 0x12, 0x23, 0x24]) ∧
    (t.resultPatLo ≠ s.resultPatLo ∨ t.resultPatHi ≠ s.resultPatHi → i.opcode.toNat ∈ [0x11, 0x24])

theorem queriesOnly_of_same (i : Instr) {s t : State} (hr : t.result = s.result) (hlo : t.resultPatLo = s.resultPatLo)
    (hhi : t.resultPatHi = s.resultPatHi) : QueriesOnly i s t :=
  ⟨fun h => absurd hr h, fun h => h.elim (absurd hlo) (absurd hhi)⟩

theorem PrimitiveWrites.queriesOnly {i : Instr} {s u : State} (h : PrimitiveWrites i s u) : QueriesOnly i s u := by
  cases h with
  | nothing | calibration | fill | characters | painting => exact queriesOnly_of_same i rfl rfl rfl
  | bank b g => exact queriesOnly_of_same i (by simp) (by simp) (by simp)
  | matching hi => exact queriesOnly_of_same i (by simp) (by simp) (by simp)
  | answer r hi => exact ⟨fun _ => by simp at hi ⊢; omega, fun h => h.elim (absurd rfl) (absurd rfl)⟩
  | patternAnswer r hi lo h => exact ⟨fun _ => by simp at h ⊢; omega, fun _ => h⟩

/-- Settles O56: a command's turn leaves what one of its primitive steps wrote, and only queries write the results. -/
theorem onlyQueriesWriteResult : Obligations.OnlyQueriesWriteResult := by
  intro i s t h
  obtain ⟨t', ht', hc⟩ := exec_cases i s
  cases ht'.symm.trans h
  rcases hc with ⟨e, -, rfl⟩ | ⟨p, hp, u, hu, rfl | ⟨-, rfl⟩⟩
  · exact queriesOnly_of_same i rfl rfl rfl
  · exact (primitive_writes hp hu).queriesOnly
  · exact (primitive_writes hp hu).queriesOnly

end Sys2Proof.Machine
end

section
/-! What the host reads (spec/10_state.md R60; spec/20_memory.md R102, R105, R106, R115; R461). -/

namespace Sys2Proof.Machine

/-- A register offset past the map reads 0 (R106). -/
theorem readData_reserved (s : State) (size : Size) {off : Nat} (h : 0x080 ≤ off) (hr : off < 0x10000) :
    s.readData off size = 0 := by
  have hn : regAt off = none := List.getElem?_eq_none (show 32 ≤ off / 4 by omega)
  rw [State.readData, if_pos hr, State.visibleReg, hn]

/-- The word a register read gives: the register, mixed with free bits where the running command may write. -/
theorem readData_register (s : State) (size : Size) {off : Nat} {r : Reg} (h : (off, r) ∈ registerTable) :
    s.readData off size =
      mixBits (s.regMask r) (s.readReg r) (dataWord 4 (fun k => Config.freeByte s.draws (off + k))) := by
  obtain ⟨hr, hlt⟩ := regAt_of_table h
  rw [State.readData, if_pos (by omega), State.visibleReg, hr]

/-- Byte k of what a window read gives (R102). -/
theorem readData_window_byte (s : State) (size : Size) {off k : Nat} (h : 0x10000 ≤ off) (hk : k < 4) :
    (s.readData off size).extractLsb' (8 * k) 8 = if k < size.bytes then s.visibleByte (off + k) else 0 := by
  rw [State.readData, if_neg (Nat.not_lt.2 h)]
  exact dataByte_dataWord size.bytes _ k hk

/-- A bit the running command may not write reads as it is in a live byte, and 0 elsewhere (R106, R461). -/
theorem visibleByte_getLsbD {s : State} {a j : Nat} (h : 0x10000 ≤ a) (hm : (s.memMask a).getLsbD j = false) :
    (s.visibleByte a).getLsbD j = (decide (liveOffset s.params a) && (s.byteAt a).getLsbD j) := by
  unfold State.visibleByte
  by_cases hl : liveOffset s.params a
  · rw [if_pos ((liveByte_iff h).2 hl), mixBits_getLsbD, hm, decide_eq_true hl]
    rfl
  · rw [if_neg (fun hb => hl ((liveByte_iff h).1 hb)), decide_eq_false hl]
    simp

/-- An IDLE block shows the live bytes as they are, and 0 elsewhere. -/
theorem visibleByte_idle {s : State} (hb : s.busy = false) {a : Nat} (h : 0x10000 ≤ a) :
    s.visibleByte a = if liveOffset s.params a then s.byteAt a else 0 := by
  apply BitVec.eq_of_getLsbD_eq
  intro j _
  rw [visibleByte_getLsbD h (by rw [memMask_idle hb]; simp)]
  split <;> simp [*]

/-- Settles O12: the step of a read, and the word it gives, register by register and byte by byte. -/
theorem readGivesCurrentValue : Obligations.ReadGivesCurrentValue := by
  intro s off size rest ho hal hw he
  refine ⟨_, _, step_read he ho (accessError_ok hal hw), readData_reserved s size, fun hb => ⟨?_, ?_, ?_⟩, ?_, ?_⟩
  · rw [hb]
    rfl
  · intro r hr
    rw [readData_register s size hr, regMask_idle hb]
    exact mixBits_zero _ _
  · intro hwin k hk
    rw [readData_window_byte s size hwin hk, visibleByte_idle hb (by omega), ite_and]
  · intro r hr j _ hmay
    rw [readData_register s size hr, mixBits_getLsbD, regMask_bit hmay]
    rfl
  · intro hwin k hk j hj hmay
    rw [readData_window_byte s size hwin hk]
    split
    · rename_i hks
      rw [visibleByte_getLsbD (by omega) (memMask_bit hj hmay)]
      simp [hks]
    · rename_i hks
      simp [hks]

end Sys2Proof.Machine
end

section
/-! Register writes and reset values (spec/10_state.md R33 to R60, R90, R92; spec/60_exceptions.md R421, R422). -/

namespace Sys2Proof.Machine

/-! ### Plain registers -/

/-- The live bits of a plain RW register (R39 to R44, R47, R48, R52, R55, R56). -/
def Reg.liveBits : Reg → Word
  | .srcW | .srcH | .inLen => 0xFFFF
  | .attrFill | .gtCode => 0xFF
  | .modelSel => 1
  | _ => 0xFFFFFFFF

/-- Cutting a word to its low bits and widening it again masks it. -/
theorem setWidth_setWidth_eq_and (v : Word) {n : Nat} (hn : n ≤ 32) :
    (v.setWidth n).setWidth 32 = v &&& BitVec.ofNat 32 (2 ^ n - 1) := by
  have hp : 2 ^ n ≤ 2 ^ 32 := Nat.pow_le_pow_right (by decide) hn
  have hv : v.toNat % 2 ^ n < 2 ^ n := Nat.mod_lt _ (by positivity)
  apply BitVec.eq_of_toNat_eq
  rw [BitVec.toNat_setWidth, BitVec.toNat_setWidth, BitVec.toNat_and, BitVec.toNat_ofNat, Nat.mod_eq_of_lt (by omega),
    Nat.mod_eq_of_lt (show 2 ^ n - 1 < 2 ^ 32 by omega), Nat.and_two_pow_sub_one_eq_mod]

/-- The number of the bank a bit names is the bit (R159). -/
theorem toNat_ofBit {b : Nat} (h : b < 2) : (Bank.ofBit b).toNat = b := by
  interval_cases b <;> rfl

/-- A plain register reads back what was written to its live bits. -/
theorem readReg_storeReg (s : State) {r : Reg} (hr : r.isPlain = true) (v : Word) :
    (s.storeReg r v).readReg r = v &&& r.liveBits := by
  have whole : v = v &&& 0xFFFFFFFF := BitVec.and_allOnes.symm
  cases r
  case srcW | srcH | inLen => exact setWidth_setWidth_eq_and v (n := 16) (by decide)
  case attrFill | gtCode => exact setWidth_setWidth_eq_and v (n := 8) (by decide)
  case modelSel =>
    show BitVec.ofNat 32 (Bank.ofBit (v.extractLsb' 0 1).toNat).toNat = _
    rw [toNat_ofBit (BitVec.isLt _), BitVec.ofNat_toNat]
    exact setWidth_setWidth_eq_and v (n := 1) (by decide)
  case reqOffX | reqOffY | usedOffX | usedOffY | gtPatLo | gtPatHi => exact whole
  all_goals cases hr

/-- A write of a register leaves every other one. -/
theorem readReg_storeReg_other (s : State) {q r : Reg} (h : q ≠ r) (v : Word) :
    (s.storeReg r v).readReg q = s.readReg q := by
  cases r <;> cases q <;> first | rfl | exact absurd rfl h

/-- An IDLE write of a plain register stores it. -/
theorem writeReg_plain_idle {s : State} {r : Reg} (hr : r.isPlain = true) (hb : s.busy = false) (v : Word) :
    s.writeReg r v = s.storeReg r v := by
  unfold State.writeReg
  split
  case h_6 => rw [if_pos hr, if_neg (by simp [hb])]
  all_goals cases hr

/-- No register shows the model's own draws, events and responses. -/
theorem readReg_ofModel (s : State) (n : Nat) (es : List Event) (rs : List Response) (q : Reg) :
    { s with draws := n, events := es, responses := rs }.readReg q = s.readReg q := by
  cases q <;> rfl

/-- The plain RW registers with their offsets and live bits (R60). -/
def plainTable : List (Nat × Reg × Word) :=
  [(0x020, .srcW, 0xFFFF), (0x024, .srcH, 0xFFFF), (0x028, .reqOffX, 0xFFFFFFFF), (0x02C, .reqOffY, 0xFFFFFFFF),
    (0x030, .usedOffX, 0xFFFFFFFF), (0x034, .usedOffY, 0xFFFFFFFF), (0x040, .modelSel, 1), (0x044, .attrFill, 0xFF),
    (0x054, .inLen, 0xFFFF), (0x064, .gtPatLo, 0xFFFFFFFF), (0x068, .gtPatHi, 0xFFFFFFFF), (0x06C, .gtCode, 0xFF)]

theorem plainTable_spec {off : Nat} {r : Reg} {mask : Word} (h : (off, r, mask) ∈ plainTable) :
    regAt off = some r ∧ off < 0x10000 ∧ off % 4 = 0 ∧ r.isPlain = true ∧ mask = r.liveBits :=
  (by decide : ∀ q ∈ plainTable, regAt q.1 = some q.2.1 ∧ q.1 < 0x10000 ∧ q.1 % 4 = 0 ∧ q.2.1.isPlain = true ∧
    q.2.2 = q.2.1.liveBits) _ h

/-- Settles O14: the write stores one plain register, which reads back its live bits; INT_EN is written BUSY or not. -/
theorem registerWriteReadsBack : Obligations.RegisterWriteReadsBack := by
  refine ⟨fun s off r mask v rest hb hq he => ?_, fun s v rest he => ?_⟩
  · obtain ⟨hreg, hlt, hal, hplain, rfl⟩ := plainTable_spec hq
    have hs := step_write_register he hlt hal hreg
    rw [writeReg_plain_idle (s := { s with events := rest }) hplain hb] at hs
    refine ⟨_, hs, ?_, fun q hne => ?_, fun a => ?_, ?_⟩
    · exact (readReg_ofModel _ _ _ _ r).trans (readReg_storeReg _ hplain v)
    · exact (readReg_ofModel _ _ _ _ q).trans
        ((readReg_storeReg_other _ hne v).trans (readReg_ofModel s s.draws rest s.responses q))
    · rw [storeReg_kept]
      rfl
    · exact congrArg (State.respond · .writeOkay) (storeReg_kept { s with events := rest } r v)
  · exact step_write_register he (by decide) (by decide) (r := .intEn) rfl

/-! ### Flags -/

/-- Settles O15: the writes by their own rules, and the flag words bit by bit. -/
theorem acknowledgeClearsWrittenBits : Obligations.AcknowledgeClearsWrittenBits := by
  refine ⟨fun s v rest he => ⟨_, step_write_register he (by decide) (by decide) (r := .intStatus) rfl, rfl, ?_⟩,
    fun s v rest he => step_write_register he (by decide) (by decide) (r := .status) rfl, fun s j hj => ?_⟩
  · simp only [State.irq, State.respond, State.writeReg, State.acknowledge, Bool.or_eq_true, Bool.and_eq_true,
      Bool.not_eq_true', and_assoc]
  · refine ⟨flagAt_getLsbD _ (by decide) hj, ?_, ?_, ?_⟩
    all_goals
      simp (disch := omega) only [State.readReg, State.statusWord, State.intEnWord, State.intStatusWord,
        BitVec.getLsbD_or, flagAt_getLsbD]
      grind

/-! ### Hardware reset -/

/-- The reset value of each register (R60), given the parameters. -/
def Reg.resetValue (p : Config.Params) : Reg → Word
  | .id => 0x474D5045
  | .version => 0x00010000
  | .reqOffX | .reqOffY => 0xFFFFFFFF
  | .attrFill => 0x38
  | .placeholder => 0x3F
  | .param0 => BitVec.ofNat 32 (p.gtEntries % 2 ^ 17)
  | .param1 => BitVec.ofNat 16 p.srcMaxH ++ BitVec.ofNat 16 p.srcMaxW
  | _ => 0

/-- Every register reads its reset value after a hardware reset (R90). -/
theorem readReg_hardReset (s : State) (r : Reg) : s.hardReset.readReg r = r.resetValue s.params := by
  cases r
  case status => exact (by decide : State.reset.statusWord = 0)
  case intEn => exact (by decide : State.reset.intEnWord = 0)
  case intStatus => exact (by decide : State.reset.intStatusWord = 0)
  all_goals rfl

/-- Settles O16: the step is the reset, and each offset of the table names its register's reset value. -/
theorem hardResetValues : Obligations.HardResetValues := by
  intro s rest he
  refine ⟨_, step_event he, rfl, rfl, rfl, rfl, fun q hq => ?_, fun b e hb => ?_⟩
  · rw [readReg_hardReset]
    revert q
    simp [registerTable, Reg.resetValue]
  · cases b <;> exact absurd hb List.not_mem_nil

end Sys2Proof.Machine
end

section
/-! The engine's turn (spec/10_state.md R85) and the raster in CLEAN (spec/10_state.md R72;
spec/43_binarizer.md R293). -/

namespace Sys2Proof.Machine

/-- Settles O6: with no event left, or the engine's turn next, the step is the engine's turn. -/
theorem stepRunsLatchedCommand : Obligations.StepRunsLatchedCommand := by
  intro s i hb hd
  have hr : s.running = some i := running_eq_some.2 ⟨hb, hd⟩
  refine ⟨fun he => (step_no_event he).trans (engineTurn_running hr), fun rest he => ?_⟩
  exact (step_event he).trans (engineTurn_running (s := { s with events := rest }) hr)

/-- The state BINARIZE leaves before its completion, where the dimensions are legal. -/
theorem binarize_eq {s : State} (h : s.legalDims) :
    binarize s = .ok (s.fillBytes cleanBase ((s.srcW.toNat * s.srcH.toNat + 7) / 8) s.cleanByte) :=
  if_neg (not_not.2 h)

/-- Every bit of CLEAN after BINARIZE's fill: a pixel's bit inside the raster, as it was past it (R72). -/
theorem cleanBit_fill (s : State) (k : Nat) :
    (s.fillBytes cleanBase ((s.srcW.toNat * s.srcH.toNat + 7) / 8) s.cleanByte).cleanBit k =
      if k < s.srcW.toNat * s.srcH.toNat then s.inkAt (k % s.srcW.toNat) (k / s.srcW.toNat) else s.cleanBit k := by
  have hk : 8 * (k / 8) + k % 8 = k := Nat.div_add_mod k 8
  unfold State.cleanBit
  rw [byteAt_fillBytes, Nat.add_sub_cancel_left]
  split
  · rw [State.cleanByte, byteMsb_getLsbD _ _ (Nat.mod_lt _ (by decide))]
    simp only [hk]
  · rw [if_neg (by omega)]

/-- Settles O29: bit by bit of CLEAN, and the other bytes outside the filled range. -/
theorem binarizeResult : Obligations.BinarizeResult := by
  intro s hd
  refine ⟨_, next_settle_ok (binarize_eq hd), rfl, fun x y hx hy => ?_, fun k hk => ?_, fun a ha => ?_⟩
  · have hpos : 0 < s.srcW.toNat := by omega
    have hlt : y * s.srcW.toNat + x < s.srcW.toNat * s.srcH.toNat := by
      have := Nat.mul_le_mul_right s.srcW.toNat (show y + 1 ≤ s.srcH.toNat from hy)
      rw [Nat.mul_comm s.srcW.toNat s.srcH.toNat]
      linarith
    refine (cleanBit_fill s _).trans ?_
    rw [if_pos hlt, Nat.mul_comm y, Nat.mul_add_mod, Nat.mod_eq_of_lt hx, Nat.mul_add_div hpos, Nat.div_eq_of_lt hx,
      Nat.add_zero]
  · exact (cleanBit_fill s k).trans (if_neg (Nat.not_lt.2 hk))
  · exact byteAt_fillBytes_outside _ _ _ _ _ ha

end Sys2Proof.Machine
end

section
/-! Host accesses (spec/20_memory.md R102 to R107, R115): the writes that are ignored, the accesses that get an ERROR,
the little-endian store, and the one stop of the machine. -/

namespace Sys2Proof.Machine

/-! ### Writes that are ignored -/

/-- A register whose every write is ignored, BUSY or not (R60, R107). -/
def Reg.isReadOnly : Reg → Bool
  | .id | .version | .errCause | .effW | .effH | .placeholder | .unmatchedCnt | .decMissCnt | .result | .resultPatLo
  | .resultPatHi | .gtCountA | .gtCountB | .param0 | .param1 => true
  | .ctrl | .status | .cmd | .intEn | .intStatus | .srcW | .srcH | .reqOffX | .reqOffY | .usedOffX | .usedOffY
  | .modelSel | .attrFill | .inLen | .gtPatLo | .gtPatHi | .gtCode => false

theorem Reg.isPlain_of_isReadOnly {r : Reg} (h : r.isReadOnly = true) : r.isPlain = false := by
  cases r
  case srcW | srcH | reqOffX | reqOffY | usedOffX | usedOffY => cases h
  case modelSel | attrFill | inLen | gtPatLo | gtPatHi | gtCode => cases h
  all_goals rfl

/-- The offsets of the read-only registers (R60). -/
def readOnlyOffsets : List Nat :=
  [0x000, 0x004, 0x014, 0x038, 0x03C, 0x048, 0x04C, 0x050, 0x058, 0x05C, 0x060, 0x070, 0x074, 0x078, 0x07C]

theorem readOnlyOffsets_spec {off : Nat} (h : off ∈ readOnlyOffsets) :
    off < 0x10000 ∧ ∀ r ∈ regAt off, r.isReadOnly = true :=
  (by decide : ∀ a ∈ readOnlyOffsets, a < 0x10000 ∧ ∀ r ∈ regAt a, r.isReadOnly = true) off h

theorem writeReg_readOnly (s : State) {r : Reg} (h : r.isReadOnly = true) (v : Word) : s.writeReg r v = s := by
  unfold State.writeReg
  split
  case h_6 => rw [if_neg (by simp [Reg.isPlain_of_isReadOnly h])]
  all_goals cases h

/-- A write in the register region is ignored where no register but a read-only one stands (R106, R107). -/
theorem writeData_register_ignored (s : State) {off : Nat} (size : Size) (v : Word) (h : off < 0x10000)
    (hr : ∀ r ∈ regAt off, r.isReadOnly = true) : s.writeData off size v = s := by
  rw [State.writeData, regionOf_registers h]
  dsimp only
  split
  · rfl
  · rename_i r hreg
    exact writeReg_readOnly s (hr r hreg) v

/-- A write to MAP, to CLEAN or to reserved space is ignored (R106, R107). -/
theorem writeData_window_ignored (s : State) {off : Nat} (size : Size) (v : Word)
    (h : regionOf s.params off ∈ [Region.map, .clean, .reserved]) : s.writeData off size v = s := by
  unfold State.writeData
  split
  case h_6 | h_7 | h_8 => rfl
  all_goals rename_i hreg; simp [hreg] at h

/-- An offset past the registers and outside the live parts of the writable windows is of MAP, of CLEAN or reserved. -/
theorem regionOf_not_writable {p : Config.Params} {a : Nat} (hr : 0x10000 ≤ a) (hcellpat : ¬ inRange 0x10000 6144 a)
    (hraw : ¬ inRange 0x20000 768 a) (hdf : ¬ inRange 0x30000 6912 a)
    (hsrc : ¬ inRange 0x1000000 (4 * (p.srcMaxW * p.srcMaxH)) a) :
    regionOf p a ∈ [Region.map, .clean, .reserved] := by
  rw [regionOf, if_neg (Nat.not_lt.2 hr), if_neg (show ¬ inRange cellpatBase 6144 a from hcellpat),
    if_neg (show ¬ inRange rawBase 768 a from hraw), if_neg (show ¬ inRange dfBase 6912 a from hdf),
    if_neg (show ¬ inRange srcBase (srcBytes p) a from hsrc)]
  split_ifs <;> simp

/-- The step of a write that gets OKAY and has no effect. -/
theorem step_write_ignored {s : State} {off : Nat} {size : Size} {v : Word} {rest : List Event}
    (he : s.events = .access (.write off size v) :: rest) (h : off < 0x2000000) (ha : accessError off size = false)
    (hw : ∀ t : State, t.params = s.params → t.writeData off size v = t) :
    step s = .next { s with events := rest, responses := .writeOkay :: s.responses } := by
  rw [step_write he h ha, hw { s with events := rest } rfl]
  rfl

/-- Settles O10: in the register region no register but a read-only one stands at the offset, and past it no writable
window. -/
theorem readOnlyWriteIsIgnored : Obligations.ReadOnlyWriteIsIgnored := by
  intro s off size v rest hal hword he hoff
  have ignored := fun h => step_write_ignored he h (accessError_ok hal hword)
  rcases hoff with hro | ⟨hlo, hhi⟩ | hwin
  · obtain ⟨hlt, hreg⟩ := readOnlyOffsets_spec hro
    exact ignored (by omega) fun t _ => writeData_register_ignored t size v hlt hreg
  · have hreg : ∀ r ∈ regAt off, r.isReadOnly = true := fun r hr => absurd (lt_of_regAt hr) (Nat.not_lt.2 hlo)
    exact ignored (by omega) fun t _ => writeData_register_ignored t size v hhi hreg
  · have hreg : regionOf s.params off ∈ [Region.map, .clean, .reserved] :=
      regionOf_not_writable (by omega) (by omega) (by omega) (by omega) (by omega)
    exact ignored (by omega) fun t ht => writeData_window_ignored t size v (ht ▸ hreg)

/-! ### Accesses that get an ERROR -/

/-- A register-region access of size 1 or 2, or a misaligned one, gets an ERROR (R104). -/
theorem accessError_bad {off : Nat} {size : Size} (h : (off < 0x10000 ∧ size ≠ .word) ∨ off % size.bytes ≠ 0) :
    accessError off size = true := by
  rw [accessError, Bool.or_eq_true, Bool.and_eq_true, bne_iff_ne, bne_iff_ne, decide_eq_true_iff]
  exact h.symm

/-- Settles O11: the access gets an ERROR, whose step is known for a write and for a read. -/
theorem busErrorHasNoEffect : Obligations.BusErrorHasNoEffect := by
  intro s off size rest ho hbad
  have ha := accessError_bad hbad
  refine ⟨fun v he => step_write_error he ho ha, fun he => ?_⟩
  obtain ⟨d, hd⟩ := step_read_error he ho ha
  exact ⟨d, _, hd⟩

/-! ### The little-endian store -/

/-- An IDLE write to the live part of a writable window stores its bytes (R105). -/
theorem writeData_window_idle {s : State} {off : Nat} (size : Size) (v : Word) (hb : s.busy = false)
    (h : regionOf s.params off ∈ [Region.cellpat, .raw, .df, .src]) :
    s.writeData off size v = s.storeBytes off size v := by
  unfold State.writeData
  split
  case h_2 | h_3 | h_4 | h_5 => rw [if_neg (by simp [hb])]
  all_goals rename_i hreg; simp [hreg] at h

/-- Settles O13: the step stores the data's bytes, and a store changes the memory alone, byte by byte. -/
theorem idleWindowWriteIsLittleEndian : Obligations.IdleWindowWriteIsLittleEndian := by
  intro s off size v rest hp hb hal ho hwin he
  have hreg : regionOf s.params off ∈ [Region.cellpat, .raw, .df, .src] := by
    rcases hwin with h | h | h | h
    · simp [regionOf_cellpat h]
    · simp [regionOf_raw h]
    · simp [regionOf_df h]
    · simp [regionOf_src hp h]
  have hlo : 0x10000 ≤ off := by
    have := bases
    omega
  have hs := step_write he ho (accessError_window hlo hal)
  rw [writeData_window_idle (s := { s with events := rest }) size v hb hreg] at hs
  refine ⟨_, hs, ?_, byteAt_storeBytes { s with events := rest } off size v⟩
  exact congrArg (State.respond · .writeOkay) (storeBytes_eq { s with events := rest } off size v)

/-! ### The one stop -/

/-- The engine's turn never stops the machine. -/
theorem engineTurn_next (s : State) : ∃ t, engineTurn s = .next t := by
  cases hb : s.busy with
  | false => exact ⟨s, engineTurn_idle hb⟩
  | true =>
    cases hd : decode s.cmd with
    | ok i =>
      obtain ⟨t, ht, -⟩ := exec_cases i s
      exact ⟨t, (engineTurn_running (running_eq_some.2 ⟨hb, hd⟩)).trans ht⟩
    | error e => exact ⟨_, engineTurn_illegal hb (by simp [hd])⟩

/-- A read inside the block gives a next state. -/
theorem step_read_next {s : State} {off : Nat} {size : Size} {rest : List Event}
    (he : s.events = .access (.read off size) :: rest) (h : off < 0x2000000) : ∃ t, step s = .next t := by
  cases ha : accessError off size with
  | false => exact ⟨_, step_read he h ha⟩
  | true =>
    obtain ⟨_, hd⟩ := step_read_error he h ha
    exact ⟨_, hd⟩

/-- A write inside the block gives a next state. -/
theorem step_write_next {s : State} {off : Nat} {size : Size} {v : Word} {rest : List Event}
    (he : s.events = .access (.write off size v) :: rest) (h : off < 0x2000000) : ∃ t, step s = .next t := by
  cases ha : accessError off size with
  | false => exact ⟨_, step_write he h ha⟩
  | true => exact ⟨_, step_write_error he h ha⟩

/-- Settles O60: by the event the step takes, and for an access by whether its offset is inside the block. -/
theorem onlyUndecodedAccessesStop : Obligations.OnlyUndecodedAccessesStop := by
  intro s
  rcases he : s.events with _ | ⟨e, rest⟩
  · rw [step_no_event he]
    exact .inl (engineTurn_next s)
  · match e with
    | .engineTurn =>
      rw [step_event he]
      exact .inl (engineTurn_next _)
    | .hardwareReset => exact .inl ⟨_, step_event he⟩
    | .access (.read off size) =>
      rcases Nat.lt_or_ge off 0x2000000 with h | h
      · exact .inl (step_read_next he h)
      · exact .inr ⟨_, rest, rfl, .inl ⟨off, size, rfl, h, step_read_outside he h⟩⟩
    | .access (.write off size v) =>
      rcases Nat.lt_or_ge off 0x2000000 with h | h
      · exact .inl (step_write_next he h)
      · exact .inr ⟨_, rest, rfl, .inr ⟨off, size, v, rfl, h, step_write_outside he h⟩⟩

end Sys2Proof.Machine
end

section
/-! Command words (spec/30_encoding.md R152 to R165): a field as a number, the decoder by the opcode and the
reserved-zero mask of R160, the number of a command's word, and the two directions of the one-to-one correspondence. -/

namespace Sys2Proof

/-! ### Fields -/

/-- A field of a word is cut from its number by a division and a remainder (R11, R159). -/
theorem field_eq (w : Word) (lo len : Nat) : field w lo len = w.toNat / 2 ^ lo % 2 ^ len := by
  rw [field, BitVec.extractLsb'_toNat, Nat.shiftRight_eq_div_pow]

theorem field_lt (w : Word) (lo len : Nat) : field w lo len < 2 ^ len := BitVec.isLt _

/-- The mask with ones in the `len` bits from bit `lo` on. -/
def fieldMask (lo len : Nat) : Word := (BitVec.allOnes len).setWidth 32 <<< lo

/-- A field is zero exactly when its mask meets no 1 of the word. -/
theorem field_eq_zero_iff {lo len : Nat} (h : lo + len ≤ 32) (w : Word) :
    field w lo len = 0 ↔ w &&& fieldMask lo len = 0 := by
  have hmask : ∀ i < 32, (fieldMask lo len).getLsbD i = decide (lo ≤ i ∧ i < lo + len) := by
    intro i hi
    simp only [fieldMask, BitVec.getLsbD_shiftLeft, BitVec.getLsbD_setWidth, BitVec.getLsbD_allOnes]
    grind
  constructor
  · intro hf
    have hbits : w.extractLsb' lo len = 0 := BitVec.eq_of_toNat_eq hf
    refine and_mask_eq_zero w _ fun i hi hm => ?_
    rw [hmask i hi, decide_eq_true_iff] at hm
    have hbit := congrArg (·.getLsbD (i - lo)) hbits
    simpa [show i - lo < len by omega, Nat.add_sub_cancel' hm.1] using hbit
  · intro hand
    refine congrArg BitVec.toNat (BitVec.eq_of_getLsbD_eq fun i hi => ?_ : w.extractLsb' lo len = 0)
    have hbit := congrArg (·.getLsbD (lo + i)) hand
    simpa [hmask (lo + i) (by omega), hi] using hbit

theorem ifZero_eq_ok {n : Nat} {i j : Instr} : ifZero n i = .ok j ↔ n = 0 ∧ i = j := by
  unfold ifZero
  split <;> simp_all

/-! ### The decoder -/

/-- The command of the same mnemonic whose operands are read from `w` (R153 to R159). -/
def Instr.withOperandsOf (w : Word) : Instr → Instr
  | .sample _ _ => .sample (field w 8 12) (field w 20 12)
  | .matchCell _ _ => .matchCell (field w 8 12) (field w 20 12)
  | .cellAddr _ _ => .cellAddr (field w 8 5) (field w 13 3)
  | .gtWrite _ _ => .gtWrite (Bank.ofBit (field w 8 1)) (field w 16 16)
  | .gtInval _ _ => .gtInval (Bank.ofBit (field w 8 1)) (field w 16 16)
  | .gtClear _ => .gtClear (Bank.ofBit (field w 8 1))
  | .gtLookup _ => .gtLookup (Bank.ofBit (field w 8 1))
  | .gtReverse _ _ => .gtReverse (Bank.ofBit (field w 16 1)) (field w 8 8)
  | i => i

/-- The reserved-zero bits of a format are one field: its lowest bit and its length (R153 to R158). -/
def Instr.reservedField : Instr → Nat × Nat
  | .sample _ _ | .matchCell _ _ => (8, 0)
  | .cellAddr _ _ => (16, 16)
  | .gtWrite _ _ | .gtInval _ _ => (9, 7)
  | .gtClear _ | .gtLookup _ => (9, 23)
  | .gtReverse _ _ => (17, 15)
  | _ => (8, 24)

theorem reservedMask_eq (i : Instr) : i.reservedMask = fieldMask i.reservedField.1 i.reservedField.2 := by
  cases i <;> simp [Instr.reservedMask, Instr.reservedField, fieldMask]

theorem reservedField_le (i : Instr) : i.reservedField.1 + i.reservedField.2 ≤ 32 := by
  cases i <;> simp [Instr.reservedField]

/-- The reserved field is zero exactly when no reserved-zero bit is 1 (R160). -/
theorem reservedField_eq_zero_iff (w : Word) (i : Instr) :
    field w i.reservedField.1 i.reservedField.2 = 0 ↔ w &&& i.reservedMask = 0 := by
  rw [field_eq_zero_iff (reservedField_le i), reservedMask_eq]

/-- A word with the opcode of a command spells that mnemonic, provided the reserved field is zero (R162, R164). -/
theorem decode_of_opcode {w : Word} {i : Instr} (h : w.extractLsb' 0 8 = i.opcode) :
    decode w = ifZero (field w i.reservedField.1 i.reservedField.2) (i.withOperandsOf w) := by
  have hop : field w 0 8 = i.opcode.toNat := congrArg BitVec.toNat h
  unfold decode
  rw [hop]
  cases i
  case sample | matchCell => exact (if_pos (Nat.lt_one_iff.1 (field_lt w 8 0))).symm
  all_goals rfl

/-- A word that spells a command holds its opcode (R152). -/
theorem opcode_of_decode {w : Word} {i : Instr} (h : decode w = .ok i) : w.extractLsb' 0 8 = i.opcode := by
  unfold decode at h
  split at h
  case h_12 hop | h_13 hop =>
    cases h
    exact BitVec.eq_of_toNat_eq hop
  case h_20 => cases h
  all_goals
    rename_i hop
    obtain ⟨-, rfl⟩ := ifZero_eq_ok.1 h
    exact BitVec.eq_of_toNat_eq hop

/-- A word spells a command exactly when it holds its opcode, no reserved-zero bit of its format and its operands
(R160). -/
theorem decode_eq_ok_iff {w : Word} {i : Instr} :
    decode w = .ok i ↔ w.extractLsb' 0 8 = i.opcode ∧ w &&& i.reservedMask = 0 ∧ i.withOperandsOf w = i := by
  constructor
  · intro h
    have hop := opcode_of_decode h
    rw [decode_of_opcode hop, ifZero_eq_ok, reservedField_eq_zero_iff] at h
    exact ⟨hop, h⟩
  · rintro ⟨hop, h⟩
    rwa [decode_of_opcode hop, ifZero_eq_ok, reservedField_eq_zero_iff]

/-! ### The encoder -/

/-- The operands of a command as one number, in bits 31:8 of its word (R153 to R158). -/
def Instr.operandNumber : Instr → Nat
  | .sample x y | .matchCell x y => x + 2 ^ 12 * y
  | .cellAddr row subrow => row + 2 ^ 5 * subrow
  | .gtWrite bank index | .gtInval bank index => bank.toNat + 2 ^ 8 * index
  | .gtClear bank | .gtLookup bank => bank.toNat
  | .gtReverse bank code => code + 2 ^ 8 * bank.toNat
  | _ => 0

theorem Bank.toNat_lt (b : Bank) : b.toNat < 2 := by cases b <;> decide

theorem Bank.ofBit_eq {n : Nat} {b : Bank} (h : n = b.toNat) : Bank.ofBit n = b := by
  subst h
  cases b <;> rfl

/-- The number of a bank fits its one-bit field. -/
theorem Bank.toNat_mod (b : Bank) : b.toNat % 2 ^ 1 = b.toNat := by cases b <;> rfl

/-- Concatenation as a sum: the second part below the first. -/
theorem toNat_append_add {m n : Nat} (x : BitVec m) (y : BitVec n) : (x ++ y).toNat = x.toNat * 2 ^ n + y.toNat := by
  rw [BitVec.toNat_append, ← Nat.shiftLeft_add_eq_or_of_lt y.isLt, Nat.shiftLeft_eq]

theorem encode_opcode (i : Instr) : (encode i).extractLsb' 0 8 = i.opcode := by
  cases i <;> exact low_byte_append _ _

theorem encode_reservedZero : ∀ i : Instr, encode i &&& i.reservedMask = 0
  | .cellAddr row subrow => Laws.ReservedZero.cellAddr row subrow
  | .gtWrite bank index => Laws.ReservedZero.gtWrite bank index
  | .gtInval bank index => Laws.ReservedZero.gtInval bank index
  | .gtClear bank => Laws.ReservedZero.gtClear bank
  | .gtLookup bank => Laws.ReservedZero.gtLookup bank
  | .gtReverse bank code => Laws.ReservedZero.gtReverse bank code
  | .sample _ _ | .matchCell _ _ => BitVec.and_zero
  | .nop | .calibrate | .binarize | .matchAll | .layoutEnc | .layoutDec | .charsToCells | .paint | .encode
  | .decodeDf | .decodeRaw => rfl

/-- The word of a well-formed command is the sum of its opcode and its operands (R165). -/
theorem toNat_encode {i : Instr} (h : i.wellFormed = true) :
    (encode i).toNat = i.opcode.toNat + 2 ^ 8 * i.operandNumber := by
  cases i
  case sample | matchCell | cellAddr | gtWrite | gtInval | gtReverse =>
    simp only [Instr.wellFormed, Bool.and_eq_true, decide_eq_true_iff] at h
    simp only [encode, toNat_append_add, BitVec.toNat_ofNat, Bank.toNat_mod, Instr.operandNumber]
    omega
  case gtClear bank | gtLookup bank => cases bank <;> rfl
  all_goals rfl

/-- A field above the opcode of a command's word is a field of its operand number. -/
theorem field_encode {i : Instr} (h : i.wellFormed = true) {lo : Nat} (hlo : 8 ≤ lo) (len : Nat) :
    field (encode i) lo len = i.operandNumber / 2 ^ (lo - 8) % 2 ^ len := by
  obtain ⟨k, rfl⟩ := Nat.exists_eq_add_of_le hlo
  rw [field_eq, toNat_encode h, Nat.pow_add, ← Nat.div_div_eq_div_mul, Nat.add_mul_div_left _ _ (by decide),
    Nat.div_eq_of_lt i.opcode.isLt, Nat.zero_add, Nat.add_sub_cancel_left]

/-- The operands read back from the word of a well-formed command are its own. -/
theorem withOperandsOf_encode {i : Instr} (h : i.wellFormed = true) : i.withOperandsOf (encode i) = i := by
  have hfield {lo : Nat} := field_encode h (lo := lo)
  cases i
  case sample | matchCell | cellAddr =>
    simp only [Instr.wellFormed, Bool.and_eq_true, decide_eq_true_iff] at h
    simp (disch := decide) only [Instr.withOperandsOf, hfield, Instr.operandNumber]
    congr 1 <;> omega
  case gtWrite bank _ | gtInval bank _ | gtReverse bank _ =>
    simp only [Instr.wellFormed, decide_eq_true_iff] at h
    have hb := bank.toNat_lt
    simp (disch := decide) only [Instr.withOperandsOf, hfield, Instr.operandNumber]
    rw [Bank.ofBit_eq (b := bank) (by omega)]
    congr 1
    omega
  case gtClear bank | gtLookup bank => cases bank <;> rfl
  all_goals rfl

/-- Operands read from a word fit their fields (R159). -/
theorem withOperandsOf_wellFormed (w : Word) : ∀ i : Instr, (i.withOperandsOf w).wellFormed = true
  | .sample _ _ | .matchCell _ _ =>
    Bool.and_eq_true_iff.2 ⟨decide_eq_true (field_lt w 8 12), decide_eq_true (field_lt w 20 12)⟩
  | .cellAddr _ _ => Bool.and_eq_true_iff.2 ⟨decide_eq_true (field_lt w 8 5), decide_eq_true (field_lt w 13 3)⟩
  | .gtWrite _ _ | .gtInval _ _ => decide_eq_true (field_lt w 16 16)
  | .gtReverse _ _ => decide_eq_true (field_lt w 8 8)
  | .gtClear _ | .gtLookup _ => rfl
  | .nop | .calibrate | .binarize | .matchAll | .layoutEnc | .layoutDec | .charsToCells | .paint | .encode
  | .decodeDf | .decodeRaw => rfl

/-- The operands read from a word without a reserved bit are all of its bits 31:8. -/
theorem operandNumber_withOperandsOf {w : Word} {i : Instr} (h : w &&& i.reservedMask = 0) :
    (i.withOperandsOf w).operandNumber = w.toNat / 2 ^ 8 := by
  have hw := w.isLt
  have hzero := (reservedField_eq_zero_iff w i).2 h
  have hbit (n : Nat) : (Bank.ofBit (n % 2 ^ 1)).toNat = n % 2 ^ 1 := Machine.toNat_ofBit (Nat.mod_lt n Nat.two_pos)
  rw [field_eq] at hzero
  cases i
  all_goals
    simp only [Instr.reservedField, Instr.withOperandsOf, Instr.operandNumber, field_eq, hbit] at hzero ⊢
    omega

/-! ### One word for each command -/

/-- Settles O1: the word holds the command's opcode, no reserved bit and its operands. -/
theorem decodeOfEncode : Obligations.DecodeOfEncode := fun i h =>
  decode_eq_ok_iff.2 ⟨encode_opcode i, encode_reservedZero i, withOperandsOf_encode h⟩

/-- Settles O2: the operands read from the word fit their fields, and opcode and operands are all of it. -/
theorem encodeOfDecode : Obligations.EncodeOfDecode := by
  intro w i h
  obtain ⟨hop, hres, hi⟩ := decode_eq_ok_iff.1 h
  have hwf : i.wellFormed = true := hi ▸ withOperandsOf_wellFormed w i
  have hargs := operandNumber_withOperandsOf hres
  have hlow : field w 0 8 = i.opcode.toNat := congrArg BitVec.toNat hop
  rw [hi] at hargs
  rw [field_eq] at hlow
  refine ⟨hwf, BitVec.eq_of_toNat_eq ?_⟩
  rw [toNat_encode hwf]
  omega

/-- Settles O5: each word is the one its command encodes to. -/
theorem writtenOutWordsDecode : Obligations.WrittenOutWordsDecode :=
  ⟨decodeOfEncode .encode rfl, decodeOfEncode (.sample 3 2) rfl, decodeOfEncode (.matchCell 248 184) rfl,
    decodeOfEncode (.cellAddr 9 3) rfl, decodeOfEncode (.gtWrite .modelA 5) rfl,
    decodeOfEncode (.gtInval .modelB 3) rfl, decodeOfEncode (.gtClear .modelB) rfl, decodeOfEncode (.gtReverse .modelB 0x80) rfl⟩

end Sys2Proof
end

section
/-! The issue of a command (spec/30_encoding.md R150, R151): acceptance and overrun of a CMD write, and words that spell
no command (R161, R162). -/

namespace Sys2Proof.Machine

/-! ### Words that spell no command -/

/-- An issued word that spells no command completes with ILLEGAL_COMMAND and no other effect (R401). -/
theorem issue_illegal {s : State} {w : Word} (hs : s.ready) (h : ∀ i, decode w ≠ .ok i) :
    s.issue w =
      .next { s with cmd := w, errCause := 0x01, busy := false, intDone := true, intErr := true, seqStep := 0 } := by
  obtain ⟨-, he⟩ := hs
  have hturn : step (s.accept w) = .next ((s.accept w).complete 0x01) :=
    (step_no_event (s := s.accept w) he).trans (engineTurn_illegal (s := s.accept w) rfl h)
  rw [State.issue, core_run_succ 2 hturn, core_run_idle (s := (s.accept w).complete 0x01) he rfl 2]
  exact congrArg Host.Outcome.next (complete_error (s.accept w) .illegalCommand)

/-- Every opcode of R160 lies outside the ranges of R161. -/
theorem opcode_defined (i : Instr) :
    i.opcode.toNat ≤ 0x0A ∨ (0x10 ≤ i.opcode.toNat ∧ i.opcode.toNat ≤ 0x12) ∨
      (0x20 ≤ i.opcode.toNat ∧ i.opcode.toNat ≤ 0x24) := by
  cases i <;> simp [Instr.opcode]

/-- Settles O3: the opcode of every command lies outside the reserved ranges. -/
theorem reservedOpcodeIsIllegal : Obligations.ReservedOpcodeIsIllegal := by
  intro w s hs hop
  have hd : ∀ i, decode w ≠ .ok i := by
    intro i h
    have := opcode_defined i
    rw [opcode_of_decode h] at hop
    omega
  exact ⟨hd, issue_illegal hs hd⟩

/-- Settles O4: the opcode fixes the mnemonic, and the reserved field of its format is not zero. -/
theorem reservedBitIsIllegal : Obligations.ReservedBitIsIllegal := by
  intro w i s hs hop hres
  have hd : ∀ j, decode w ≠ .ok j := by
    intro j
    rw [ne_eq, decode_of_opcode hop, ifZero_eq_ok, reservedField_eq_zero_iff]
    exact fun h => hres h.1
  exact ⟨hd, issue_illegal hs hd⟩

/-! ### Writes of CMD -/

/-- The step of a host write to CMD. -/
theorem step_write_cmd {s : State} {w : Word} {rest : List Event}
    (he : s.events = .access (.write 0x010 .word w) :: rest) :
    step s = .next (({ s with events := rest }.writeReg .cmd w).respond .writeOkay) :=
  step_write_register he (by decide) (by decide) rfl

theorem writeReg_cmd_idle {s : State} (hb : s.busy = false) (w : Word) : s.writeReg .cmd w = s.accept w :=
  if_neg (by simp [hb])

theorem writeReg_cmd_busy {s : State} (hb : s.busy = true) (w : Word) :
    s.writeReg .cmd w = { s with cmdOverrun := true } :=
  if_pos hb

/-- Settles O7: an IDLE write of CMD is accepted. -/
theorem cmdWriteIsAccepted : Obligations.CmdWriteIsAccepted := by
  intro s w rest hb he
  rw [step_write_cmd he, writeReg_cmd_idle (s := { s with events := rest }) hb]
  rfl

/-- Settles O8: a BUSY write of CMD sets CMD_OVERRUN alone. -/
theorem cmdWriteWhileBusyOverruns : Obligations.CmdWriteWhileBusyOverruns := by
  intro s w rest hb he
  rw [step_write_cmd he, writeReg_cmd_busy (s := { s with events := rest }) hb]
  rfl

end Sys2Proof.Machine
end

section
/-! The glyph lookup commands (spec/40_glyph_table.md R200 to R205): a write of a bank replaces that bank and its count
alone, and a lookup answers in the query registers alone. -/

namespace Sys2Proof.Machine

/-! ### The completion of a bank's write -/

@[simp] theorem complete_bank (s : State) (e : Byte) (b : Bank) : (s.complete e).bank b = s.bank b :=
  bank_congr rfl rfl b

@[simp] theorem complete_countOf (s : State) (e : Byte) (b : Bank) : (s.complete e).countOf b = s.countOf b :=
  countOf_congr rfl rfl b

/-- A primitive that succeeds ends in the completion of its effect. -/
theorem next_settle_complete {s u : State} {p : State → Effect} (h : p s = .ok u) :
    (Host.Outcome.next (s.settle (p s)) : Host.Outcome State Fault Refusal) = .next (u.complete 0) := by
  rw [h, settle_ok]

/-- A completed replacement of a bank changes the banks, their counts and the completion's fields alone. -/
theorem complete_setBank_eq (s : State) (b : Bank) (g : GlyphBank) :
    (s.setBank b g).complete 0 =
      { s with
        gtA := ((s.setBank b g).complete 0).gtA
        gtB := ((s.setBank b g).complete 0).gtB
        gtCountA := ((s.setBank b g).complete 0).gtCountA
        gtCountB := ((s.setBank b g).complete 0).gtCountB
        errCause := 0
        busy := false
        intDone := true
        seqStep := 0 } := by
  rw [complete_zero]
  cases b <;> rfl

theorem complete_setBank_other (s : State) (b : Bank) (g : GlyphBank) :
    ∀ c, c ≠ b →
      ((s.setBank b g).complete 0).bank c = s.bank c ∧ ((s.setBank b g).complete 0).countOf c = s.countOf c := by
  intro c hc
  rw [complete_bank, complete_countOf]
  exact ⟨setBank_bank_other s g hc, setBank_countOf_other s g hc⟩

/-- The count register of a well-formed replaced bank (R81). -/
theorem complete_setBank_count {s : State} {b : Bank} {g : GlyphBank} (hp : s.params.Ok)
    (hg : BankOk s.params.gtEntries g) :
    (((s.setBank b g).complete 0).countOf b).toNat = validCount (((s.setBank b g).complete 0).bank b) := by
  rw [complete_countOf, complete_bank, setBank_bank, setBank_countOf, toNat_validCount hp.2.1 hg]

/-! ### The writes of a bank -/

/-- The bank that GT_WRITE leaves: the staged pattern and code at the index (R200). -/
def State.writtenBank (s : State) (b : Bank) (index : Nat) : GlyphBank :=
  cellsPut (s.bank b) index ⟨true, s.stagedPattern, s.gtCode⟩

/-- GT_WRITE when all its checks pass. -/
theorem exec_gtWrite {s : State} {b : Bank} {index : Nat} (hl : s.gtLock = false) (hi : index < s.params.gtEntries)
    (hd : holdsElsewhere (s.bank b) index s.stagedPattern = false) :
    exec (.gtWrite b index) s = .next ((s.setBank b (s.writtenBank b index)).complete 0) := by
  have h : gtWrite b index s = .ok (s.setBank b (s.writtenBank b index)) := by
    simp only [gtWrite, State.writtenBank, hl, hd, Nat.not_le.2 hi, Bool.false_eq_true, if_false]
  exact next_settle_complete h

/-- GT_INVAL when its checks pass. -/
theorem exec_gtInval {s : State} {b : Bank} {index : Nat} (hl : s.gtLock = false) (hi : index < s.params.gtEntries) :
    exec (.gtInval b index) s = .next ((s.setBank b (invalidateAt (s.bank b) index)).complete 0) := by
  have h : gtInval b index s = .ok (s.setBank b (invalidateAt (s.bank b) index)) := by
    simp only [gtInval, hl, Nat.not_le.2 hi, Bool.false_eq_true, if_false]
  exact next_settle_complete h

/-- GT_CLEAR of an unlocked bank. -/
theorem exec_gtClear {s : State} {b : Bank} (hl : s.gtLock = false) :
    exec (.gtClear b) s = .next ((s.setBank b (invalidateAll (s.bank b))).complete 0) := by
  have h : gtClear b s = .ok (s.setBank b (invalidateAll (s.bank b))) := by
    simp only [gtClear, hl, Bool.false_eq_true, if_false]
  exact next_settle_complete h

theorem lookup_writtenBank (s : State) (b : Bank) (index j : Nat) :
    (s.writtenBank b index).lookup j =
      if j = index then some ⟨true, s.stagedPattern, s.gtCode⟩ else (s.bank b).lookup j :=
  lookup_cellsPut _ _ _ _

theorem bankOk_writtenBank {s : State} {b : Bank} {index : Nat} (hb : s.BanksOk) (hi : index < s.params.gtEntries)
    (hd : holdsElsewhere (s.bank b) index s.stagedPattern = false) :
    BankOk s.params.gtEntries (s.writtenBank b index) :=
  bankOk_cellsPut (hb b) hi hd

/-- Settles O21: the written bank is well formed, so its count fits the register. -/
theorem gtWriteStoresEntry : Obligations.GtWriteStoresEntry := by
  intro s b index hp hb hl hi hd
  have hd := holdsElsewhere_eq_false.2 hd
  refine ⟨_, exec_gtWrite hl hi hd, complete_setBank_eq _ _ _, ?_, fun j hj => ?_,
    complete_setBank_count hp (bankOk_writtenBank hb hi hd), complete_setBank_other _ _ _⟩
  · rw [complete_bank, setBank_bank, lookup_writtenBank, if_pos rfl]
    rfl
  · rw [complete_bank, setBank_bank, lookup_writtenBank, if_neg hj]

/-- Settles O22: both commands replace the bank by its invalidated entries, and GT_CLEAR leaves none to count. -/
theorem gtInvalAndClearInvalidate : Obligations.GtInvalAndClearInvalidate := by
  intro s b index hp hb hl
  constructor
  · intro hi
    refine ⟨_, exec_gtInval hl hi, complete_setBank_eq _ _ _, fun e he => ?_, fun j hj => ?_,
      complete_setBank_count hp (bankOk_invalidateAt (hb b) index), complete_setBank_other _ _ _⟩
    · rw [complete_bank, setBank_bank, lookup_invalidateAt, if_pos rfl] at he
      obtain ⟨f, -, rfl⟩ := Option.map_eq_some_iff.1 he
      rfl
    · rw [complete_bank, setBank_bank, lookup_invalidateAt, if_neg hj]
  · refine ⟨_, exec_gtClear hl, complete_setBank_eq _ _ _, fun e he => ?_, ?_, complete_setBank_other _ _ _⟩
    · rw [complete_bank, setBank_bank] at he
      exact (mem_invalidateAll he).1
    · rw [complete_countOf, setBank_countOf, validCount_invalidateAll]
      rfl

/-! ### The lookup commands -/

theorem gtLookup_hit {s : State} {b : Bank} {c : Byte} (h : lookupPattern (s.bank b) s.stagedPattern = some c) :
    gtLookup b s = .ok { s with result := BitVec.ofNat 32 (0x100 + c.toNat) } := by
  rw [← foundResult_eq, gtLookup, h]

theorem gtLookup_miss {s : State} {b : Bank} (h : lookupPattern (s.bank b) s.stagedPattern = none) :
    gtLookup b s = .ok { s with result := 0 } := by
  rw [gtLookup, h]

theorem gtReverse_hit {s : State} {b : Bank} {code : Nat} {p : Pattern}
    (h : lookupCode (s.bank b) (BitVec.ofNat 8 code) = some p) :
    gtReverse b code s =
      .ok { s with
        result := foundResult (BitVec.ofNat 8 code)
        resultPatHi := p.extractLsb' 32 32
        resultPatLo := p.extractLsb' 0 32 } := by
  rw [gtReverse, h]

theorem gtReverse_miss {s : State} {b : Bank} {code : Nat}
    (h : lookupCode (s.bank b) (BitVec.ofNat 8 code) = none) :
    gtReverse b code s =
      .ok { s with result := (BitVec.ofNat 8 code).setWidth 32, resultPatHi := 0, resultPatLo := 0 } := by
  rw [gtReverse, h]

/-- The number in RESULT for a found code (R203, R204). -/
theorem toNat_foundResult (c : Byte) : (foundResult c).toNat = 0x100 + c.toNat := by
  have := c.isLt
  rw [foundResult_eq, BitVec.toNat_ofNat]
  omega

/-- RESULT_PAT's two halves make the pattern (R54). -/
theorem patternHalves_append (p : Pattern) : p.extractLsb' 32 32 ++ p.extractLsb' 0 32 = p := by
  rw [BitVec.extractLsb'_append_extractLsb'_eq_extractLsb' (by rfl)]
  exact BitVec.extractLsb'_eq_self

/-- Settles O25: each lookup has a hit and a miss, and writes the query registers in both. -/
theorem lookupCommandResults : Obligations.LookupCommandResults := by
  intro s b code hcode
  have hnum : (BitVec.ofNat 8 code).toNat = code := Nat.mod_eq_of_lt hcode
  constructor
  · cases h : lookupPattern (s.bank b) (s.gtPatHi ++ s.gtPatLo) with
    | some c => exact next_settle_ok (gtLookup_hit h)
    | none => exact next_settle_ok (gtLookup_miss h)
  · cases h : lookupCode (s.bank b) (BitVec.ofNat 8 code) with
    | some p =>
      refine ⟨_, next_settle_ok (gtReverse_hit h), rfl, ?_, patternHalves_append p⟩
      exact (toNat_foundResult _).trans (by rw [hnum])
    | none =>
      refine ⟨_, next_settle_ok (gtReverse_miss h), rfl, ?_, rfl, rfl⟩
      exact (BitVec.toNat_setWidth_of_le (by decide)).trans hnum

/-! ### The two lookups together -/

/-- In a well-formed bank the pattern found for a code is found as that code (R205). -/
theorem lookupPattern_of_lookupCode {n : Nat} {g : GlyphBank} {c : Byte} {p : Pattern} (hg : BankOk n g)
    (h : lookupCode g c = some p) : lookupPattern g p = some c :=
  (forwardLookupFindsTheEntry n g p c hg).2 (lookupCode_some h)

/-- Settles O26: the written entry is a hit of both lookups in a bank that is still well formed. -/
theorem reverseThenForwardReturnsTheCode : Obligations.ReverseThenForwardReturnsTheCode := by
  intro s b index hb hl hi hd
  have hd := holdsElsewhere_eq_false.2 hd
  have hg := bankOk_writtenBank hb hi hd
  have hmem : (index, ⟨true, s.stagedPattern, s.gtCode⟩) ∈ s.writtenBank b index :=
    (mem_cellsPut_iff (hb b).sorted).2 (.inl rfl)
  refine ⟨_, exec_gtWrite hl hi hd, ?_⟩
  rw [complete_bank, setBank_bank]
  refine ⟨(forwardLookupFindsTheEntry _ _ _ _ hg).2 ⟨_, hmem, rfl, rfl, rfl⟩, ?_⟩
  obtain ⟨p, hp⟩ : ∃ p, lookupCode (s.writtenBank b index) s.gtCode = some p :=
    Option.ne_none_iff_exists'.1 fun hn => lookupCode_none.1 hn _ hmem rfl rfl
  exact ⟨p, hp, lookupPattern_of_lookupCode hg hp⟩

end Sys2Proof.Machine
end

section
/-! The display layout (spec/41_display_layout.md R230 to R238): the address function and its inverse, and what
CELL_ADDR, LAYOUT_ENC and LAYOUT_DEC leave. -/

namespace Sys2Proof.Machine

/-! ### The address function -/

theorem cellAddress_add_lt {line subrow col : Nat} (hl : line < 24) (hr : subrow < 8) (hc : col < 32) :
    cellAddress line subrow + col < 6144 := by
  rw [cellAddress_eq _ _ (by omega)]
  omega

/-- A character-plane byte's cell row, pixel row and column are in range. -/
theorem planeCell_lt {a : Nat} (h : a < 6144) :
    (planeCell a).1 < 24 ∧ (planeCell a).2.1 < 8 ∧ (planeCell a).2.2 < 32 := by
  simp only [planeCell]
  omega

/-- `planeCell` names the one place of each character-plane byte (R232). -/
theorem cellAddress_planeCell {a : Nat} (h : a < 6144) :
    cellAddress (planeCell a).1 (planeCell a).2.1 + (planeCell a).2.2 = a := by
  have hl := (planeCell_lt h).1
  rw [cellAddress_eq _ _ (by omega)]
  simp only [planeCell]
  omega

/-- Settles O44: both forms are the address function in plain arithmetic. -/
theorem cellAddressForms : Obligations.CellAddressForms := by
  intro line subrow hl hr
  have h := cellAddress_eq line subrow (by omega)
  refine ⟨h, BitVec.eq_of_toNat_eq ?_⟩
  simp only [h, toNat_append_add, BitVec.extractLsb'_toNat, BitVec.toNat_ofNat, Nat.shiftRight_eq_div_pow]
  omega

/-- Settles O45: the address function and `planeCell` are inverse to each other. -/
theorem cellAddressTilesThePlane : Obligations.CellAddressTilesThePlane := by
  intro a ha
  obtain ⟨hl, hr, hc⟩ := planeCell_lt ha
  refine ⟨_, _, _, ⟨hl, hr, hc, cellAddress_planeCell ha⟩, fun l r c hl' hr' hc' h => ?_⟩
  rw [← h, planeCell_cellAddress l r c hl' hr' hc']
  exact ⟨rfl, rfl, rfl⟩

/-! ### CELL_ADDR -/

/-- Settles O19: the check passes or fails, and the address is the plain arithmetic of R231. -/
theorem cellAddrResult : Obligations.CellAddrResult := by
  intro s row subrow _
  constructor
  · intro hrow
    rw [← cellAddress_eq row subrow (by omega)]
    exact next_settle_ok (p := cellAddr row subrow) (if_neg (Nat.not_le.2 hrow))
  · intro hrow
    exact next_settle_error (p := cellAddr row subrow) (if_pos hrow)

/-! ### LAYOUT_ENC and LAYOUT_DEC -/

/-- The character plane of the assembled image holds the cells' row bytes (R235). -/
theorem imageByte_cellAddress (s : State) {line r col : Nat} (hl : line < 24) (hr : r < 8) (hc : col < 32) :
    s.imageByte (cellAddress line r + col) = rowByte (s.cellPat (line * 32 + col)) r := by
  rw [State.imageByte, if_pos (cellAddress_add_lt hl hr hc), planeCell_cellAddress line r col hl hr hc]

/-- Past the character plane the assembled image holds ATTR_FILL (R235). -/
theorem imageByte_attrFill (s : State) (j : Nat) : s.imageByte (6144 + j) = s.attrFill :=
  if_neg (by omega)

/-- The display file that LAYOUT_ENC leaves is the assembled image. -/
theorem dfByte_fill_imageByte (s : State) {a : Nat} (h : a < 6912) :
    (s.fillBytes dfBase 6912 s.imageByte).dfByte a = s.imageByte a :=
  byteAt_fillBytes_inside _ _ _ _ _ h

/-- The row bytes of a plane pattern are the cell's bytes of the display file (R236). -/
theorem rowByte_planePattern (s : State) {line r col : Nat} (hr : r < 8) (hc : col < 32) :
    rowByte (s.planePattern (line * 32 + col)) r = s.dfByte (cellAddress line r + col) := by
  rw [State.planePattern, rowByte_packRows _ r hr, show (line * 32 + col) / 32 = line by omega,
    show (line * 32 + col) % 32 = col by omega]

theorem layoutDec_eq {s : State} (h : s.inLen = 6912) : layoutDec s = .ok (s.writeCells s.planePattern) :=
  if_neg (not_not.2 h)

/-- Settles O33: the filled display file is the assembled image, and no other byte changes. -/
theorem layoutEncResult : Obligations.LayoutEncResult := by
  intro s
  refine ⟨_, next_settle_ok (p := layoutEnc) rfl, rfl, fun line r col hl hr hc => ?_, fun j hj => ?_, fun a ha => ?_⟩
  · rw [← rowByte_cellPat s _ r hr, ← imageByte_cellAddress s hl hr hc]
    exact dfByte_fill_imageByte s ((cellAddress_add_lt hl hr hc).trans (by decide))
  · rw [← imageByte_attrFill s j]
    exact dfByte_fill_imageByte s (by omega)
  · exact byteAt_fillBytes_outside _ _ _ _ _ ha

/-- Settles O34: every cell is written with its plane pattern, or the length check fails. -/
theorem layoutDecResult : Obligations.LayoutDecResult := by
  intro s
  constructor
  · intro hlen
    refine ⟨_, next_settle_ok (layoutDec_eq hlen), rfl, fun line r col hl hr hc => ?_, fun a ha => ?_⟩
    · rw [← rowByte_planePattern s hr hc]
      exact byteAt_writeCells_inside s _ _ r (by omega) hr
    · exact byteAt_writeCells_outside s _ a ha
  · intro hlen
    exact next_settle_error (p := layoutDec) (if_pos hlen)

/-! ### The two are inverse to each other -/

/-- From the image assembled from the cells, LAYOUT_DEC takes the cells. -/
theorem planePattern_fill_imageByte (s : State) {i : Nat} (hi : i < 768) :
    (s.fillBytes dfBase 6912 s.imageByte).planePattern i = s.cellPat i := by
  have row : ∀ r < 8, (s.fillBytes dfBase 6912 s.imageByte).dfByte (cellAddress (i / 32) r + i % 32) =
      rowByte (s.cellPat i) r := fun r hr => by
    have hl : i / 32 < 24 := by omega
    have hc : i % 32 < 32 := by omega
    rw [dfByte_fill_imageByte s ((cellAddress_add_lt hl hr hc).trans (by decide)), imageByte_cellAddress s hl hr hc,
      Nat.div_add_mod' i 32]
  rw [State.planePattern, packRows_congr row, packRows_rowByte]

/-- From the cells taken from the character plane, LAYOUT_ENC assembles that plane. -/
theorem imageByte_writeCells_planePattern (s : State) {a : Nat} (ha : a < 6144) :
    (s.writeCells s.planePattern).imageByte a = s.dfByte a := by
  obtain ⟨hl, hr, hc⟩ := planeCell_lt ha
  conv_lhs => rw [← cellAddress_planeCell ha]
  rw [imageByte_cellAddress _ hl hr hc, cellPat_writeCells _ _ _ (by omega), rowByte_planePattern s hr hc,
    cellAddress_planeCell ha]

/-- Settles O46: cell by cell one way round, byte by byte the other. -/
theorem layoutInverseLaws : Obligations.LayoutInverseLaws := by
  intro s hlen
  constructor
  · refine ⟨_, _, next_settle_complete (p := layoutEnc) rfl, next_settle_complete (layoutDec_eq hlen), fun i hi => ?_⟩
    rw [cellPat_complete, cellPat_writeCells _ _ i hi]
    exact planePattern_fill_imageByte s hi
  · refine ⟨_, _, next_settle_complete (layoutDec_eq hlen), next_settle_complete (p := layoutEnc) rfl,
      fun a ha => ?_, fun j hj => ?_⟩
    · rw [← imageByte_writeCells_planePattern s ha]
      exact dfByte_fill_imageByte ((s.writeCells s.planePattern).complete 0) (by omega)
    · rw [show s.attrFill = ((s.writeCells s.planePattern).complete 0).attrFill from rfl, ← imageByte_attrFill _ j]
      exact dfByte_fill_imageByte _ (by omega)

end Sys2Proof.Machine
end

section
/-! The bytes no command reads (spec/41_display_layout.md R238; spec/43_binarizer.md R291): on two states that agree but
for them, everything a command reads is the same, so every primitive and every sequence ends in two such states. -/

namespace Sys2Proof.Machine

/-! ### What two agreeing states have in common -/

section
variable {s u : State}

/-- Two agreeing states differ in their memories alone, so every register of the second is the first's. -/
theorem AgreeOffUnread.exists_mem (h : AgreeOffUnread s u) : ∃ m, u = { s with mem := m } :=
  ⟨u.mem, (congrArg (fun t : State => { t with mem := u.mem }) h.registers).symm⟩

theorem AgreeOffUnread.cellPat (h : AgreeOffUnread s u) {i : Nat} (hi : i < 768) : s.cellPat i = u.cellPat i := by
  have hb := bases
  exact packRows_congr fun r hr => h.bytes _ (by unfold unreadByte inRange; omega)

theorem AgreeOffUnread.rawCode (h : AgreeOffUnread s u) {i : Nat} (hi : i < 768) : s.rawCode i = u.rawCode i := by
  have hb := bases
  exact h.bytes _ (by unfold unreadByte inRange; omega)

theorem AgreeOffUnread.dfByte (h : AgreeOffUnread s u) {a : Nat} (ha : a < 6144) : s.dfByte a = u.dfByte a := by
  have hb := bases
  exact h.bytes _ (by unfold unreadByte inRange; omega)

/-- No pixel's bit depends on an alpha byte (R291). -/
theorem AgreeOffUnread.inkAt (h : AgreeOffUnread s u) : s.inkAt = u.inkAt := by
  have hb := bases
  obtain ⟨m, rfl⟩ := h.exists_mem
  funext x y
  exact inkAt_congr (fun a ha halpha => h.bytes a (by unfold unreadByte inRange; omega)) rfl x y

theorem AgreeOffUnread.extract (h : AgreeOffUnread s u) : s.extract = u.extract := by
  unfold State.extract
  rw [h.inkAt]

theorem AgreeOffUnread.pePattern (h : AgreeOffUnread s u) : s.pePattern = u.pePattern := by
  have he := h.extract
  obtain ⟨m, rfl⟩ := h.exists_mem
  funext i
  exact congrFun (congrFun he _) _

theorem AgreeOffUnread.peResolve (h : AgreeOffUnread s u) : s.peResolve = u.peResolve := by
  have hp := h.pePattern
  obtain ⟨m, rfl⟩ := h.exists_mem
  funext i
  exact congrArg (resolve (s.bank s.modelSel)) (congrFun hp i)

/-- What CHARS_TO_CELLS finds for a cell's code. -/
theorem AgreeOffUnread.lookupCode_rawCode (h : AgreeOffUnread s u) {i : Nat} (hi : i < 768) :
    lookupCode (s.bank s.modelSel) (s.rawCode i) = lookupCode (u.bank u.modelSel) (u.rawCode i) := by
  have hr := h.rawCode hi
  obtain ⟨m, rfl⟩ := h.exists_mem
  exact congrArg (lookupCode (s.bank s.modelSel)) hr

theorem AgreeOffUnread.charPattern (h : AgreeOffUnread s u) {i : Nat} (hi : i < 768) :
    s.charPattern i = u.charPattern i := by
  rw [State.charPattern, h.lookupCode_rawCode hi, State.charPattern]

theorem AgreeOffUnread.charMisses (h : AgreeOffUnread s u) : s.charMisses = u.charMisses :=
  List.countP_congr fun i hi => by rw [h.lookupCode_rawCode (List.mem_range.1 hi)]

/-- LAYOUT_DEC reads the character plane alone (R238). -/
theorem AgreeOffUnread.planePattern (h : AgreeOffUnread s u) {i : Nat} (hi : i < 768) :
    s.planePattern i = u.planePattern i :=
  packRows_congr fun _ hr => h.dfByte (cellAddress_add_lt (by omega) hr (by omega))

theorem AgreeOffUnread.imageByte (h : AgreeOffUnread s u) (a : Nat) : s.imageByte a = u.imageByte a := by
  unfold State.imageByte
  split
  · rename_i ha
    obtain ⟨hl, -, hc⟩ := planeCell_lt ha
    rw [h.cellPat (by omega)]
  · obtain ⟨m, rfl⟩ := h.exists_mem
    rfl

theorem AgreeOffUnread.paintByte (h : AgreeOffUnread s u) {k : Nat} (hk : k < 196608) :
    s.paintByte k = u.paintByte k := by
  simp only [State.paintByte, h.cellPat (i := k / 4 / 256 / 8 * 32 + k / 4 % 256 / 8) (by omega)]

/-- A byte of CLEAN keeps bits of itself alone. -/
theorem AgreeOffUnread.cleanByte (h : AgreeOffUnread s u) {k : Nat} (hk : ¬ unreadByte (cleanBase + k)) :
    s.cleanByte k = u.cleanByte k := by
  have hink := h.inkAt
  have hbyte := h.bytes _ hk
  obtain ⟨m, rfl⟩ := h.exists_mem
  simp only [State.cleanByte, hink, hbyte]

/-! ### Writes that keep the agreement -/

theorem AgreeOffUnread.complete (h : AgreeOffUnread s u) (e : Byte) : AgreeOffUnread (s.complete e) (u.complete e) := by
  obtain ⟨m, rfl⟩ := h.exists_mem
  exact ⟨rfl, h.bytes⟩

/-- Fills may differ in bytes no command reads. -/
theorem AgreeOffUnread.fillBytes (h : AgreeOffUnread s u) {lo n : Nat} {f g : Nat → Byte}
    (hf : ∀ k < n, ¬ unreadByte (lo + k) → f k = g k) :
    AgreeOffUnread (s.fillBytes lo n f) (u.fillBytes lo n g) where
  registers := h.registers
  bytes a ha := by
    rw [byteAt_fillBytes, byteAt_fillBytes]
    split
    · exact hf _ (by omega) (by rwa [show lo + (a - lo) = a by omega])
    · exact h.bytes a ha

theorem AgreeOffUnread.writeCells (h : AgreeOffUnread s u) {f g : Nat → Pattern} (hf : ∀ i < 768, f i = g i) :
    AgreeOffUnread (s.writeCells f) (u.writeCells g) :=
  h.fillBytes fun k hk _ => by rw [hf _ (by omega)]

theorem AgreeOffUnread.setUnmatched (h : AgreeOffUnread s u) (n : Nat) :
    AgreeOffUnread (s.setUnmatched n) (u.setUnmatched n) := by
  obtain ⟨m, rfl⟩ := h.exists_mem
  exact ⟨rfl, h.bytes⟩

theorem AgreeOffUnread.setMissed (h : AgreeOffUnread s u) (n : Nat) :
    AgreeOffUnread (s.setMissed n) (u.setMissed n) := by
  obtain ⟨m, rfl⟩ := h.exists_mem
  exact ⟨rfl, h.bytes⟩

theorem AgreeOffUnread.setBank (h : AgreeOffUnread s u) (b : Bank) (g : GlyphBank) :
    AgreeOffUnread (s.setBank b g) (u.setBank b g) := by
  obtain ⟨m, rfl⟩ := h.exists_mem
  cases b <;> exact ⟨rfl, h.bytes⟩

theorem AgreeOffUnread.matchWrites (h : AgreeOffUnread s u) : AgreeOffUnread (matchWrites s) (matchWrites u) := by
  simp only [Machine.matchWrites, State.peUnmatched, h.pePattern, h.peResolve]
  exact (((h.writeCells fun _ _ => rfl).fillBytes fun _ _ _ => rfl).fillBytes fun _ _ _ => rfl).setUnmatched _

end

/-! ### Effects that agree -/

/-- Two effects that end in agreeing states, or in the same error. -/
inductive AgreeEffects : Effect → Effect → Prop
  | ok {t v : State} (h : AgreeOffUnread t v) : AgreeEffects (.ok t) (.ok v)
  | error (e : ErrorCode) : AgreeEffects (.error e) (.error e)

/-- A check that both states pass or both fail. -/
theorem AgreeEffects.ite {c d : Prop} [Decidable c] [Decidable d] {r r' q q' : Effect} (hcd : c ↔ d)
    (hr : AgreeEffects r r') (hq : AgreeEffects q q') :
    AgreeEffects (if c then r else q) (if d then r' else q') := by
  by_cases hc : c
  · rwa [if_pos hc, if_pos (hcd.1 hc)]
  · rwa [if_neg hc, if_neg (mt hcd.2 hc)]

/-- A primitive whose effect depends on no unread byte. -/
def IgnoresUnread (p : State → Effect) : Prop := ∀ s u, AgreeOffUnread s u → AgreeEffects (p s) (p u)

theorem AgreeEffects.settle {s u : State} {r q : Effect} (h : AgreeOffUnread s u) (hrq : AgreeEffects r q) :
    AgreeOffUnread (s.settle r) (u.settle q) := by
  cases hrq with
  | ok ht => exact ht.complete 0
  | error e => exact h.complete e.code

theorem AgreeEffects.advance {s u : State} {r q : Effect} (h : AgreeOffUnread s u) (hrq : AgreeEffects r q) :
    AgreeOffUnread (s.advance r) (u.advance q) := by
  obtain ⟨m, rfl⟩ := h.exists_mem
  cases hrq with
  | ok ht =>
    obtain ⟨n, rfl⟩ := ht.exists_mem
    exact ⟨rfl, ht.bytes⟩
  | error e => exact h.complete e.code

/-- A sequence of such primitives is on the same step in both states. -/
theorem AgreeOffUnread.runSequence {s u : State} {steps : List (State → Effect)} (h : AgreeOffUnread s u)
    (hs : ∀ p ∈ steps, IgnoresUnread p) : AgreeOffUnread (s.runSequence steps) (u.runSequence steps) := by
  have hstep : u.seqStep = s.seqStep := by
    obtain ⟨m, rfl⟩ := h.exists_mem
    rfl
  have hmem : ∀ p ∈ steps.drop s.seqStep, IgnoresUnread p := fun p hp => hs p (List.mem_of_mem_drop hp)
  unfold State.runSequence
  rw [hstep]
  generalize steps.drop s.seqStep = left at hmem ⊢
  rcases left with _ | ⟨p, _ | ⟨q, rest⟩⟩
  · exact h.complete 0
  · exact (hmem p (by simp) s u h).settle h
  · exact (hmem p (by simp) s u h).advance h

/-! ### Every primitive ignores the unread bytes -/

theorem calibrate_ignoresUnread : IgnoresUnread calibrate := by
  intro s u h
  obtain ⟨m, rfl⟩ := h.exists_mem
  exact .ok ⟨rfl, h.bytes⟩

theorem cellAddr_ignoresUnread (row subrow : Nat) : IgnoresUnread (cellAddr row subrow) := by
  intro s u h
  obtain ⟨m, rfl⟩ := h.exists_mem
  exact .ite Iff.rfl (.error _) (.ok ⟨rfl, h.bytes⟩)

theorem binarize_ignoresUnread : IgnoresUnread binarize := by
  intro s u h
  have hfill := fun n => h.fillBytes (n := n) fun _ _ hk => h.cleanByte hk
  obtain ⟨m, rfl⟩ := h.exists_mem
  exact .ite Iff.rfl (.error _) (.ok (hfill _))

theorem sample_ignoresUnread (x y : Nat) : IgnoresUnread (sample x y) := by
  intro s u h
  unfold sample
  rw [h.inkAt]
  obtain ⟨m, rfl⟩ := h.exists_mem
  exact .ite Iff.rfl (.error _) (.ite Iff.rfl (.error _) (.ok ⟨rfl, h.bytes⟩))

theorem matchCell_ignoresUnread (x y : Nat) : IgnoresUnread (matchCell x y) := by
  intro s u h
  unfold matchCell
  rw [h.extract]
  obtain ⟨m, rfl⟩ := h.exists_mem
  exact .ite Iff.rfl (.error _) (.ite Iff.rfl (.error _) (.ok ⟨rfl, h.bytes⟩))

theorem matchAll_ignoresUnread : IgnoresUnread matchAll := by
  intro s u h
  have hw := h.matchWrites
  obtain ⟨m, rfl⟩ := h.exists_mem
  exact .ite Iff.rfl (.error _) (.ite Iff.rfl (.error _) (.ite Iff.rfl (.error _) (.ok hw)))

theorem layoutEnc_ignoresUnread : IgnoresUnread layoutEnc :=
  fun _ _ h => .ok (h.fillBytes fun k _ _ => h.imageByte k)

theorem layoutDec_ignoresUnread : IgnoresUnread layoutDec := by
  intro s u h
  have hw := h.writeCells fun _ hi => h.planePattern hi
  obtain ⟨m, rfl⟩ := h.exists_mem
  exact .ite Iff.rfl (.error _) (.ok hw)

theorem charsToCells_ignoresUnread : IgnoresUnread charsToCells := by
  intro s u h
  have hw := (h.writeCells fun _ hi => h.charPattern hi).setMissed s.charMisses
  unfold charsToCells
  rw [← h.charMisses]
  obtain ⟨m, rfl⟩ := h.exists_mem
  exact .ite Iff.rfl (.error _) (.ok hw)

theorem paint_ignoresUnread : IgnoresUnread paint := by
  intro s u h
  have hfill := h.fillBytes (lo := srcBase) fun _ hk _ => h.paintByte hk
  obtain ⟨m, rfl⟩ := h.exists_mem
  exact .ok ⟨rfl, hfill.bytes⟩

theorem gtWrite_ignoresUnread (b : Bank) (index : Nat) : IgnoresUnread (gtWrite b index) := by
  intro s u h
  have hw := h.setBank b (s.writtenBank b index)
  obtain ⟨m, rfl⟩ := h.exists_mem
  exact .ite Iff.rfl (.error _) (.ite Iff.rfl (.error _) (.ite Iff.rfl (.error _) (.ok hw)))

theorem gtInval_ignoresUnread (b : Bank) (index : Nat) : IgnoresUnread (gtInval b index) := by
  intro s u h
  have hw := h.setBank b (invalidateAt (s.bank b) index)
  obtain ⟨m, rfl⟩ := h.exists_mem
  exact .ite Iff.rfl (.error _) (.ite Iff.rfl (.error _) (.ok hw))

theorem gtClear_ignoresUnread (b : Bank) : IgnoresUnread (gtClear b) := by
  intro s u h
  have hw := h.setBank b (invalidateAll (s.bank b))
  obtain ⟨m, rfl⟩ := h.exists_mem
  exact .ite Iff.rfl (.error _) (.ok hw)

theorem gtLookup_ignoresUnread (b : Bank) : IgnoresUnread (gtLookup b) := by
  intro s u h
  obtain ⟨m, rfl⟩ := h.exists_mem
  cases hl : lookupPattern (s.bank b) s.stagedPattern with
  | some c =>
    rw [gtLookup_hit hl, gtLookup_hit (s := { s with mem := m }) hl]
    exact .ok ⟨rfl, h.bytes⟩
  | none =>
    rw [gtLookup_miss hl, gtLookup_miss (s := { s with mem := m }) hl]
    exact .ok ⟨rfl, h.bytes⟩

theorem gtReverse_ignoresUnread (b : Bank) (code : Nat) : IgnoresUnread (gtReverse b code) := by
  intro s u h
  obtain ⟨m, rfl⟩ := h.exists_mem
  cases hl : lookupCode (s.bank b) (BitVec.ofNat 8 code) with
  | some p =>
    rw [gtReverse_hit hl, gtReverse_hit (s := { s with mem := m }) hl]
    exact .ok ⟨rfl, h.bytes⟩
  | none =>
    rw [gtReverse_miss hl, gtReverse_miss (s := { s with mem := m }) hl]
    exact .ok ⟨rfl, h.bytes⟩

theorem stepsOf_ignoreUnread (i : Instr) : ∀ p ∈ stepsOf i, IgnoresUnread p := by
  cases i <;> simp only [stepsOf, List.forall_mem_cons, List.not_mem_nil, false_implies, implies_true, and_true]
  case nop => exact fun _ _ h => .ok h
  case calibrate => exact calibrate_ignoresUnread
  case binarize => exact binarize_ignoresUnread
  case matchAll => exact matchAll_ignoresUnread
  case layoutEnc => exact layoutEnc_ignoresUnread
  case layoutDec => exact layoutDec_ignoresUnread
  case charsToCells => exact charsToCells_ignoresUnread
  case paint => exact paint_ignoresUnread
  case encode => exact ⟨calibrate_ignoresUnread, matchAll_ignoresUnread, layoutEnc_ignoresUnread⟩
  case decodeDf => exact ⟨layoutDec_ignoresUnread, paint_ignoresUnread⟩
  case decodeRaw => exact ⟨charsToCells_ignoresUnread, paint_ignoresUnread⟩
  case sample x y => exact sample_ignoresUnread x y
  case matchCell x y => exact matchCell_ignoresUnread x y
  case cellAddr row subrow => exact cellAddr_ignoresUnread row subrow
  case gtWrite b index => exact gtWrite_ignoresUnread b index
  case gtInval b index => exact gtInval_ignoresUnread b index
  case gtClear b => exact gtClear_ignoresUnread b
  case gtLookup b => exact gtLookup_ignoresUnread b
  case gtReverse b code => exact gtReverse_ignoresUnread b code

/-- Settles O55: a command settles its one primitive or runs its sequence, and no primitive reads an unread byte. -/
theorem unreadBytesDoNotMatter : Obligations.UnreadBytesDoNotMatter := by
  intro i s u h
  have hi := stepsOf_ignoreUnread i
  cases i
  case encode | decodeDf | decodeRaw => exact ⟨_, _, rfl, rfl, h.runSequence hi⟩
  all_goals exact ⟨_, _, rfl, rfl, (hi _ (List.mem_singleton_self _) s u h).settle h⟩

end Sys2Proof.Machine
end

section
/-! The calibration region extractor (spec/42_calibration.md R260 to R269) and the forward path it starts
(spec/45_codec_sequences.md R351, R352): the numbers CALIBRATE computes fit the registers it writes, so what it leaves is
known in plain arithmetic. -/

namespace Sys2Proof.Machine

/-! ### Rounding (R260) -/

/-- Settles O37: the division floors, so `2n + d` lies less than one divisor above its multiple. -/
theorem roundIsNearestTiesUp : Obligations.RoundIsNearestTiesUp := by
  intro n d hd
  have hle : 2 * d * roundDiv n d ≤ 2 * n + d := Int.mul_ediv_self_le (by omega)
  have hlt : 2 * n + d < 2 * d * roundDiv n d + 2 * d := Int.lt_mul_ediv_self_add (by omega)
  exact ⟨by omega, hle⟩

theorem roundDiv_nonneg {n d : Int} (hn : 0 ≤ n) (hd : 0 ≤ d) : 0 ≤ roundDiv n d :=
  Int.ediv_nonneg (by omega) (by omega)

/-- Rounding does not pass an integer bound of the quotient. -/
theorem roundDiv_le {n d m : Int} (hd : 0 < d) (h : n ≤ m * d) : roundDiv n d ≤ m := by
  have hlt : roundDiv n d < m + 1 := Int.ediv_lt_of_lt_mul (by omega) (by linarith)
  omega

/-! ### The scale test and the effective size (R261, R262) -/

section
variable {w h : Nat}

theorem scaleTest_iff : scaleTest w h = true ↔ 320 < w ∧ 256 < h := by simp [scaleTest]

theorem scaleTest_eq_false_iff : scaleTest w h = false ↔ ¬ (320 < w ∧ 256 < h) := by
  rw [← scaleTest_iff, Bool.not_eq_true]

theorem effectiveWidth_unscaled (hs : scaleTest w h = false) : effectiveWidth w h = w := by simp [effectiveWidth, hs]

theorem effectiveHeight_unscaled (hs : scaleTest w h = false) : effectiveHeight w h = h := by simp [effectiveHeight, hs]

/-- The canonical widths. -/
theorem effectiveWidth_scaled (hs : scaleTest w h = true) : effectiveWidth w h = 256 ∨ effectiveWidth w h = 320 := by
  rw [effectiveWidth, if_pos hs]
  split <;> simp

theorem effectiveWidth_nonneg : 0 ≤ effectiveWidth w h := by
  cases hs : scaleTest w h with
  | false => rw [effectiveWidth_unscaled hs]; omega
  | true => rcases effectiveWidth_scaled hs with h | h <;> omega

/-- The resize never widens the raster. -/
theorem effectiveWidth_le : effectiveWidth w h ≤ w := by
  cases hs : scaleTest w h with
  | false => rw [effectiveWidth_unscaled hs]
  | true =>
    obtain ⟨hw, -⟩ := scaleTest_iff.1 hs
    rcases effectiveWidth_scaled hs with h | h <;> omega

theorem effectiveHeight_nonneg : 0 ≤ effectiveHeight w h := by
  unfold effectiveHeight
  split
  · exact roundDiv_nonneg (mul_nonneg (by omega) effectiveWidth_nonneg) (by omega)
  · omega

/-- Nor does it make the raster higher, since it keeps the ratio up to rounding. -/
theorem effectiveHeight_le : effectiveHeight w h ≤ h := by
  unfold effectiveHeight
  split
  · next hs =>
    obtain ⟨hw, -⟩ := scaleTest_iff.1 hs
    exact roundDiv_le (by omega) (mul_le_mul_of_nonneg_left effectiveWidth_le (by omega))
  · exact le_rfl

end

/-! ### Centring, correction and override (R263 to R265) -/

/-- The correction's condition holds at one effective size only (R264). -/
theorem centreY_eq (ew eh : Int) :
    centreY ew eh = if ew = 320 ∧ eh = 256 then roundDiv (eh - 192) 2 + 1 else roundDiv (eh - 192) 2 := by
  have hsize : (5 * eh = 4 * ew ∧ eh = 256) ↔ (ew = 320 ∧ eh = 256) := by omega
  simp only [centreY, hsize]

theorem overrideOffset_of_nonneg {r : Word} (h : 0 ≤ r.toInt) (c : Int) : overrideOffset r c = r.toInt := if_pos h

theorem overrideOffset_of_neg {r : Word} (h : r.toInt < 0) (c : Int) : overrideOffset r c = c := if_neg (by omega)

/-- A register holds a dimension that fits it. -/
theorem toNat_ofInt_half {n : Int} (h0 : 0 ≤ n) (h1 : n < 65536) : ((BitVec.ofInt 16 n).toNat : Int) = n := by
  rw [BitVec.toNat_ofInt]
  omega

/-- A register holds an offset whose computed value fits it, as the requested one always does. -/
theorem toInt_ofInt_overrideOffset (r : Word) {c : Int} (h0 : -2 ^ 31 ≤ c) (h1 : c < 2 ^ 31) :
    (BitVec.ofInt 32 (overrideOffset r c)).toInt = overrideOffset r c := by
  unfold overrideOffset
  split
  · rw [BitVec.ofInt_toInt]
  · exact BitVec.toInt_ofInt_eq_self (by decide) h0 h1

/-! ### What CALIBRATE leaves (R266) -/

/-- The effective width of the state's raster. -/
def State.effectiveW (s : State) : Int := effectiveWidth s.srcW.toNat s.srcH.toNat

/-- The effective height of the state's raster. -/
def State.effectiveH (s : State) : Int := effectiveHeight s.srcW.toNat s.srcH.toNat

/-- The state with CALIBRATE's results written. -/
def State.calibrated (s : State) : State :=
  { s with
    effW := BitVec.ofInt 16 s.effectiveW
    effH := BitVec.ofInt 16 s.effectiveH
    usedOffX := BitVec.ofInt 32 (overrideOffset s.reqOffX (centreX s.effectiveW))
    usedOffY := BitVec.ofInt 32 (overrideOffset s.reqOffY (centreY s.effectiveW s.effectiveH))
    scaled := scaleTest s.srcW.toNat s.srcH.toNat }

theorem calibrate_eq (s : State) : calibrate s = .ok s.calibrated := rfl

theorem exec_calibrate (s : State) : exec .calibrate s = .next (s.calibrated.complete 0) :=
  next_settle_complete (calibrate_eq s)

theorem State.effectiveW_range (s : State) : 0 ≤ s.effectiveW ∧ s.effectiveW < 65536 := by
  have hle : s.effectiveW ≤ s.srcW.toNat := effectiveWidth_le
  have := s.srcW.isLt
  exact ⟨effectiveWidth_nonneg, by omega⟩

theorem State.effectiveH_range (s : State) : 0 ≤ s.effectiveH ∧ s.effectiveH < 65536 := by
  have hle : s.effectiveH ≤ s.srcH.toNat := effectiveHeight_le
  have := s.srcH.isLt
  exact ⟨effectiveHeight_nonneg, by omega⟩

theorem State.calibrated_effW (s : State) : (s.calibrated.effW.toNat : Int) = s.effectiveW :=
  toNat_ofInt_half s.effectiveW_range.1 s.effectiveW_range.2

theorem State.calibrated_effH (s : State) : (s.calibrated.effH.toNat : Int) = s.effectiveH :=
  toNat_ofInt_half s.effectiveH_range.1 s.effectiveH_range.2

theorem State.calibrated_usedOffX (s : State) :
    s.calibrated.usedOffX.toInt = overrideOffset s.reqOffX (centreX s.effectiveW) := by
  have hw := s.effectiveW_range
  apply toInt_ofInt_overrideOffset <;> unfold centreX roundDiv <;> omega

theorem State.calibrated_usedOffY (s : State) :
    s.calibrated.usedOffY.toInt = overrideOffset s.reqOffY (centreY s.effectiveW s.effectiveH) := by
  have hh := s.effectiveH_range
  apply toInt_ofInt_overrideOffset <;> unfold centreY roundDiv <;> split <;> omega

/-- Settles O38: the effective size, the centring and the correction are the equations' values, and each fits its
register. -/
theorem calibrateResult : Obligations.CalibrateResult := by
  intro s ew eh cx cy hew heh hcx hcy
  have hw : s.effectiveW = ew := by
    rw [hew, State.effectiveW, effectiveWidth]
    simp only [scaleTest_iff]
  have hh : s.effectiveH = eh := by
    rw [heh, ← hw, State.effectiveH, effectiveHeight]
    simp only [scaleTest_iff]
    rfl
  have hx : centreX s.effectiveW = cx := by rw [hcx, hw]; rfl
  have hy : centreY s.effectiveW s.effectiveH = cy := by rw [hcy, hw, hh, centreY_eq]; rfl
  have hs : decide (320 < s.srcW.toNat ∧ 256 < s.srcH.toNat) = s.calibrated.scaled := Bool.decide_and _ _
  refine ⟨_, next_settle_ok (calibrate_eq s), ?_, s.calibrated_effW.trans hw, s.calibrated_effH.trans hh, ?_, ?_⟩
  · rw [hs]; rfl
  · rw [← hx]; exact s.calibrated_usedOffX
  · rw [← hy]; exact s.calibrated_usedOffY

/-! ### The laws (R268, R269) -/

/-- Settles O39: a negative request leaves the computed offset, which reads the dimensions alone; another one is written
as it stands. -/
theorem calibrateDeterminedByDimensions : Obligations.CalibrateDeterminedByDimensions := by
  intro s u
  refine ⟨_, _, exec_calibrate s, exec_calibrate u, fun hsx hsy hux huy hw hh => ?_, fun hx hy => ?_⟩
  · have hew : s.effectiveW = u.effectiveW := by simp only [State.effectiveW, hw, hh]
    have heh : s.effectiveH = u.effectiveH := by simp only [State.effectiveH, hw, hh]
    simp only [State.complete, State.calibrated, overrideOffset_of_neg, hsx, hsy, hux, huy, hew, heh, hw, hh, and_self]
  · exact ⟨BitVec.eq_of_toInt_eq (s.calibrated_usedOffX.trans (overrideOffset_of_nonneg hx _)),
      BitVec.eq_of_toInt_eq (s.calibrated_usedOffY.trans (overrideOffset_of_nonneg hy _))⟩

/-- Settles O40: the canonical widths fail the scale test, so the effective size, from which alone the offsets are
computed, passes through unchanged. -/
theorem calibrateIdempotentOnResized : Obligations.CalibrateIdempotentOnResized := by
  intro s t u hst hscaled hw hh hx hy
  cases (exec_calibrate s).symm.trans hst
  have hw' : (u.srcW.toNat : Int) = s.effectiveW := by rw [hw]; exact s.calibrated_effW
  have hh' : (u.srcH.toNat : Int) = s.effectiveH := by rw [hh]; exact s.calibrated_effH
  have hcanonical : s.effectiveW = 256 ∨ s.effectiveW = 320 := effectiveWidth_scaled hscaled
  have hs : scaleTest u.srcW.toNat u.srcH.toNat = false := scaleTest_eq_false_iff.2 (by omega)
  have hew : u.effectiveW = s.effectiveW := (effectiveWidth_unscaled hs).trans hw'
  have heh : u.effectiveH = s.effectiveH := (effectiveHeight_unscaled hs).trans hh'
  refine ⟨_, exec_calibrate u, hs, ?_⟩
  simp only [State.complete, State.calibrated, hew, heh, hx, hy, and_self]

/-! ### ENCODE (R351, R352) -/

/-- MATCH where its checks pass (R325, R327, R328). -/
theorem matchAll_eq {s : State} (hd : s.legalDims) (hs : scaleTest s.srcW.toNat s.srcH.toNat = false)
    (hf : s.windowFits) : matchAll s = .ok (matchWrites s) := by
  rw [matchAll, if_neg (not_not.2 hd), hs, if_neg Bool.false_ne_true, if_neg (not_not.2 hf)]

section
variable {s u : State} {e : Byte} {b d : Bool} {k : Nat}

/-- MATCH succeeds alike whatever a completion would write. -/
theorem matchAll_control_ok (h : matchAll s = .ok u) : matchAll (s.control e b d k) = .ok (u.control e b d k) := by
  rw [matchAll_control, h, controlEffect]

/-- LAYOUT_ENC succeeds alike whatever a completion would write. -/
theorem layoutEnc_control_ok (h : layoutEnc s = .ok u) : layoutEnc (s.control e b d k) = .ok (u.control e b d k) := by
  rw [layoutEnc_control, h, controlEffect]

/-- CALIBRATE as the first step of ENCODE (R352). -/
theorem exec_encode_calibrate (hk : s.seqStep = 0) :
    exec .encode s = .next (s.calibrated.control s.errCause s.busy s.intDone 1) := by
  have hrun : s.runSequence [calibrate, matchAll, layoutEnc] = { s.calibrated with seqStep := s.seqStep + 1 } :=
    runSequence_advance (p := calibrate) (by rw [hk]; rfl)
  rw [hk] at hrun
  exact congrArg Host.Outcome.next hrun

/-- MATCH as the second step of ENCODE, where it succeeds. -/
theorem exec_encode_match (h : matchAll s = .ok u) :
    exec .encode (s.control e b d 1) = .next (u.control e b d 2) := by
  have hrun : (s.control e b d 1).runSequence [calibrate, matchAll, layoutEnc] =
      (s.control e b d 1).advance (matchAll (s.control e b d 1)) := runSequence_advance rfl
  rw [matchAll_control_ok h, advance_ok] at hrun
  exact congrArg Host.Outcome.next hrun

/-- LAYOUT_ENC as the last step of ENCODE. -/
theorem exec_encode_layoutEnc (h : layoutEnc s = .ok u) :
    exec .encode (s.control e b d 2) = .next (u.complete 0) := by
  have hrun : (s.control e b d 2).runSequence [calibrate, matchAll, layoutEnc] =
      (s.control e b d 2).settle (layoutEnc (s.control e b d 2)) := runSequence_last rfl
  rw [layoutEnc_control_ok h, settle_ok] at hrun
  exact congrArg Host.Outcome.next hrun

/-- MATCH after the completion of another command. -/
theorem exec_matchAll_complete (h : matchAll s = .ok u) : exec .matchAll (s.complete 0) = .next (u.complete 0) := by
  rw [complete_zero_eq_control]
  exact next_settle_complete (u := u.control 0 false true 0) (matchAll_control_ok h)

/-- LAYOUT_ENC after the completion of another command. -/
theorem exec_layoutEnc_complete (h : layoutEnc s = .ok u) : exec .layoutEnc (s.complete 0) = .next (u.complete 0) := by
  rw [complete_zero_eq_control]
  exact next_settle_complete (u := u.control 0 false true 0) (layoutEnc_control_ok h)

end

/-- The window at the offset CALIBRATE leaves fits the raster (R327). -/
theorem calibrated_windowFits {s : State} {ux uy : Int} (hx : s.calibrated.usedOffX.toInt = ux)
    (hy : s.calibrated.usedOffY.toInt = uy) (hx0 : 0 ≤ ux) (hy0 : 0 ≤ uy) (hxw : ux + 256 ≤ s.srcW.toNat)
    (hyh : uy + 192 ≤ s.srcH.toNat) : s.calibrated.windowFits := by
  subst hx hy
  exact ⟨hx0, hy0, hxw, hyh⟩

/-- Settles O41: the checks of MATCH pass on what CALIBRATE leaves, and no step reads or writes what tells a sequence's
steps from single commands. -/
theorem encodeIsItsThreeSteps : Obligations.EncodeIsItsThreeSteps := by
  intro s ux uy hstep hd hns hux huy hx0 hy0 hxw hyh
  have hs := scaleTest_eq_false_iff.2 hns
  have hew : s.effectiveW = s.srcW.toNat := effectiveWidth_unscaled hs
  have heh : s.effectiveH = s.srcH.toNat := effectiveHeight_unscaled hs
  have hx : s.calibrated.usedOffX.toInt = ux := by rw [s.calibrated_usedOffX, hew, hux]
  have hy : s.calibrated.usedOffY.toInt = uy := by rw [s.calibrated_usedOffY, hew, heh, huy]
  obtain ⟨m, hm⟩ : ∃ m, matchAll s.calibrated = .ok m :=
    ⟨_, matchAll_eq hd hs (calibrated_windowFits hx hy hx0 hy0 hxw hyh)⟩
  obtain ⟨t, ht⟩ : ∃ t, layoutEnc m = .ok t := ⟨_, rfl⟩
  exact ⟨_, _, _, _, _, exec_calibrate s, exec_matchAll_complete hm, exec_layoutEnc_complete ht, hx, hy, rfl, rfl,
    exec_encode_calibrate hstep, exec_encode_match hm, exec_encode_layoutEnc ht, ⟨rfl, rfl, rfl⟩, ⟨rfl, rfl, rfl⟩⟩

end Sys2Proof.Machine
end

section
/-! SAMPLE (spec/43_binarizer.md R290, R292): the comparator on the pixel's three channel bytes, and what passing both
checks leaves in RESULT. -/

namespace Sys2Proof.Machine

/-- Ink is whatever is not above the threshold in all three channels (R290). -/
theorem bin_eq_true_iff (r g b : Byte) :
    bin r g b = true ↔ ¬ (127 < r.toNat ∧ 127 < g.toNat ∧ 127 < b.toNat) := by
  simp only [bin, Bool.not_eq_true', Bool.and_eq_false_iff, decide_eq_false_iff_not]
  tauto

/-- A pixel's bit from its three bytes in SRC: bytes 4(y·W + x) to 4(y·W + x) + 2 (R290, R292). -/
theorem inkAt_eq_true_iff (s : State) (x y : Nat) :
    s.inkAt x y = true ↔
      ¬ (127 < (s.byteAt (srcBase + 4 * (y * s.srcW.toNat + x))).toNat ∧
        127 < (s.byteAt (srcBase + 4 * (y * s.srcW.toNat + x) + 1)).toNat ∧
        127 < (s.byteAt (srcBase + 4 * (y * s.srcW.toNat + x) + 2)).toNat) :=
  bin_eq_true_iff _ _ _

/-- The state SAMPLE leaves before its completion, where both checks pass (R292). -/
theorem sample_eq {s : State} {x y : Nat} (hd : s.legalDims) (hx : x < s.srcW.toNat) (hy : y < s.srcH.toNat) :
    sample x y s = .ok { s with result := if s.inkAt x y then 1 else 0 } := by
  rw [sample, if_neg (not_not.2 hd), if_neg (by omega)]

/-- Settles O27: the checks pass, and RESULT is the pixel's bit, which is 1 unless all three channels are above 127. -/
theorem sampleResult : Obligations.SampleResult := by
  intro s x y hd hx hy
  have hdone := next_settle_ok (sample_eq hd hx hy)
  simp only [inkAt_eq_true_iff, ite_not] at hdone
  exact hdone

end Sys2Proof.Machine
end

section
/-! The glyph matcher (spec/44_glyph_matcher.md R320 to R329): the two ways a pattern resolves, what MATCH_CELL leaves
in RESULT and RESULT_PAT, and what MATCH leaves in its windows, its count and its flag. -/

namespace Sys2Proof.Machine

/-! ### The windows after a completion -/

@[simp] theorem rawCode_complete (s : State) (e : Byte) (i : Nat) : (s.complete e).rawCode i = s.rawCode i := rfl

@[simp] theorem mapBit_complete (s : State) (e : Byte) (i : Nat) : (s.complete e).mapBit i = s.mapBit i := rfl

/-! ### MATCH_CELL (R324) -/

/-- The query registers MATCH_CELL leaves: the block's pattern in RESULT_PAT, and `r` in RESULT (R324). -/
def State.matchedCell (s : State) (x y : Nat) (r : Word) : State :=
  { s with
    resultPatHi := (s.extract x y).extractLsb' 32 32
    resultPatLo := (s.extract x y).extractLsb' 0 32
    result := r }

section
variable {s : State} {x y : Nat} (hd : s.legalDims) (hx : x + 8 ≤ s.srcW.toNat) (hy : y + 8 ≤ s.srcH.toNat)
include hd hx hy

theorem matchCell_hit {c : Byte} (h : lookupPattern (s.bank s.modelSel) (s.extract x y) = some c) :
    matchCell x y s = .ok (s.matchedCell x y (BitVec.ofNat 32 (0x100 + c.toNat))) := by
  rw [matchCell, if_neg (not_not.2 hd), if_neg (by omega), ← foundResult_eq]
  simp only [h, State.matchedCell]

theorem matchCell_miss (h : lookupPattern (s.bank s.modelSel) (s.extract x y) = none) :
    matchCell x y s = .ok (s.matchedCell x y 0x0000003F) := by
  rw [matchCell, if_neg (not_not.2 hd), if_neg (by omega)]
  simp only [h, State.matchedCell]

end

/-- Settles O31: the pattern is the extracted block, and its lookup has a hit and a miss. -/
theorem matchCellResult : Obligations.MatchCellResult := by
  intro s x y hd hx hy
  refine ⟨s.extract x y, fun r c hr hc => patternBit_extract s x y r c hr hc, ?_⟩
  cases h : lookupPattern (s.bank s.modelSel) (s.extract x y) with
  | some c => exact next_settle_ok (matchCell_hit hd hx hy h)
  | none => exact next_settle_ok (matchCell_miss hd hx hy h)

/-! ### MATCH (R325) -/

theorem resolve_hit {g : GlyphBank} {p : Pattern} {c : Byte} (h : lookupPattern g p = some c) :
    resolve g p = (c, false) := by
  rw [resolve, h]

theorem resolve_miss {g : GlyphBank} {p : Pattern} (h : lookupPattern g p = none) : resolve g p = (0x3F, true) := by
  rw [resolve, h]

/-- RAW and MAP hold what the PE resolves its pattern to (R323, R325). -/
theorem rawCode_mapBit_matchWrites {s : State} {i : Nat} (hi : i < 768) {k : Byte} {m : Bool}
    (h : resolve (s.bank s.modelSel) (s.pePattern i) = (k, m)) :
    (matchWrites s).rawCode i = k ∧ (matchWrites s).mapBit i = m := by
  rw [rawCode_matchWrites s i hi, mapBit_matchWrites s i hi, State.peResolve, h]
  exact ⟨rfl, rfl⟩

/-- The count of unmatched cells is the number of MAP bits at 1 (R325). -/
theorem peUnmatched_eq_countP_mapBit (s : State) :
    s.peUnmatched = (List.range 768).countP (fun i => (matchWrites s).mapBit i) :=
  List.countP_congr fun i hi => by rw [mapBit_matchWrites s i (List.mem_range.1 hi)]

/-- PARTIAL is 1 exactly when the count is not 0 (R329). -/
theorem partialMatch_matchWrites_iff (s : State) :
    (matchWrites s).partialMatch = true ↔ (matchWrites s).unmatchedCnt ≠ 0 := by
  rw [partialMatch_matchWrites]
  exact countFlag_iff (unmatchedCnt_matchWrites s)

/-- MATCH's writes and its completion change the memory, the count, the flag and the completion's fields alone. -/
theorem complete_matchWrites_eq (s : State) :
    (matchWrites s).complete 0 =
      { s with
        mem := ((matchWrites s).complete 0).mem
        unmatchedCnt := ((matchWrites s).complete 0).unmatchedCnt
        partialMatch := ((matchWrites s).complete 0).partialMatch
        errCause := 0
        busy := false
        intDone := true
        seqStep := 0 } := by
  simp only [State.complete_mem, State.complete_unmatchedCnt, State.complete_partialMatch]
  rw [complete_zero, matchWrites_eq s]

/-- Settles O32: the checks pass, and each clause says what MATCH's writes leave. -/
theorem matchResult : Obligations.MatchResult := by
  intro s hd hns hf
  have hmatch := matchAll_eq hd (scaleTest_eq_false_iff.2 hns) hf
  refine ⟨_, next_settle_complete hmatch, complete_matchWrites_eq s, fun i r c hi hr hc => ?cells, fun i hi => ?codes,
    ?count, ?flag, byteAt_matchWrites_outside s⟩
  case cells =>
    rw [cellPat_complete, cellPat_matchWrites s i hi]
    exact patternBit_extract s _ _ r c hr hc
  case codes =>
    rw [cellPat_complete, cellPat_matchWrites s i hi, rawCode_complete, mapBit_complete]
    cases h : lookupPattern (s.bank s.modelSel) (s.pePattern i) with
    | some c => exact rawCode_mapBit_matchWrites hi (resolve_hit h)
    | none => exact rawCode_mapBit_matchWrites hi (resolve_miss h)
  case count => exact (unmatchedCnt_matchWrites s).trans (peUnmatched_eq_countP_mapBit s)
  case flag =>
    rw [State.complete_partialMatch, State.complete_unmatchedCnt]
    exact partialMatch_matchWrites_iff s

end Sys2Proof.Machine
end

section
/-! The commands of the reverse path (spec/45_codec_sequences.md R350, R353 to R356): what CHARS_TO_CELLS and PAINT
leave, and the pixels of a painted raster. -/

namespace Sys2Proof.Machine

/-! ### NOP (R350) -/

/-- Settles O18: NOP's effect is the state itself, so the completion is all it does. -/
theorem nopOnlyCompletes : Obligations.NopOnlyCompletes := fun _ => next_settle_ok (p := .ok) rfl

/-! ### CHARS_TO_CELLS (R353) -/

@[simp] theorem cellPat_setMissed (s : State) (n i : Nat) : (s.setMissed n).cellPat i = s.cellPat i := rfl

/-- The state with CHARS_TO_CELLS's cells, count and flag written. -/
def State.reverted (s : State) : State := (s.writeCells s.charPattern).setMissed s.charMisses

theorem charsToCells_eq {s : State} (h : s.inLen = 768) : charsToCells s = .ok s.reverted := by
  rw [charsToCells, if_neg (not_not.2 h), State.reverted]

theorem cellPat_reverted (s : State) {i : Nat} (hi : i < 768) : s.reverted.cellPat i = s.charPattern i := by
  rw [State.reverted, cellPat_setMissed, cellPat_writeCells s _ i hi]

/-- At most 768 codes are missed, so the count fits its register (R51). -/
theorem decMissCnt_reverted (s : State) : s.reverted.decMissCnt.toNat = s.charMisses := by
  rw [State.reverted, State.setMissed_decMissCnt, toNat_count (charMisses_le s)]

/-- DEC_PARTIAL is 1 exactly when the count is not 0 (R353). -/
theorem decPartial_reverted_iff (s : State) : s.reverted.decPartial = true ↔ s.reverted.decMissCnt ≠ 0 := by
  rw [← countFlag_iff (decMissCnt_reverted s)]
  exact Iff.of_eq (congrArg (· = true) (State.setMissed_decPartial _ _))

theorem byteAt_reverted_outside (s : State) {a : Nat} (ha : ¬ inRange cellpatBase 6144 a) :
    s.reverted.byteAt a = s.byteAt a := by
  rw [State.reverted, byteAt_setMissed, byteAt_writeCells_outside s _ a ha]

/-- Written cells with a count of misses, once completed, change the memory, the count, the flag and the completion's
fields alone. -/
theorem complete_setMissed_eq (s : State) (f : Nat → Pattern) (n : Nat) :
    ((s.writeCells f).setMissed n).complete 0 =
      { s with
        mem := (((s.writeCells f).setMissed n).complete 0).mem
        decMissCnt := (((s.writeCells f).setMissed n).complete 0).decMissCnt
        decPartial := (((s.writeCells f).setMissed n).complete 0).decPartial
        errCause := 0
        busy := false
        intDone := true
        seqStep := 0 } := by
  rw [complete_zero]
  rfl

/-- Settles O35: every cell is written with its code's pattern and the misses are at most 768, or the length check
fails. -/
theorem charsToCellsResult : Obligations.CharsToCellsResult := by
  intro s
  constructor
  · intro hlen
    refine ⟨_, next_settle_complete (charsToCells_eq hlen), complete_setMissed_eq s _ _, fun i hi => ?cells, ?count,
      ?flag, fun a ha => byteAt_reverted_outside s ha⟩
    case cells => rw [cellPat_complete, cellPat_reverted s hi]; rfl
    case count => rw [State.complete_decMissCnt, decMissCnt_reverted]; rfl
    case flag => rw [State.complete_decPartial, State.complete_decMissCnt, decPartial_reverted_iff]
  · intro hlen
    exact next_settle_error (p := charsToCells) (if_pos hlen)

/-! ### PAINT (R355, R356) -/

/-- The state with PAINT's raster and dimensions written. -/
def State.painted (s : State) : State := { s.fillBytes srcBase 196608 s.paintByte with srcW := 256, srcH := 192 }

theorem paint_eq (s : State) : paint s = .ok s.painted := rfl

/-- The bit of pixel (x, y) of the cells (R15, R356). -/
def State.cellInk (s : State) (x y : Nat) : Bool := patternBit (s.cellPat (y / 8 * 32 + x / 8)) (y % 8) (x % 8)

/-- The four bytes of a painted pixel: the first three are 0 on ink, every other one is 255 (R355). -/
theorem byteAt_painted (s : State) {x y ch : Nat} (hx : x < 256) (hy : y < 192) (hch : ch < 4) :
    s.painted.byteAt (srcBase + 4 * (y * 256 + x) + ch) = if s.cellInk x y = true ∧ ch ≠ 3 then 0x00 else 0xFF := by
  have hin : s.painted.byteAt (srcBase + (4 * (y * 256 + x) + ch)) = s.paintByte (4 * (y * 256 + x) + ch) :=
    byteAt_fillBytes_inside s _ _ _ _ (by omega)
  have hpixel : (4 * (y * 256 + x) + ch) / 4 = y * 256 + x := by omega
  rw [Nat.add_assoc, hin, State.paintByte, hpixel, show (y * 256 + x) % 256 = x by omega,
    show (y * 256 + x) / 256 = y by omega, show (4 * (y * 256 + x) + ch) % 4 = ch by omega]
  change (if s.cellInk x y = true then _ else _) = _
  by_cases hink : s.cellInk x y = true <;> by_cases halpha : ch = 3 <;> simp [hink, halpha]

/-- Settles O36: the filled bytes are the pixels', and the fill ends with the raster. -/
theorem paintResult : Obligations.PaintResult := by
  intro s
  exact ⟨_, next_settle_ok (paint_eq s), rfl, fun x y ch hx hy hch => byteAt_painted s hx hy hch,
    fun a ha => byteAt_fillBytes_outside s _ _ _ a ha⟩

/-! ### The cells of a 256×192 raster (R321, R355) -/

/-- The block of the raster at cell `i` of a window whose origin is the raster's (R15, R322). -/
def State.rasterCell (s : State) (i : Nat) : Pattern := s.extract (8 * (i % 32)) (8 * (i / 32))

/-- Two patterns with the same bit at every row and column are the same. -/
theorem pattern_ext {p q : Pattern} (h : ∀ r c, r < 8 → c < 8 → patternBit p r c = patternBit q r c) : p = q := by
  refine BitVec.eq_of_getLsbD_eq fun j hj => ?_
  have hbit := h ((63 - j) / 8) ((63 - j) % 8) (by omega) (by omega)
  rwa [patternBit, patternBit, show 63 - (8 * ((63 - j) / 8) + (63 - j) % 8) = j by omega] at hbit

/-- A cell of the raster, bit by bit. -/
theorem rasterCell_eq {s : State} {i : Nat} {p : Pattern}
    (h : ∀ r c, r < 8 → c < 8 → s.inkAt (8 * (i % 32) + c) (8 * (i / 32) + r) = patternBit p r c) :
    s.rasterCell i = p :=
  pattern_ext fun r c hr hc => (patternBit_extract s _ _ r c hr hc).trans (h r c hr hc)

/-- A painted raster binarizes to the bits it was painted from (R355). -/
theorem inkAt_painted (s : State) {x y : Nat} (hx : x < 256) (hy : y < 192) : s.painted.inkAt x y = s.cellInk x y := by
  have hw : s.painted.srcW.toNat = 256 := rfl
  have hchannel : ∀ ch < 3,
      127 < (s.painted.byteAt (srcBase + 4 * (y * 256 + x) + ch)).toNat ↔ s.cellInk x y = false := by
    intro ch hch
    rw [byteAt_painted s hx hy (by omega)]
    cases s.cellInk x y <;> simp [Nat.ne_of_lt hch]
  have hred : 127 < (s.painted.byteAt (srcBase + 4 * (y * 256 + x))).toNat ↔ s.cellInk x y = false :=
    hchannel 0 (by decide)
  rw [Bool.eq_iff_iff, inkAt_eq_true_iff, hw, hred, hchannel 1 (by decide), hchannel 2 (by decide), and_self, and_self,
    Bool.not_eq_false]

/-- The cells of a painted raster are the cells it was painted from (R359). -/
theorem rasterCell_painted (s : State) {i : Nat} (hi : i < 768) : s.painted.rasterCell i = s.cellPat i := by
  refine rasterCell_eq fun r c hr hc => ?_
  rw [inkAt_painted s (by omega) (by omega), State.cellInk,
    show (8 * (i / 32) + r) / 8 * 32 + (8 * (i % 32) + c) / 8 = i by omega, show (8 * (i / 32) + r) % 8 = r by omega,
    show (8 * (i % 32) + c) % 8 = c by omega]

/-- The cells of an all-paper raster are blank (R361). -/
theorem rasterCell_paper {s : State} (hw : s.srcW = 256)
    (h : ∀ x y, x < 256 → y < 192 → ∀ ch, ch < 3 → 127 < (s.byteAt (srcBase + 4 * (y * 256 + x) + ch)).toNat)
    {i : Nat} (hi : i < 768) : s.rasterCell i = 0 := by
  refine rasterCell_eq fun r c hr hc => ?_
  have hpixel := h (8 * (i % 32) + c) (8 * (i / 32) + r) (by omega) (by omega)
  have hpaper : s.inkAt (8 * (i % 32) + c) (8 * (i / 32) + r) = false := by
    rw [Bool.eq_false_iff, ne_eq, inkAt_eq_true_iff, not_not, hw]
    exact ⟨hpixel 0 (by decide), hpixel 1 (by decide), hpixel 2 (by decide)⟩
  exact hpaper.trans BitVec.getLsbD_zero.symm

end Sys2Proof.Machine
end

section
/-! The sequencing commands turn by turn (spec/45_codec_sequences.md R351, R352, R357, R358, R412, R470): DECODE_DF and
DECODE_RAW as their two steps, ENCODE where MATCH fails, and the completion of every command. -/

namespace Sys2Proof.Machine

/-! ### ENCODE where MATCH fails (R412) -/

section
variable {s : State} {c : ErrorCode}

/-- MATCH fails alike after the completion of another command. -/
theorem exec_matchAll_complete_error (h : matchAll s = .error c) :
    exec .matchAll (s.complete 0) = .next ((s.complete 0).complete c.code) := by
  have herr : matchAll (s.complete 0) = .error c := by
    rw [complete_zero_eq_control, matchAll_control, h, controlEffect]
  exact congrArg (fun r => Host.Outcome.next ((s.complete 0).settle r)) herr

/-- MATCH as the second step of ENCODE, where it fails: the sequence completes with MATCH's code. -/
theorem exec_encode_match_error (h : matchAll s = .error c) (e : Byte) (b d : Bool) :
    exec .encode (s.control e b d 1) = .next ((s.control e b d 1).complete c.code) := by
  have hrun : (s.control e b d 1).runSequence [calibrate, matchAll, layoutEnc] =
      (s.control e b d 1).advance (matchAll (s.control e b d 1)) := runSequence_advance rfl
  rw [matchAll_control, h, controlEffect, advance_error] at hrun
  exact congrArg Host.Outcome.next hrun

end

/-- Settles O42: MATCH fails on CALIBRATE's results inside the sequence exactly as it does after CALIBRATE's own
completion. -/
theorem encodeKeepsCalibrationWhenMatchFails : Obligations.EncodeKeepsCalibrationWhenMatchFails := by
  intro s c m hstep hc hm herr
  cases (exec_calibrate s).symm.trans hc
  refine ⟨_, exec_encode_calibrate hstep, ?_⟩
  cases hmatch : matchAll s.calibrated with
  | ok u =>
    cases (exec_matchAll_complete hmatch).symm.trans hm
    exact absurd rfl herr
  | error code =>
    cases (exec_matchAll_complete_error hmatch).symm.trans hm
    rw [exec_encode_match_error hmatch, complete_error]
    rfl

/-! ### DECODE_DF and DECODE_RAW (R357, R358) -/

/-- PAINT after another command's completion. -/
theorem exec_paint_complete (u : State) : exec .paint (u.complete 0) = .next (u.painted.complete 0) := by
  rw [complete_zero_eq_control]
  rfl

section
variable {i : Instr} {p : State → Effect} {s u : State} (hi : ∀ s, exec i s = .next (s.runSequence [p, paint]))
include hi

/-- The first step of a sequence that ends with PAINT. -/
theorem exec_before_paint (hk : s.seqStep = 0) (h : p s = .ok u) :
    exec i s = .next (u.control u.errCause u.busy u.intDone 1) := by
  have hrun : s.runSequence [p, paint] = s.advance (p s) := runSequence_advance (by rw [hk]; rfl)
  rw [hi, hrun, h, advance_ok, hk]
  rfl

/-- PAINT as the last of two steps. -/
theorem exec_last_paint (e : Byte) (b d : Bool) : exec i (u.control e b d 1) = .next (u.painted.complete 0) := by
  have hrun : (u.control e b d 1).runSequence [p, paint] = (u.control e b d 1).settle (paint (u.control e b d 1)) :=
    runSequence_last rfl
  rw [hi, hrun]
  rfl

/-- The first step's error ends the sequence (R351). -/
theorem exec_before_paint_error {c : ErrorCode} (hk : s.seqStep = 0) (h : p s = .error c) :
    exec i s =
      .next { s with errCause := c.code, busy := false, intDone := true, intErr := true, seqStep := 0 } := by
  have hrun : s.runSequence [p, paint] = s.advance (p s) := runSequence_advance (by rw [hk]; rfl)
  rw [hi, hrun, h, advance_error, complete_error]

/-- The two turns end where the first step and PAINT, issued one after the other, end. -/
theorem exec_two_steps {j : Instr} (hj : exec j s = .next (s.settle (p s))) (hk : s.seqStep = 0) (h : p s = .ok u)
    (hq : Quiet s u) :
    ∃ c t s₁, exec j s = .next c ∧ exec .paint c = .next t ∧ exec i s = .next s₁ ∧ exec i s₁ = .next t ∧
      s₁.busy = s.busy ∧ s₁.intDone = s.intDone :=
  ⟨_, _, _, hj.trans (next_settle_complete h), exec_paint_complete u,
    exec_before_paint hi hk h, exec_last_paint hi _ _ _, hq.busy, hq.intDone⟩

end

theorem exec_decodeDf (s : State) : exec .decodeDf s = .next (s.runSequence [layoutDec, paint]) := rfl

theorem exec_decodeRaw (s : State) : exec .decodeRaw s = .next (s.runSequence [charsToCells, paint]) := rfl

/-- Settles O43: both sequences are a first step that checks IN_LEN, then PAINT. -/
theorem decodeSequencesAreTheirTwoSteps : Obligations.DecodeSequencesAreTheirTwoSteps := by
  intro s hk
  refine ⟨fun hlen => ?_, fun hlen => ?_, fun hlen => ?_, fun hlen => ?_⟩
  · have h := layoutDec_eq hlen
    exact exec_two_steps exec_decodeDf rfl hk h (layoutDec_quiet h)
  · exact exec_before_paint_error exec_decodeDf hk (if_pos hlen)
  · have h := charsToCells_eq hlen
    exact exec_two_steps exec_decodeRaw rfl hk h (charsToCells_quiet h)
  · exact exec_before_paint_error exec_decodeRaw hk (if_pos hlen)

/-! ### Every command completes (R470) -/

/-- Three steps are the most a command has (R352). -/
theorem stepCount_le (o : Option Instr) : stepCount o ≤ 3 := by
  unfold stepCount
  split <;> decide

/-- A turn ends with the engine IDLE, and the completion signalled if there was a command, or it goes to the command's
next step. -/
theorem engineTurn_progress {s t : State} (h : engineTurn s = .next t) :
    t.events = s.events ∧
      ((t.busy = false ∧ (s.busy = true → t.intDone = true)) ∨
        (t.busy = s.busy ∧ t.running = s.running ∧ t.seqStep = s.seqStep + 1 ∧ t.seqStep < stepCount s.running)) := by
  rcases engineTurn_cases h with ⟨hb, rfl⟩ | ⟨-, e, -, rfl⟩ | ⟨i, hi, p, hp, u, hu, rfl | ⟨hl, rfl⟩⟩
  · exact ⟨rfl, .inl ⟨hb, by simp [hb]⟩⟩
  · exact ⟨rfl, .inl ⟨rfl, fun _ => rfl⟩⟩
  · exact ⟨(primitive_kept hp hu).events, .inl ⟨rfl, fun _ => rfl⟩⟩
  · have hk := primitive_kept hp hu
    refine ⟨hk.events, .inr ⟨hk.busy, running_congr hk.busy hk.cmd, rfl, ?_⟩⟩
    rw [hi, stepCount_some]
    exact hl

/-- One turn for each step left completes the command. -/
theorem run_completes (k : Nat) (s : State) (he : s.events = []) (hk : stepCount s.running ≤ s.seqStep + (k + 1)) :
    ∃ t, core.run (k + 1) s = .next t ∧ t.busy = false ∧ (s.busy = true → t.intDone = true) := by
  induction k generalizing s with
  | zero =>
    obtain ⟨t, ht⟩ := engineTurn_next s
    obtain ⟨-, hdone | ⟨-, -, hstep, hlt⟩⟩ := engineTurn_progress ht
    · exact ⟨t, core_run_one ((step_no_event he).trans ht), hdone⟩
    · omega
  | succ k ih =>
    obtain ⟨t, ht⟩ := engineTurn_next s
    rw [core_run_succ _ ((step_no_event he).trans ht)]
    obtain ⟨hev, ⟨hidle, hdone⟩ | ⟨hb, hr, hstep, hlt⟩⟩ := engineTurn_progress ht
    · exact ⟨t, core_run_idle (hev.trans he) hidle _, hidle, hdone⟩
    · rw [← hb]
      exact ih t (hev.trans he) (by rw [hr]; omega)

/-- Settles O59: no command has more than three steps. -/
theorem everyCommandCompletes : Obligations.EveryCommandCompletes := fun s he =>
  run_completes 2 s he ((stepCount_le s.running).trans (Nat.le_add_left 3 s.seqStep))

end Sys2Proof.Machine
end

section
/-! The round trips (spec/45_codec_sequences.md R359 to R361): what an issued DECODE_DF, DECODE_RAW or ENCODE leaves on
a block with automatic offsets, and the laws that follow. -/

namespace Sys2Proof.Machine

/-! ### Effects one after the other -/

theorem Kept.trans {s t u : State} (h : Kept s t) (h' : Kept t u) : Kept s u where
  params := h'.params.trans h.params
  gtLock := h'.gtLock.trans h.gtLock
  busy := h'.busy.trans h.busy
  cmdOverrun := h'.cmdOverrun.trans h.cmdOverrun
  busyWrite := h'.busyWrite.trans h.busyWrite
  cmd := h'.cmd.trans h.cmd
  errCause := h'.errCause.trans h.errCause
  doneEn := h'.doneEn.trans h.doneEn
  errEn := h'.errEn.trans h.errEn
  intDone := h'.intDone.trans h.intDone
  intErr := h'.intErr.trans h.intErr
  reqOffX := h'.reqOffX.trans h.reqOffX
  reqOffY := h'.reqOffY.trans h.reqOffY
  modelSel := h'.modelSel.trans h.modelSel
  attrFill := h'.attrFill.trans h.attrFill
  inLen := h'.inLen.trans h.inLen
  gtPatLo := h'.gtPatLo.trans h.gtPatLo
  gtPatHi := h'.gtPatHi.trans h.gtPatHi
  gtCode := h'.gtCode.trans h.gtCode
  seqStep := h'.seqStep.trans h.seqStep
  memDraw := h'.memDraw.trans h.memDraw
  draws := h'.draws.trans h.draws
  events := h'.events.trans h.events
  responses := h'.responses.trans h.responses

theorem Quiet.trans {s t u : State} (h : Quiet s t) (h' : Quiet t u) : Quiet s u where
  toKept := h.toKept.trans h'.toKept
  gtA := h'.gtA.trans h.gtA
  gtB := h'.gtB.trans h.gtB
  gtCountA := h'.gtCountA.trans h.gtCountA
  gtCountB := h'.gtCountB.trans h.gtCountB

/-- The bank MATCH and CHARS_TO_CELLS look up (R47). -/
def State.activeBank (s : State) : GlyphBank := s.bank s.modelSel

theorem Quiet.activeBank {s u : State} (h : Quiet s u) : u.activeBank = s.activeBank := by
  rw [State.activeBank, h.modelSel, State.activeBank, bank_congr h.gtA h.gtB]

theorem activeBank_complete (s : State) (e : Byte) : (s.complete e).activeBank = s.activeBank := complete_bank s e _

theorem activeBank_accept (s : State) (w : Word) : (s.accept w).activeBank = s.activeBank := bank_congr rfl rfl _

/-! ### A command issued on a block with automatic offsets -/

/-- An IDLE block whose parameters are in range, with no host move pending and both requested offsets
automatic (R265). -/
structure State.Automatic (s : State) : Prop where
  ready : s.ready
  params : s.params.Ok
  reqOffX : s.reqOffX.toInt < 0
  reqOffY : s.reqOffY.toInt < 0

/-- The completion of a command whose effects kept the host's registers. -/
theorem State.Automatic.completed {s u : State} {w : Word} (hs : s.Automatic) (hq : Kept (s.accept w) u) :
    (u.complete 0).Automatic where
  ready := ⟨rfl, hq.events.trans hs.ready.2⟩
  params := hq.params.symm ▸ hs.params
  reqOffX := hq.reqOffX.symm ▸ hs.reqOffX
  reqOffY := hq.reqOffY.symm ▸ hs.reqOffY

/-- One turn of a running command with no host move pending. -/
theorem core_run_turn {s t : State} {i : Instr} (k : Nat) (hr : s.running = some i) (he : s.events = [])
    (h : exec i s = .next t) : core.run (k + 1) s = core.run k t :=
  core_run_succ k ((step_no_event he).trans ((engineTurn_running hr).trans h))

theorem running_accept {s : State} {w : Word} {i : Instr} (hw : decode w = .ok i) : (s.accept w).running = some i :=
  running_eq_some.2 ⟨rfl, hw⟩

theorem running_control {s : State} {i : Instr} (hw : decode s.cmd = .ok i) (e : Byte) (d : Bool) (k : Nat) :
    (s.control e true d k).running = some i :=
  running_eq_some.2 ⟨rfl, hw⟩

/-! ### The decoding sequences, issued -/

/-- What an issued DECODE_DF or DECODE_RAW leaves on `s`: a 256×192 raster that shows the cells `f`. -/
structure Decoded (s : State) (f : Nat → Pattern) (d : State) : Prop where
  automatic : d.Automatic
  srcW : d.srcW = 256
  srcH : d.srcH = 192
  inLen : d.inLen = s.inLen
  attrFill : d.attrFill = s.attrFill
  activeBank : d.activeBank = s.activeBank
  cells : ∀ i < 768, d.rasterCell i = f i

/-- A sequence of a first step and PAINT, issued, ends with the painted cells of the first step. -/
theorem issue_decode {i : Instr} {w : Word} {p : State → Effect} {s u : State} {f : Nat → Pattern}
    (hi : ∀ s, exec i s = .next (s.runSequence [p, paint])) (hw : decode w = .ok i) (hs : s.Automatic)
    (hp : p (s.accept w) = .ok u) (hq : Quiet (s.accept w) u) (hcells : ∀ i < 768, u.cellPat i = f i) :
    ∃ d, s.issue w = .next d ∧ Decoded s f d := by
  have he : (s.accept w).events = [] := hs.ready.2
  have hr : (s.accept w).running = some i := running_accept hw
  have hr₁ : (u.control u.errCause u.busy u.intDone 1).running = some i := (running_congr hq.busy hq.cmd).trans hr
  have hpainted : Quiet (s.accept w) u.painted := hq.trans (paint_quiet (paint_eq u))
  have hauto := hs.completed hpainted.toKept
  refine ⟨u.painted.complete 0, ?_, hauto, rfl, rfl, hpainted.inLen, hpainted.attrFill, ?_, fun i hi => ?_⟩
  · calc core.run 3 (s.accept w)
      _ = core.run 2 _ := core_run_turn 2 hr he (exec_before_paint hi rfl hp)
      _ = core.run 1 _ := core_run_turn 1 hr₁ (hq.events.trans he) (exec_last_paint hi _ _ _)
      _ = .next _ := core_run_idle hauto.ready.2 rfl 1
  · rw [activeBank_complete, hpainted.activeBank, activeBank_accept]
  · exact (rasterCell_painted u hi).trans (hcells i hi)

/-- DECODE_DF shows the cells of the character plane (R357). -/
theorem issue_decodeDf {s : State} (hs : s.Automatic) (hlen : s.inLen = 6912) :
    ∃ d, s.issue 0x00000009 = .next d ∧ Decoded s s.planePattern d := by
  have h : layoutDec (s.accept 9) = .ok _ := layoutDec_eq hlen
  exact issue_decode exec_decodeDf rfl hs h (layoutDec_quiet h) fun i hi => cellPat_writeCells _ _ i hi

/-- DECODE_RAW shows the patterns of the codes (R358). -/
theorem issue_decodeRaw {s : State} (hs : s.Automatic) (hlen : s.inLen = 768) :
    ∃ d, s.issue 0x0000000A = .next d ∧ Decoded s s.charPattern d := by
  have h : charsToCells (s.accept 10) = .ok _ := charsToCells_eq hlen
  exact issue_decode exec_decodeRaw rfl hs h (charsToCells_quiet h) fun i hi => cellPat_reverted _ hi

/-! ### ENCODE of a 256×192 raster, issued -/

/-- The state with LAYOUT_ENC's display file written. -/
def State.laidOut (s : State) : State := s.fillBytes dfBase 6912 s.imageByte

theorem layoutEnc_eq (s : State) : layoutEnc s = .ok s.laidOut := rfl

/-- The state with the effects of ENCODE's three steps, where MATCH's checks pass. -/
def State.encoded (s : State) : State := (matchWrites s.calibrated).laidOut

theorem encoded_quiet (s : State) : Quiet s s.encoded :=
  ((calibrate_quiet (calibrate_eq s)).trans (matchWrites_quiet _)).trans (layoutEnc_quiet (layoutEnc_eq _))

/-- ENCODE, issued, where MATCH's checks pass on CALIBRATE's results. -/
theorem issue_encode_matched {s : State} (hs : s.ready)
    (hm : matchAll (s.accept 8).calibrated = .ok (matchWrites (s.accept 8).calibrated)) :
    s.issue 0x00000008 = .next ((s.accept 8).encoded.complete 0) := by
  have hq : Quiet (s.accept 8) (matchWrites (s.accept 8).calibrated) :=
    (calibrate_quiet (calibrate_eq _)).trans (matchWrites_quiet _)
  have he : (s.accept 8).events = [] := hs.2
  have hw : decode 8 = .ok .encode := rfl
  have hr : (s.accept 8).running = some .encode := running_accept hw
  have hr₁ := running_control (s := (s.accept 8).calibrated) hw (s.accept 8).errCause (s.accept 8).intDone 1
  have hr₂ := running_control ((congrArg decode hq.cmd).trans hw) (s.accept 8).errCause (s.accept 8).intDone 2
  calc core.run 3 (s.accept 8)
    _ = core.run 2 _ := core_run_turn 2 hr he (exec_encode_calibrate rfl)
    _ = core.run 1 _ := core_run_turn 1 hr₁ he (exec_encode_match hm)
    _ = .next _ := core_run_turn 0 hr₂ (hq.events.trans he) (exec_encode_layoutEnc (layoutEnc_eq _))

/-- What ENCODE leaves on a 256×192 raster of `s` that shows the cells `f`. -/
structure Encoded (s : State) (f : Nat → Pattern) (t : State) : Prop where
  automatic : t.Automatic
  errCause : t.errCause = 0
  inLen : t.inLen = s.inLen
  attrFill : t.attrFill = s.attrFill
  cells : ∀ i < 768, t.cellPat i = f i
  codes : ∀ i < 768, t.rawCode i = (resolve s.activeBank (f i)).1
  count : t.unmatchedCnt.toNat = (List.range 768).countP (fun i => (resolve s.activeBank (f i)).2)
  flag : t.partialMatch = true ↔ t.unmatchedCnt ≠ 0
  plane : ∀ line r col, line < 24 → r < 8 → col < 32 →
    t.dfByte (cellAddress line r + col) = rowByte (f (line * 32 + col)) r
  attrPlane : ∀ j < 768, t.dfByte (6144 + j) = s.attrFill

/-- The checks of MATCH and its patterns on what CALIBRATE leaves of a 256×192 raster with automatic offsets: no
scaling, and a window that is the raster (R359). -/
theorem matchAll_calibrated {s : State} (hp : s.params.Ok) (hx : s.reqOffX.toInt < 0) (hy : s.reqOffY.toInt < 0)
    (hw : s.srcW = 256) (hh : s.srcH = 192) :
    matchAll s.calibrated = .ok (matchWrites s.calibrated) ∧ s.calibrated.pePattern = s.rasterCell := by
  have hs : scaleTest s.srcW.toNat s.srcH.toNat = false := by rw [hw, hh]; rfl
  have hew : s.effectiveW = 256 := (effectiveWidth_unscaled hs).trans (by rw [hw]; rfl)
  have heh : s.effectiveH = 192 := (effectiveHeight_unscaled hs).trans (by rw [hh]; rfl)
  have hx0 : s.calibrated.usedX = 0 := by
    rw [State.usedX, s.calibrated_usedOffX, overrideOffset_of_neg hx, hew]; rfl
  have hy0 : s.calibrated.usedY = 0 := by
    rw [State.usedY, s.calibrated_usedOffY, overrideOffset_of_neg hy, hew, heh]; rfl
  have hw' : s.calibrated.srcW.toNat = 256 := by rw [show s.calibrated.srcW = s.srcW from rfl, hw]; rfl
  have hh' : s.calibrated.srcH.toNat = 192 := by rw [show s.calibrated.srcH = s.srcH from rfl, hh]; rfl
  obtain ⟨-, -, hmaxW, -, hmaxH, -⟩ := hp
  constructor
  · refine matchAll_eq ?_ hs ?_
    · rw [State.legalDims, hw', hh']
      exact ⟨⟨by decide, hmaxW⟩, by decide, hmaxH⟩
    · rw [State.windowFits, hx0, hy0, hw', hh']
      decide
  · funext i
    rw [State.pePattern, hx0, hy0, Int.toNat_zero, Nat.zero_add, Nat.zero_add]
    rfl

/-- A byte outside the display file is MATCH's. -/
theorem byteAt_encoded (s : State) {a : Nat} (h : ¬ inRange dfBase 6912 a) :
    s.encoded.byteAt a = (matchWrites s.calibrated).byteAt a :=
  byteAt_fillBytes_outside _ _ _ _ _ h

theorem cellPat_encoded (s : State) {i : Nat} (hi : i < 768) : s.encoded.cellPat i = s.calibrated.pePattern i := by
  have hb := bases
  rw [← cellPat_matchWrites s.calibrated i hi]
  exact packRows_congr fun r hr => byteAt_encoded s (by omega)

theorem rawCode_encoded (s : State) {i : Nat} (hi : i < 768) :
    s.encoded.rawCode i = (resolve s.activeBank (s.calibrated.pePattern i)).1 := by
  have hb := bases
  rw [State.rawCode, byteAt_encoded s (by omega)]
  exact rawCode_matchWrites s.calibrated i hi

theorem dfByte_encoded (s : State) {a : Nat} (h : a < 6912) :
    s.encoded.dfByte a = (matchWrites s.calibrated).imageByte a :=
  dfByte_fill_imageByte _ h

theorem unmatchedCnt_encoded (s : State) :
    s.encoded.unmatchedCnt.toNat =
      (List.range 768).countP (fun i => (resolve s.activeBank (s.calibrated.pePattern i)).2) :=
  unmatchedCnt_matchWrites s.calibrated

theorem partialMatch_encoded_iff (s : State) : s.encoded.partialMatch = true ↔ s.encoded.unmatchedCnt ≠ 0 := by
  rw [State.encoded, State.laidOut, State.fillBytes_partialMatch, State.fillBytes_unmatchedCnt,
    partialMatch_matchWrites_iff]

/-- ENCODE of a 256×192 raster with automatic offsets, by the cells the raster shows (R352). -/
theorem issue_encode {s : State} {f : Nat → Pattern} (hs : s.Automatic) (hw : s.srcW = 256) (hh : s.srcH = 192)
    (hf : ∀ i < 768, s.rasterCell i = f i) : ∃ t, s.issue 0x00000008 = .next t ∧ Encoded s f t := by
  obtain ⟨hmatch, hpe⟩ := matchAll_calibrated (s := s.accept 8) hs.params hs.reqOffX hs.reqOffY hw hh
  have hcell : ∀ i < 768, (s.accept 8).calibrated.pePattern i = f i := fun i hi => (congrFun hpe i).trans (hf i hi)
  have hq := encoded_quiet (s.accept 8)
  refine ⟨_, issue_encode_matched hs.ready hmatch, hs.completed hq.toKept, rfl, hq.inLen, hq.attrFill, ?cells, ?codes,
    ?count, ?flag, ?plane, ?attrPlane⟩
  case cells => intro i hi; rw [cellPat_complete, cellPat_encoded _ hi, hcell i hi]
  case codes => intro i hi; rw [rawCode_complete, rawCode_encoded _ hi, hcell i hi, activeBank_accept]
  case count =>
    rw [State.complete_unmatchedCnt, unmatchedCnt_encoded]
    exact List.countP_congr fun i hi => by rw [hcell i (List.mem_range.1 hi), activeBank_accept]
  case flag => rw [State.complete_partialMatch, State.complete_unmatchedCnt, partialMatch_encoded_iff]
  case plane =>
    intro line r col hl hr hc
    have hdf := dfByte_encoded (s.accept 8) ((cellAddress_add_lt hl hr hc).trans (by decide))
    rw [imageByte_cellAddress _ hl hr hc, cellPat_matchWrites _ _ (by omega), hcell _ (by omega)] at hdf
    exact hdf
  case attrPlane =>
    intro j hj
    have hdf := dfByte_encoded (s.accept 8) (show 6144 + j < 6912 by omega)
    rw [imageByte_attrFill, (matchWrites_quiet _).attrFill] at hdf
    exact hdf

/-! ### The display-file round trip (R359) -/

/-- What DECODE_DF then ENCODE leave of the display file of `s`. -/
structure DisplayFilePass (s t : State) : Prop where
  automatic : t.Automatic
  inLen : t.inLen = s.inLen
  attrFill : t.attrFill = s.attrFill
  cells : ∀ line r col, line < 24 → r < 8 → col < 32 →
    t.byteAt (cellpatBase + 8 * (line * 32 + col) + r) = s.dfByte (cellAddress line r + col)
  plane : ∀ a < 6144, t.dfByte a = s.dfByte a
  attrPlane : ∀ j < 768, t.dfByte (6144 + j) = s.attrFill

theorem displayFile_pass {s : State} (hs : s.Automatic) (hlen : s.inLen = 6912) :
    ∃ d t, s.issue 0x00000009 = .next d ∧ d.issue 0x00000008 = .next t ∧ DisplayFilePass s t := by
  obtain ⟨d, hd, hdec⟩ := issue_decodeDf hs hlen
  obtain ⟨t, ht, henc⟩ := issue_encode hdec.automatic hdec.srcW hdec.srcH hdec.cells
  refine ⟨d, t, hd, ht, henc.automatic, henc.inLen.trans hdec.inLen, henc.attrFill.trans hdec.attrFill, ?cells, ?plane,
    fun j hj => (henc.attrPlane j hj).trans hdec.attrFill⟩
  case cells =>
    intro line r col hl hr hc
    rw [← rowByte_cellPat t _ r hr, henc.cells _ (by omega), rowByte_planePattern s hr hc]
  case plane =>
    intro a ha
    obtain ⟨hl, hr, hc⟩ := planeCell_lt ha
    have hrow := henc.plane _ _ _ hl hr hc
    rwa [rowByte_planePattern s hr hc, cellAddress_planeCell ha] at hrow

/-- Two display files that agree on the character plane agree throughout when the bytes after it do. -/
theorem dfByte_eq {s t : State} (hplane : ∀ a < 6144, t.dfByte a = s.dfByte a)
    (hattr : ∀ j < 768, t.dfByte (6144 + j) = s.dfByte (6144 + j)) : ∀ a < 6912, t.dfByte a = s.dfByte a := by
  intro a ha
  by_cases h : a < 6144
  · exact hplane a h
  · obtain ⟨j, rfl⟩ := Nat.exists_eq_add_of_le (Nat.not_lt.1 h)
    exact hattr j (by omega)

/-- Settles O47: one pass keeps the character plane and fills the rest with ATTR_FILL, so a second pass changes
no byte. -/
theorem displayFileRoundTrip : Obligations.DisplayFileRoundTrip := by
  intro s hready hp hlen hx hy
  obtain ⟨d, t, hd, ht, hpass⟩ := displayFile_pass ⟨hready, hp, hx, hy⟩ hlen
  obtain ⟨d₂, t₂, hd₂, ht₂, hpass₂⟩ := displayFile_pass hpass.automatic (hpass.inLen.trans hlen)
  refine ⟨d, t, d₂, t₂, hd, ht, hd₂, ht₂, hpass.plane, hpass.attrPlane, hpass.cells,
    ⟨fun h j hj => ?_, fun h => ?_⟩, ?_⟩
  · rw [← h _ (by omega), hpass.attrPlane j hj]
  · exact dfByte_eq hpass.plane fun j hj => (hpass.attrPlane j hj).trans (h j hj).symm
  · refine dfByte_eq hpass₂.plane fun j hj => ?_
    rw [hpass₂.attrPlane j hj, hpass.attrPlane j hj, hpass.attrFill]

/-! ### The character-stream round trip (R360) -/

/-- The code of a resolved pattern is the one looked up, or the placeholder (R323). -/
theorem resolve_code (g : GlyphBank) (p : Pattern) : (resolve g p).1 = (lookupPattern g p).getD 0x3F := by
  cases h : lookupPattern g p with
  | some c => rw [resolve_hit h]; rfl
  | none => rw [resolve_miss h]; rfl

/-- A pattern is unmatched when the bank lacks it (R323). -/
theorem resolve_unmatched (g : GlyphBank) (p : Pattern) : (resolve g p).2 = (lookupPattern g p).isNone := by
  cases h : lookupPattern g p with
  | some c => rw [resolve_hit h]; rfl
  | none => rw [resolve_miss h]; rfl

/-- A code with a reverse entry is looked up as itself, any other one as the blank cell (R205, R354). -/
theorem lookupPattern_charPattern {n : Nat} {s : State} (hg : BankOk n s.activeBank) (i : Nat) :
    lookupPattern s.activeBank (s.charPattern i) =
      if (lookupCode s.activeBank (s.rawCode i)).isSome then some (s.rawCode i) else lookupPattern s.activeBank 0 := by
  have hpat : s.charPattern i = (lookupCode s.activeBank (s.rawCode i)).getD 0 := rfl
  rw [hpat]
  cases h : lookupCode s.activeBank (s.rawCode i) with
  | some p => exact lookupPattern_of_lookupCode hg h
  | none => rfl

/-- The cells left unmatched are those with a missing code, if the bank lacks the blank pattern too (R360). -/
theorem countP_charPattern_unmatched {n : Nat} {s : State} (hg : BankOk n s.activeBank) :
    (List.range 768).countP (fun i => (resolve s.activeBank (s.charPattern i)).2) =
      if (lookupPattern s.activeBank 0).isSome then 0
      else (List.range 768).countP (fun i => (lookupCode s.activeBank (s.rawCode i)).isNone) := by
  have hcell : ∀ i, (resolve s.activeBank (s.charPattern i)).2 =
      ((lookupCode s.activeBank (s.rawCode i)).isNone && (lookupPattern s.activeBank 0).isNone) := fun i => by
    rw [resolve_unmatched, lookupPattern_charPattern hg]
    cases lookupCode s.activeBank (s.rawCode i) <;> rfl
  simp only [hcell]
  generalize lookupPattern s.activeBank 0 = blank
  cases blank <;> simp

/-- Settles O48: MATCH looks up each code's own pattern, or the blank one where the code is missing. -/
theorem characterStreamRoundTrip : Obligations.CharacterStreamRoundTrip := by
  intro s hready hp hbanks hlen hx hy
  have hg : BankOk s.params.gtEntries s.activeBank := hbanks s.modelSel
  obtain ⟨d, hd, hdec⟩ := issue_decodeRaw ⟨hready, hp, hx, hy⟩ hlen
  obtain ⟨t, ht, henc⟩ := issue_encode hdec.automatic hdec.srcW hdec.srcH hdec.cells
  have hcode : ∀ i < 768, t.rawCode i = (lookupPattern s.activeBank (s.charPattern i)).getD 0x3F := fun i hi => by
    rw [henc.codes i hi, hdec.activeBank, resolve_code]
  refine ⟨d, t, hd, ht, henc.errCause, ?found, ?missing, ?count, henc.flag⟩
  case found =>
    intro i hi (hsome : (lookupCode s.activeBank (s.rawCode i)).isSome = true)
    rw [hcode i hi, lookupPattern_charPattern hg, if_pos hsome, Option.getD_some]
  case missing =>
    intro i hi (hnone : lookupCode s.activeBank (s.rawCode i) = none)
    rw [hcode i hi, lookupPattern_charPattern hg, hnone]
    rfl
  case count =>
    rw [henc.count, hdec.activeBank]
    exact countP_charPattern_unmatched hg

/-! ### The all-paper raster (R361) -/

/-- Settles O49: every cell of the raster is blank, so one lookup decides all of them. -/
theorem allPaperScenario : Obligations.AllPaperScenario := by
  intro s hready hp hw hh hx hy hpaper
  obtain ⟨t, ht, henc⟩ := issue_encode (f := fun _ => 0) ⟨hready, hp, hx, hy⟩ hw hh
    (fun i hi => rasterCell_paper hw hpaper hi)
  refine ⟨t, ht, henc.errCause, fun a ha => ?_, henc.attrPlane, ?_⟩
  · obtain ⟨hl, hr, hc⟩ := planeCell_lt ha
    have hrow := henc.plane _ _ _ hl hr hc
    rw [cellAddress_planeCell ha] at hrow
    exact hrow.trans BitVec.extractLsb'_zero
  · have hcodes := henc.codes
    have hcount := henc.count
    have hflag := henc.flag
    cases h : lookupPattern (s.bank s.modelSel) 0 with
    | some k =>
      have hk : resolve s.activeBank 0 = (k, false) := resolve_hit h
      have h0 : t.unmatchedCnt = 0 := BitVec.eq_of_toNat_eq (by rw [hcount, hk]; simp)
      refine ⟨fun i hi => by rw [hcodes i hi, hk], h0, ?_⟩
      rw [Bool.eq_false_iff, ne_eq, hflag, not_not, h0]
    | none =>
      have hk : resolve s.activeBank 0 = (0x3F, true) := resolve_miss h
      have h768 : t.unmatchedCnt = 768 := BitVec.eq_of_toNat_eq (by rw [hcount, hk]; simp)
      refine ⟨fun i hi => by rw [hcodes i hi, hk], h768, hflag.2 ?_⟩
      rw [h768]
      decide

end Sys2Proof.Machine
end

section
/-! The order of the commands' checks (spec/60_exceptions.md R402, R403, R405 to R408, R423): one equation per failing
check, each under the passing of the checks before it. A failing check is the whole of a command's effect
(`next_settle_error`). -/

namespace Sys2Proof.Machine

/-! ### Lock, index and duplicate (R402, R407, R408) -/

theorem holdsElsewhere_eq_true {g : GlyphBank} {index : Nat} {p : Pattern} :
    holdsElsewhere g index p = true ↔ ∃ e ∈ g, e.1 ≠ index ∧ e.2.valid = true ∧ e.2.pattern = p := by
  simp [holdsElsewhere, and_assoc]

section
variable {s : State} {b : Bank} {index : Nat}

theorem gtWrite_locked (hl : s.gtLock = true) : gtWrite b index s = .error .gtLocked := if_pos hl

theorem gtInval_locked (hl : s.gtLock = true) : gtInval b index s = .error .gtLocked := if_pos hl

theorem gtClear_locked (hl : s.gtLock = true) : gtClear b s = .error .gtLocked := if_pos hl

theorem gtWrite_badArg (hl : s.gtLock = false) (hi : s.params.gtEntries ≤ index) :
    gtWrite b index s = .error .badArg := by
  rw [gtWrite, if_neg (ne_true_of_eq_false hl), if_pos hi]

theorem gtInval_badArg (hl : s.gtLock = false) (hi : s.params.gtEntries ≤ index) :
    gtInval b index s = .error .badArg := by
  rw [gtInval, if_neg (ne_true_of_eq_false hl), if_pos hi]

theorem gtWrite_duplicate (hl : s.gtLock = false) (hi : index < s.params.gtEntries)
    (hd : holdsElsewhere (s.bank b) index s.stagedPattern = true) : gtWrite b index s = .error .gtDuplicate := by
  rw [gtWrite, if_neg (ne_true_of_eq_false hl), if_neg (Nat.not_le.2 hi), if_pos hd]

end

/-- Settles O20: by the first check that fails and, for the lock and the index, by the command that makes it. -/
theorem glyphBankChecks : Obligations.GlyphBankChecks := by
  intro s b index
  refine ⟨fun hl i hmem => ?locked, fun hl hi i hmem => ?badArg, fun hl hi hdup => ?duplicate⟩
  case locked =>
    simp only [List.mem_cons, List.not_mem_nil, or_false] at hmem
    obtain rfl | rfl | rfl := hmem
    · exact next_settle_error (gtWrite_locked hl)
    · exact next_settle_error (gtInval_locked hl)
    · exact next_settle_error (gtClear_locked hl)
  case badArg =>
    simp only [List.mem_cons, List.not_mem_nil, or_false] at hmem
    obtain rfl | rfl := hmem
    · exact next_settle_error (gtWrite_badArg hl hi)
    · exact next_settle_error (gtInval_badArg hl hi)
  case duplicate => exact next_settle_error (gtWrite_duplicate hl hi (holdsElsewhere_eq_true.2 hdup))

/-! ### Dimensions, then the pixel or the block (R402, R403) -/

section
variable {s : State} {x y : Nat}

theorem sample_badDimensions (hd : ¬ s.legalDims) : sample x y s = .error .badDimensions := if_pos hd

theorem matchCell_badDimensions (hd : ¬ s.legalDims) : matchCell x y s = .error .badDimensions := if_pos hd

theorem sample_badArg (hd : s.legalDims) (h : s.srcW.toNat ≤ x ∨ s.srcH.toNat ≤ y) :
    sample x y s = .error .badArg := by
  rw [sample, if_neg (not_not.2 hd), if_pos h]

theorem matchCell_badArg (hd : s.legalDims) (h : s.srcW.toNat < x + 8 ∨ s.srcH.toNat < y + 8) :
    matchCell x y s = .error .badArg := by
  rw [matchCell, if_neg (not_not.2 hd), if_pos h]

end

/-- Settles O28: the dimensions decide first, whatever the pixel or the block. -/
theorem pixelCommandChecks : Obligations.PixelCommandChecks := by
  intro s x y
  refine ⟨fun hd => ⟨?_, ?_⟩, fun hd => ⟨fun h => ?_, fun h => ?_⟩⟩
  · exact next_settle_error (sample_badDimensions hd)
  · exact next_settle_error (matchCell_badDimensions hd)
  · exact next_settle_error (sample_badArg hd h)
  · exact next_settle_error (matchCell_badArg hd h)

/-! ### Dimensions, then the scale, then the window (R403, R405, R406) -/

section
variable {s : State}

theorem binarize_badDimensions (hd : ¬ s.legalDims) : binarize s = .error .badDimensions := if_pos hd

theorem matchAll_badDimensions (hd : ¬ s.legalDims) : matchAll s = .error .badDimensions := if_pos hd

theorem matchAll_scaleRequired (hd : s.legalDims) (hs : scaleTest s.srcW.toNat s.srcH.toNat = true) :
    matchAll s = .error .scaleRequired := by
  rw [matchAll, if_neg (not_not.2 hd), if_pos hs]

theorem matchAll_windowOob (hd : s.legalDims) (hs : scaleTest s.srcW.toNat s.srcH.toNat = false)
    (hf : ¬ s.windowFits) : matchAll s = .error .windowOob := by
  rw [matchAll, if_neg (not_not.2 hd), hs, if_neg Bool.false_ne_true, if_pos hf]

/-- A window past any one of the raster's four edges does not fit (R327, R406). -/
theorem not_windowFits
    (h : s.usedOffX.toInt < 0 ∨ s.usedOffY.toInt < 0 ∨ (s.srcW.toNat : Int) < s.usedOffX.toInt + 256 ∨
      (s.srcH.toNat : Int) < s.usedOffY.toInt + 192) : ¬ s.windowFits := by
  rintro ⟨hx, hy, hw, hh⟩
  simp only [State.usedX, State.usedY] at hx hy hw hh
  omega

end

/-- Settles O30: the scale test is the two bounds of R405, and the window is tested where it fails. -/
theorem rasterCommandChecks : Obligations.RasterCommandChecks := by
  intro s
  refine ⟨fun hd => ⟨?_, ?_⟩, fun hd hw hh => ?_, fun hd hns hout => ?_⟩
  · exact next_settle_error (binarize_badDimensions hd)
  · exact next_settle_error (matchAll_badDimensions hd)
  · exact next_settle_error (matchAll_scaleRequired hd (scaleTest_iff.2 ⟨hw, hh⟩))
  · exact next_settle_error (matchAll_windowOob hd (scaleTest_eq_false_iff.2 hns) (not_windowFits hout))

end Sys2Proof.Machine
end

section
/-! Writes while BUSY and the soft reset (spec/70_reset_and_hazards.md R452, R453, R460). -/

namespace Sys2Proof.Machine

/-! ### Writes dropped while BUSY (R460) -/

/-- A BUSY write to CTRL without SOFT_RESET is dropped, its GT_LOCK bit too. -/
theorem writeReg_ctrl_busy {s : State} {v : Word} (hb : s.busy = true) (hv : v.getLsbD 0 = false) :
    s.writeReg .ctrl v = { s with busyWrite := true } := by
  rw [State.writeReg, if_neg (ne_true_of_eq_false hv), if_pos hb]

/-- A BUSY write of a plain register is dropped. -/
theorem writeReg_plain_busy {s : State} {r : Reg} (hr : r.isPlain = true) (hb : s.busy = true) (v : Word) :
    s.writeReg r v = { s with busyWrite := true } := by
  unfold State.writeReg
  split
  case h_6 => rw [if_pos hr, if_pos hb]
  all_goals cases hr

/-- A BUSY write to the live part of a writable window is dropped. -/
theorem writeData_window_busy {s : State} {off : Nat} (size : Size) (v : Word) (hb : s.busy = true)
    (h : regionOf s.params off ∈ [Region.cellpat, .raw, .df, .src]) :
    s.writeData off size v = { s with busyWrite := true } := by
  unfold State.writeData
  split
  case h_2 | h_3 | h_4 | h_5 => exact if_pos hb
  all_goals rename_i hreg; simp [hreg] at h

/-- The live parts of the writable windows, by the numbers of R105. -/
theorem regionOf_writable {p : Config.Params} {a : Nat} (hp : p.Ok)
    (h : inRange 0x10000 6144 a ∨ inRange 0x20000 768 a ∨ inRange 0x30000 6912 a ∨
      inRange 0x1000000 (4 * (p.srcMaxW * p.srcMaxH)) a) :
    regionOf p a ∈ [Region.cellpat, .raw, .df, .src] := by
  rcases h with h | h | h | h
  · simp [regionOf_cellpat h]
  · simp [regionOf_raw h]
  · simp [regionOf_df h]
  · simp [regionOf_src hp h]

/-- At the offset of a plain RW register stands a plain register (R60). -/
theorem regAt_plainOffset {off : Nat} (h : off ∈ plainTable.map (·.1)) :
    ∃ r, regAt off = some r ∧ off < 0x10000 ∧ off % 4 = 0 ∧ r.isPlain = true := by
  obtain ⟨⟨_, r, _⟩, hq, rfl⟩ := List.mem_map.1 h
  obtain ⟨hreg, hlt, hal, hplain, -⟩ := plainTable_spec hq
  exact ⟨r, hreg, hlt, hal, hplain⟩

/-- Settles O9: CTRL and the plain registers by the rule of the register at the offset, a window by its region. -/
theorem busyWriteIsDropped : Obligations.BusyWriteIsDropped := by
  intro s off size v rest hp hb hal hword he hoff
  rcases hoff with ⟨rfl, hv⟩ | hplain | hwin
  · obtain rfl := hword (by decide)
    rw [step_write_register he (by decide) (by decide) (r := .ctrl) rfl,
      writeReg_ctrl_busy (s := { s with events := rest }) hb hv]
    rfl
  · obtain ⟨r, hreg, hlt, hal4, hr⟩ := regAt_plainOffset hplain
    obtain rfl := hword hlt
    rw [step_write_register he hlt hal4 hreg, writeReg_plain_busy (s := { s with events := rest }) hr hb]
    rfl
  · have hreg : regionOf s.params off ∈ [Region.cellpat, .raw, .df, .src] :=
      regionOf_writable hp (hwin.imp_right (Or.imp_right (Or.imp_right And.left)))
    rw [step_write he (by omega) (accessError_ok hal hword),
      writeData_window_busy (s := { s with events := rest }) size v hb hreg]
    rfl

/-! ### The soft reset (R452, R453) -/

/-- A write to CTRL with SOFT_RESET is the soft reset, BUSY or not and whatever its other bits are. -/
theorem writeReg_ctrl_softReset (s : State) {v : Word} (hv : v.getLsbD 0 = true) :
    s.writeReg .ctrl v = s.softReset :=
  if_pos hv

/-- Every register reads its reset value. -/
theorem readReg_softReset (s : State) (r : Reg) :
    s.softReset.readReg r = { State.reset with params := s.params }.readReg r := by
  rw [softReset_eq]
  cases r <;> rfl

/-- The block is unlocked, and the engine IDLE without a completion. -/
theorem softReset_control (s : State) :
    s.softReset.gtLock = false ∧ s.softReset.busy = false ∧ s.softReset.seqStep = 0 ∧
      s.softReset.intDone = false ∧ s.softReset.intErr = false := by
  rw [softReset_eq]
  exact ⟨rfl, rfl, rfl, rfl, rfl⟩

@[simp] theorem State.softReset_events (s : State) : s.softReset.events = s.events := by
  rw [softReset_eq, State.resetRegisters_events]

@[simp] theorem State.softReset_responses (s : State) : s.softReset.responses = s.responses := by
  rw [softReset_eq, State.resetRegisters_responses]

theorem softReset_invalid (s : State) (b : Bank) : ∀ e ∈ s.softReset.bank b, e.2.valid = false := by
  rw [softReset_bank]
  exact fun e he => (mem_invalidateAll he).1

/-- Settles O17: the step is the soft reset, part by part; a bit of memory outside the aborted command's mask stays. -/
theorem softResetState : Obligations.SoftResetState := by
  intro s v rest hv he
  have hs := step_write_register he (by decide) (by decide) (r := .ctrl) rfl
  rw [writeReg_ctrl_softReset _ hv] at hs
  obtain ⟨hlock, hbusy, hseq, hdone, herr⟩ := softReset_control { s with events := rest }
  refine ⟨_, hs, fun r => ?_, hlock, hbusy, hseq, hdone, herr, softReset_invalid _,
    fun a j hj hkept => ?_, ?_, ?_, ?_⟩
  · exact (readReg_ofModel _ _ _ _ r).trans (readReg_softReset _ r)
  · exact byteAt_softReset { s with events := rest } a j (memMask_bit hj hkept)
  · exact State.softReset_params _
  · exact State.softReset_events _
  · exact congrArg (Response.writeOkay :: ·) (State.softReset_responses { s with events := rest })

end Sys2Proof.Machine
end
